-- ==== Sys2Proof/Word.lean ====
section
/-! DEFINITION. The word types of the machine (`00_scope.md` R8 to R12) and the register numbers. -/

namespace Sys2Proof

/-- A register, an address or a memory word: 32 bits (R10). -/
abbrev Word := BitVec 32

/-- The addressable unit of memory: one byte (R101). -/
abbrev Byte := BitVec 8

/-- A 64-bit counter or timer value (R44, R45, R46). -/
abbrev DWord := BitVec 64

/-- A general register number, x0 to x31 (R30). -/
abbrev Reg := Fin 32

/-- A CSR number: 12 bits (`10_state.md` R50). -/
abbrev CsrNum := BitVec 12

end Sys2Proof
end

