-- ==== Sys2Proof/Config.lean ====
section
/-! DEFINITION. The parameters of the machine (`00_scope.md` R8), one field each, with the constraints R8 puts
on them. The values marked OPEN there are arguments of the model: `State` carries one `Config`, which no step
changes (log 1). `Config.default` holds the defaults of R8, and named choices where R8 gives none (log 2). The free values the model needs are constants without a body. -/

namespace Sys2Proof

/-- MEM_VARIANT (R8): which memory hierarchy stands in front of the backing store. -/
inductive MemVariant where
  | setAssoc
  | blockCache
deriving DecidableEq, Repr

/-- FAULT_POLICY (R8, `60_exceptions.md` R408): what a synchronous trap does. -/
inductive FaultPolicy where
  | deliver
  | fatal
  | suppress
deriving DecidableEq, Repr

/-- CONSOLE_FULL (R8, `60_exceptions.md` R440): what an offer to a full console output queue does. -/
inductive ConsoleFull where
  | drop
  | wait
deriving DecidableEq, Repr

/-- The result of an emulator session (`60_exceptions.md` R431). The source enumerates the first three and has no code for
a forced halt (D52), whose result HALT3_RESULT is OPEN: DESIGN CHOICE (log 33), `other` lets it be a code outside the
source's enumeration. -/
inductive SessionResult where
  | poweroff
  | reboot
  | unknownFailure
  | other (code : Nat)
deriving DecidableEq, Repr

/-- The arguments of one call `Step(count, elapsed_us)` (`60_exceptions.md` R400). -/
structure HostCall where
  count   : BitVec 32
  elapsed : BitVec 32
deriving DecidableEq, Repr

/-- HART_ID (R8, fixed). -/
def hartId : Word := 0

/-- SYSCON_POWEROFF (R8, fixed). -/
def sysconPoweroff : Word := 0x5555#32

/-- SYSCON_RESTART (R8, fixed). -/
def sysconRestart : Word := 0x7777#32

/-- The parameters of R8. LINE_SIZE, NUM_SETS and BLOCK_SIZE are powers of two, so the exponents are held:
`lineBits` and `indexBits` are OB and IB of `20_memory.md` R121. -/
structure Config where
  ramBase        : Word
  ramSize        : Nat
  tailGuard      : Nat
  variant        : MemVariant
  lineBits       : Nat
  indexBits      : Nat
  blockBits      : Nat
  nBlocks        : Nat
  mmioLo         : Word
  mmioHi         : Word
  uartData       : Word
  uartLsr        : Word
  mtimecmpLo     : Word
  mtimecmpHi     : Word
  mtimeLo        : Word
  mtimeHi        : Word
  sysconAddr     : Word
  csrConsoleOut  : CsrNum
  csrConsoleIn   : CsrNum
  csrBlkPtr      : CsrNum
  csrBlkOff      : CsrNum
  csrBlkLen      : CsrNum
  csrBlkGo       : CsrNum
  csrBlkSize     : CsrNum
  csrBlkErr      : CsrNum
  sectorSize     : Nat
  faultPolicy    : FaultPolicy
  mmioLoadExtend : Bool
  misa           : Word
  mvendorid      : Word
  dtbSize        : Nat
  consoleCap     : Nat
  keyboardCap    : Nat
  consoleFull    : ConsoleFull
  blkDevSize     : Nat
  blkErrIo       : Word
  halt3Result    : SessionResult
  dtbPatchOfs    : Nat
  dtbPlaceholder : List Byte
  cmdlineOfs     : Nat
  /-- The model's own (log 7): the call the host makes when `State.calls` lists none. -/
  defaultCall    : HostCall
deriving DecidableEq, Repr

/-- LINE_SIZE in bytes. -/
def Config.lineSize (c : Config) : Nat := 2 ^ c.lineBits

/-- NUM_SETS. -/
def Config.numSets (c : Config) : Nat := 2 ^ c.indexBits

/-- BLOCK_SIZE in bytes. -/
def Config.blockSize (c : Config) : Nat := 2 ^ c.blockBits

/-- The size of the unit no RAM access may cross: a line or a block (`20_memory.md` R116). -/
def Config.unitSize (c : Config) : Nat :=
  match c.variant with
  | .setAssoc => c.lineSize
  | .blockCache => c.blockSize

/-- DTB_PTR, the physical address of the device-tree blob (`10_state.md` R80). -/
def Config.dtbPtr (c : Config) : Word := c.ramBase + BitVec.ofNat 32 (c.ramSize - c.dtbSize)

/-- The standard CSR numbers (`10_state.md` R50). -/
def standardCsrs : List CsrNum :=
  [0x300#12, 0x301#12, 0x304#12, 0x305#12, 0x340#12, 0x341#12, 0x342#12, 0x343#12, 0x344#12, 0xC00#12, 0xF11#12]

/-- The eight custom CSR numbers (`10_state.md` R50). -/
def Config.customCsrs (c : Config) : List CsrNum :=
  [c.csrConsoleOut, c.csrConsoleIn, c.csrBlkPtr, c.csrBlkOff, c.csrBlkLen, c.csrBlkGo, c.csrBlkSize, c.csrBlkErr]

/-- The named device addresses (`20_memory.md` R105). -/
def Config.deviceAddrs (c : Config) : List Word :=
  [c.uartData, c.uartLsr, c.mtimecmpLo, c.mtimecmpHi, c.mtimeLo, c.mtimeHi, c.sysconAddr]

/-- The constraints R8 puts on the parameters, and the two the transfer loop of `60_exceptions.md` R454 needs
of SECTOR_SIZE (log 23). R8's table gives LINE_SIZE as 16 or 64 and BLOCK_SIZE as 1024..4096, its constraints ask only
for at least 16 and at least 1024: DESIGN CHOICE (log 30), the bounds here are those of the constraints. -/
structure Config.Wf (c : Config) : Prop where
  base_aligned : c.ramBase.toNat % 4 = 0
  line_min : 4 ≤ c.lineBits
  block_min : 10 ≤ c.blockBits
  ram_lines : c.ramSize % c.lineSize = 0
  ram_blocks : c.ramSize % c.blockSize = 0
  guard_lt : c.tailGuard < c.ramSize
  ram_no_wrap : c.ramBase.toNat + c.ramSize ≤ 2 ^ 32
  ram_mmio_apart : c.ramBase.toNat + c.ramSize ≤ c.mmioLo.toNat ∨ c.mmioHi.toNat ≤ c.ramBase.toNat
  devices_in_window : ∀ a ∈ c.deviceAddrs, c.mmioLo ≤ a ∧ a < c.mmioHi
  devices_distinct : c.deviceAddrs.Nodup
  csrs_distinct : (c.customCsrs ++ standardCsrs).Nodup
  blocks_pos : 0 < c.nBlocks
  console_pos : 0 < c.consoleCap
  keyboard_pos : 0 < c.keyboardCap
  dev_size : c.blkDevSize < 2 ^ 32
  err_nonzero : c.blkErrIo ≠ 0
  dtb_fits : c.dtbSize ≤ c.ramSize
  sector_pos : 0 < c.sectorSize
  sector_words : c.sectorSize % 4 = 0

/-- The bytes a failing block-file write leaves in its sector, one for each value of the counter `BlockDev.torn`: FREE VALUES
(`60_exceptions.md` R452, R454; log 32). Nothing is known of them. -/
opaque Config.tornByte : Nat → Byte

/-- The defaults of R8. R8 gives none for DTB_SIZE, BLK_DEV_SIZE, CONSOLE_QCAP, KB_QCAP and HALT3_RESULT: the
values here for these five are DESIGN CHOICE (log 2), the first two those of the vectors of `95_test_vectors.md`. -/
def Config.default : Config where
  ramBase        := 0x80000000#32
  ramSize        := 0x01000000
  tailGuard      := 3
  variant        := .setAssoc
  lineBits       := 6
  indexBits      := 12
  blockBits      := 12
  nBlocks        := 64
  mmioLo         := 0x10000000#32
  mmioHi         := 0x12000000#32
  uartData       := 0x10000000#32
  uartLsr        := 0x10000005#32
  mtimecmpLo     := 0x11004000#32
  mtimecmpHi     := 0x11004004#32
  mtimeLo        := 0x1100BFF8#32
  mtimeHi        := 0x1100BFFC#32
  sysconAddr     := 0x11100000#32
  csrConsoleOut  := 0x139#12
  csrConsoleIn   := 0x140#12
  csrBlkPtr      := 0x150#12
  csrBlkOff      := 0x151#12
  csrBlkLen      := 0x152#12
  csrBlkGo       := 0x153#12
  csrBlkSize     := 0x154#12
  csrBlkErr      := 0x155#12
  sectorSize     := 512
  faultPolicy    := .deliver
  mmioLoadExtend := true
  misa           := 0x40401101#32
  mvendorid      := 0xFF0FF0FF#32
  dtbSize        := 0x600
  consoleCap     := 16
  keyboardCap    := 16
  consoleFull    := .drop
  blkDevSize     := 4096
  blkErrIo       := 1#32
  halt3Result    := .unknownFailure
  dtbPatchOfs    := 0x13C
  dtbPlaceholder := [0x00#8, 0xC0#8, 0xFF#8, 0x03#8]
  cmdlineOfs     := 0xC0
  defaultCall    := ⟨1#32, 0#32⟩

end Sys2Proof
end

