-- ==== Sys2Proof/Syntax.lean ====
section
/-! DEFINITION. The instructions: one constructor per row of `opcode_table.json` (`30_encoding.md` R186). Fields
are what the table's row names; an immediate is held as its encoded bits, a branch or jump offset as the byte
offset it stands for (R183), whose bit 0 `WellFormed` requires to be 0. -/

namespace Sys2Proof

/-- An instruction. `rd`, `rs1`, `rs2` are register numbers, `imm` the immediate bits, `aq`, `rl` the ordering
bits of R143, `csr` a CSR number, `uimm` the 5-bit CSR immediate of R185. -/
inductive Instr where
  -- `40_integer.md`, upper immediate
  | lui (rd : Reg) (imm : BitVec 20)
  | auipc (rd : Reg) (imm : BitVec 20)
  -- `41_control.md`
  | jal (rd : Reg) (off : BitVec 21)
  | jalr (rd rs1 : Reg) (imm : BitVec 12)
  | beq (rs1 rs2 : Reg) (off : BitVec 13)
  | bne (rs1 rs2 : Reg) (off : BitVec 13)
  | blt (rs1 rs2 : Reg) (off : BitVec 13)
  | bge (rs1 rs2 : Reg) (off : BitVec 13)
  | bltu (rs1 rs2 : Reg) (off : BitVec 13)
  | bgeu (rs1 rs2 : Reg) (off : BitVec 13)
  -- `42_loadstore.md`
  | lb (rd rs1 : Reg) (imm : BitVec 12)
  | lh (rd rs1 : Reg) (imm : BitVec 12)
  | lw (rd rs1 : Reg) (imm : BitVec 12)
  | lbu (rd rs1 : Reg) (imm : BitVec 12)
  | lhu (rd rs1 : Reg) (imm : BitVec 12)
  | sb (rs1 rs2 : Reg) (imm : BitVec 12)
  | sh (rs1 rs2 : Reg) (imm : BitVec 12)
  | sw (rs1 rs2 : Reg) (imm : BitVec 12)
  -- `40_integer.md`, register-immediate
  | addi (rd rs1 : Reg) (imm : BitVec 12)
  | slti (rd rs1 : Reg) (imm : BitVec 12)
  | sltiu (rd rs1 : Reg) (imm : BitVec 12)
  | xori (rd rs1 : Reg) (imm : BitVec 12)
  | ori (rd rs1 : Reg) (imm : BitVec 12)
  | andi (rd rs1 : Reg) (imm : BitVec 12)
  | slli (rd rs1 : Reg) (shamt : BitVec 5)
  | srli (rd rs1 : Reg) (shamt : BitVec 5)
  | srai (rd rs1 : Reg) (shamt : BitVec 5)
  -- `40_integer.md`, register-register
  | add (rd rs1 rs2 : Reg)
  | sub (rd rs1 rs2 : Reg)
  | sll (rd rs1 rs2 : Reg)
  | slt (rd rs1 rs2 : Reg)
  | sltu (rd rs1 rs2 : Reg)
  | xor (rd rs1 rs2 : Reg)
  | srl (rd rs1 rs2 : Reg)
  | sra (rd rs1 rs2 : Reg)
  | or (rd rs1 rs2 : Reg)
  | and (rd rs1 rs2 : Reg)
  -- `45_system.md`, fences
  | fence (fm pred succ : BitVec 4) (rs1 rd : Reg)
  | fenceI (imm : BitVec 12) (rs1 rd : Reg)
  -- `45_system.md`, privileged
  | ecall
  | ebreak
  | mret
  | wfi
  -- `45_system.md`, Zicsr
  | csrrw (rd rs1 : Reg) (csr : CsrNum)
  | csrrs (rd rs1 : Reg) (csr : CsrNum)
  | csrrc (rd rs1 : Reg) (csr : CsrNum)
  | csrrwi (rd : Reg) (uimm : BitVec 5) (csr : CsrNum)
  | csrrsi (rd : Reg) (uimm : BitVec 5) (csr : CsrNum)
  | csrrci (rd : Reg) (uimm : BitVec 5) (csr : CsrNum)
  -- `43_muldiv.md`
  | mul (rd rs1 rs2 : Reg)
  | mulh (rd rs1 rs2 : Reg)
  | mulhsu (rd rs1 rs2 : Reg)
  | mulhu (rd rs1 rs2 : Reg)
  | div (rd rs1 rs2 : Reg)
  | divu (rd rs1 rs2 : Reg)
  | rem (rd rs1 rs2 : Reg)
  | remu (rd rs1 rs2 : Reg)
  -- `44_atomic.md`
  | lrW (aq rl : Bool) (rd rs1 : Reg)
  | scW (aq rl : Bool) (rd rs1 rs2 : Reg)
  | amoswapW (aq rl : Bool) (rd rs1 rs2 : Reg)
  | amoaddW (aq rl : Bool) (rd rs1 rs2 : Reg)
  | amoxorW (aq rl : Bool) (rd rs1 rs2 : Reg)
  | amoandW (aq rl : Bool) (rd rs1 rs2 : Reg)
  | amoorW (aq rl : Bool) (rd rs1 rs2 : Reg)
  | amominW (aq rl : Bool) (rd rs1 rs2 : Reg)
  | amomaxW (aq rl : Bool) (rd rs1 rs2 : Reg)
  | amominuW (aq rl : Bool) (rd rs1 rs2 : Reg)
  | amomaxuW (aq rl : Bool) (rd rs1 rs2 : Reg)
deriving DecidableEq, Repr

end Sys2Proof
end

