-- ==== Sys2Proof/Machine/State.lean ====
section
/-! DEFINITION. The state of the machine (`10_state.md` R30 to R80, `20_memory.md` R122, R150, `60_exceptions.md`
R400 to R454), plain data, with the state right after reset; the faults and the refusals of a step. -/

namespace Sys2Proof.Machine

/-- Sparse bytes by address: addresses strictly rising, no entry equal to what an unlisted address reads as. -/
abbrev Memory := List Host.Cell

/-- The extraflags word `ef` (R40): bits 1:0 PRIV (R41), bit 2 WFI (R42), bits 31:3 RES (R43). -/
structure Extraflags where
  priv : BitVec 2
  wfi  : Bool
  res  : BitVec 29
deriving DecidableEq, Repr

/-- The CSRs that hold a value (R50, R51, R54 to R60). -/
structure CsrFile where
  mstatus  : Word
  mie      : Word
  mip      : Word
  mtvec    : Word
  mscratch : Word
  mepc     : Word
  mcause   : Word
  mtval    : Word
deriving DecidableEq, Repr

/-- One line of the set-associative cache (R122). -/
structure Line where
  tag   : Nat
  valid : Bool
  dirty : Bool
  mru   : Bool
  data  : List Byte
deriving DecidableEq, Repr

/-- The two ways of a set (R122). -/
structure CacheSet where
  way0 : Line
  way1 : Line
deriving DecidableEq, Repr

/-- A line as `reset()` leaves it (R133). Its data are unspecified and never read; the model holds none (log 16). -/
def Line.empty : Line := ⟨0, false, false, false, []⟩

/-- A set as `reset()` leaves it (R133). -/
def CacheSet.empty : CacheSet := ⟨Line.empty, Line.empty⟩

/-- The set-associative cache (R122): the sets that differ from `CacheSet.empty`, by rising set number, and the
two counters (R130). -/
structure SetCache where
  sets   : List (Nat × CacheSet)
  hits   : Nat
  misses : Nat
deriving DecidableEq, Repr

/-- One slot of the block cache (R150). -/
structure Block where
  start   : Nat
  stamp   : DWord
  pending : Bool
  used    : Bool
  data    : List Byte
deriving DecidableEq, Repr

/-- The block cache (R150): the slots taken so far, slot 0 first (the others of the NBLOCKS are unused), the slot
numbers sorted by start, and the sequence counter. -/
structure BlockCache where
  slots : List Block
  index : List Nat
  seq   : DWord
deriving DecidableEq, Repr

/-- The memory hierarchy (R70): the backing store by RAM offset, the two caches of R8's MEM_VARIANT (only the
chosen one is used), and `io`, the outcomes of the coming storage operations, `true` a failure, none listed a
success (R470, log 9). -/
structure Mem where
  backing : Memory
  cache   : SetCache
  blocks  : BlockCache
  io      : List Bool
deriving DecidableEq, Repr

/-- The block device (R71, R450): its registers, its position, the backing file F by byte position (R452), and `torn`, the
number of free bytes that failing file writes have left so far (log 32). -/
structure BlockDev where
  ptr  : Word
  off  : Word
  len  : Word
  err  : Word
  pos  : DWord
  file : Memory
  torn : Nat
deriving DecidableEq, Repr

/-- The call of `Step` in progress (R400, R406): the attempts left (0 between calls), the count of the call, the
running cycle count `cyc` (R420), and the outcome of the last finished call (R401), none before the first and
during a call. -/
structure StepCall where
  remaining : Nat
  count     : BitVec 32
  cyc       : DWord
  outcome   : Option Word
deriving DecidableEq, Repr

/-- A move of an agent other than the hart, or `core` for a move of the hart (log 8). -/
inductive Move where
  /-- The hart takes its next step. -/
  | core
  /-- The console task appends a byte to the keyboard queue, if it is not full (R471). -/
  | key (b : Byte)
  /-- The console task removes the oldest byte of the console output queue (R471). -/
  | drain
  /-- The host calls the cache's `reset()` between steps (R133, R502). -/
  | cacheReset
  /-- The host re-initialises the machine with this image, DTB and command line (R501, R503). -/
  | reboot (image dtb cmdline : List Byte)
deriving DecidableEq, Repr

/-- The whole state. `cfg`, `mem.io`, `calls`, `agenda` and `blk.torn` are the model's own fields (log 1, 9, 7, 8, 32). -/
structure State where
  cfg      : Config
  regs     : Vector Word 31
  pc       : Word
  ef       : Extraflags
  cycle    : DWord
  mtime    : DWord
  mtimecmp : DWord
  csr      : CsrFile
  mem      : Mem
  kb       : List Byte
  con      : List Byte
  blk      : BlockDev
  call     : StepCall
  calls    : List HostCall
  agenda   : List Move
deriving DecidableEq, Repr

/-- The operation a storage failure hit (R401). -/
inductive StorageOp where
  | read
  | write
deriving DecidableEq, Repr

/-- Why the machine stops with a fault. -/
inductive Fault where
  /-- ModelFault(LineCross): raised by any RAM access whose bytes span two lines or blocks (R116, R120; log 13).
  Safe: the spec's own model fault, where the hardware's behaviour is not guaranteed. -/
  | lineCross
  /-- StorageFault(op, ofs): raised by a failing backing-store read or write during a fill or a write-back, with
  the RAM offset of the line or block (R134, R158, R401; log 14). Safe: a terminal outcome of the spec. -/
  | storageFault (op : StorageOp) (ofs : Nat)
deriving DecidableEq, Repr

/-- Why the model has no meaning for a case (R17, `refuse`). -/
inductive Refusal where
  /-- An arm of `exec` without a meaning yet; raised by `exec` only. Safe. -/
  | notModelled (mnemonic : String)
  /-- refuse(MmioLoadWidth): raised by a LOAD with funct3 3, 6 or 7 on an MMIO address, whatever MMIO_LOAD_EXTEND (R271,
  D10, U2; log 24). Safe. -/
  | mmioLoadWidth
  /-- refuse(MmioStoreWidth): raised by a STORE with funct3 3 to 7 on an MMIO address (R111, R271). Safe. -/
  | mmioStoreWidth
  /-- refuse(BlkDirection): raised by a write of a value other than 0 and 1 to CSR_BLK_GO (R454). Safe. -/
  | blkDirection
  /-- refuse(BlkAlign): raised by a transfer with blk_ptr or blk_len not a multiple of 4 (R454). Safe. -/
  | blkAlign
  /-- refuse(BlkRamRange): raised by a transfer whose RAM range leaves RAM (R454). Safe. -/
  | blkRamRange
  /-- refuse(BlkDevRange): raised by a transfer past the end of the device (R454). Safe. -/
  | blkDevRange
  /-- A boot image, DTB or command line that does not fit: raised by the host's reboot move (R503, U21). Safe. -/
  | bootImage
deriving DecidableEq, Repr

/-- A step or an operation stops with a fault or a refusal. -/
inductive Stop where
  | fault (f : Fault)
  | refused (r : Refusal)
deriving DecidableEq, Repr

/-- The outcome of one step of this machine. -/
abbrev Result := Host.Outcome State Fault Refusal

/-- A step that stops. -/
def Stop.toResult : Stop → Result
  | .fault f => .fault f
  | .refused r => .refused r

/-- The cache after `reset()` (R133). -/
def SetCache.empty : SetCache := ⟨[], 0, 0⟩

/-- The block cache at session start (R159). -/
def BlockCache.empty : BlockCache := ⟨[], [], 0⟩

/-- The hart, CSR, timer and device registers as R80 leaves them, over the given RAM and the state that survives
a reboot (R501): the parameters, the storage outcomes, the block file, the queues, the host's and the console
task's coming moves. -/
def State.initial (cfg : Config) (backing : Memory) (io : List Bool) (file : Memory) (kb con : List Byte)
    (calls : List HostCall) (agenda : List Move) : State where
  cfg      := cfg
  regs     := ((Vector.replicate 31 (0 : Word)).set 9 hartId).set 10 cfg.dtbPtr
  pc       := cfg.ramBase
  ef       := ⟨3#2, false, 0#29⟩
  cycle    := 0
  mtime    := 0
  mtimecmp := 0
  csr      := ⟨0, 0, 0, 0, 0, 0, 0, 0⟩
  mem      := ⟨backing, SetCache.empty, BlockCache.empty, io⟩
  kb       := kb
  con      := con
  blk      := ⟨0, 0, 0, 0, 0, file, 0⟩
  call     := ⟨0, 0, 0, none⟩
  calls    := calls
  agenda   := agenda

/-- The state right after power-on reset (R80, R504), with the default parameters, nothing listed in memory
(log 4, 5), empty queues (log 3) and no coming move, call or failure listed (log 7, 8, 9). -/
def State.reset : State := State.initial Config.default [] [] [] [] [] [] []

end Sys2Proof.Machine
end

