-- ==== Sys2Proof/Machine/Flags.lean ====
section
/-! DEFINITION. The fields of the status words. The hart has no condition flags (`10_state.md` R36): what stands
here are the fields of mstatus, mie, mip and ef that the hardware reads or computes (R40, R51, R54, R55). -/

namespace Sys2Proof.Machine

/-- mstatus.MIE, bit 3 (R51). -/
def mieBit (st : Word) : Bool := st.getLsbD 3

/-- mstatus.MPIE, bit 7 (R51). -/
def mpieBit (st : Word) : Bool := st.getLsbD 7

/-- mstatus.MPP, bits 12:11 (R51). -/
def mppField (st : Word) : BitVec 2 := st.extractLsb' 11 2

/-- Bit 7 of mie or mip: MTIE, MTIP (R54, R55). -/
def timerBit (v : Word) : Bool := v.getLsbD 7

/-- An mstatus whose only bits are MIE, MPIE and MPP (R51, R410, R355). -/
def mkStatus (mie mpie : Bool) (mpp : BitVec 2) : Word :=
  ((BitVec.ofBool mie).setWidth 32 <<< 3) ||| ((BitVec.ofBool mpie).setWidth 32 <<< 7)
    ||| (mpp.setWidth 32 <<< 11)

/-- `mip[7] <- t`, the other bits kept (R403). -/
def setTimerBit (v : Word) (t : Bool) : Word := if t then v ||| 0x80#32 else v &&& ~~~0x80#32

/-- The word `ef` in its layout (R40). -/
def Extraflags.word (f : Extraflags) : Word := f.res ++ BitVec.ofBool f.wfi ++ f.priv

/-- The timer condition (R403): strict, and off while mtimecmp is 0. -/
def timerCondition (mtime mtimecmp : DWord) : Bool := decide (mtimecmp < mtime) && decide (mtimecmp ≠ 0)

end Sys2Proof.Machine
end

