-- ==== Sys2Proof/Machine/Memory.lean ====
section
/-! DEFINITION. Sparse tables in one canonical form: keys strictly rising, no entry equal to the default an
unlisted key stands for. The backing store, the block file and the sets of the cache are such tables. -/

namespace Sys2Proof.Machine

/-! ### Tables -/

/-- The entry of a key, or the default of an unlisted key. -/
def tableGet {β : Type} (d : β) : List (Nat × β) → Nat → β
  | [], _ => d
  | (k, v) :: m, a => if k = a then v else tableGet d m a

/-- Insert or replace an entry at its place. -/
def tableInsert {β : Type} : List (Nat × β) → Nat → β → List (Nat × β)
  | [], a, v => [(a, v)]
  | (k, w) :: m, a, v =>
    if a < k then (a, v) :: (k, w) :: m
    else if a = k then (a, v) :: m
    else (k, w) :: tableInsert m a v

/-- Remove the entry of a key. -/
def tableErase {β : Type} : List (Nat × β) → Nat → List (Nat × β)
  | [], _ => []
  | (k, w) :: m, a => if k = a then m else (k, w) :: tableErase m a

/-- Write an entry; writing the default removes it, so the form stays canonical. -/
def tablePut {β : Type} [DecidableEq β] (d : β) (m : List (Nat × β)) (a : Nat) (v : β) : List (Nat × β) :=
  if v = d then tableErase m a else tableInsert m a v

/-- The canonical form: every key lies above `lo`, keys rise strictly, no entry equals the default. -/
def tableWfFrom {β : Type} [DecidableEq β] (d : β) : Nat → List (Nat × β) → Bool
  | _, [] => true
  | lo, (k, v) :: m => decide (lo ≤ k) && decide (v ≠ d) && tableWfFrom d (k + 1) m

/-- The canonical form of a table. -/
def tableWf {β : Type} [DecidableEq β] (d : β) (m : List (Nat × β)) : Bool := tableWfFrom d 0 m

/-! ### Bytes -/

/-- What a byte nothing has written reads as: 0x00 (R80, U9: unspecified; DESIGN CHOICE, log 4, log 5). -/
def Memory.unlisted : Byte := 0x00#8

/-- The byte at an address. -/
def Memory.get (m : Memory) (a : Nat) : Byte := tableGet Memory.unlisted m a

/-- Write the byte at an address. -/
def Memory.put (m : Memory) (a : Nat) (v : Byte) : Memory := tablePut Memory.unlisted m a v

/-- The memory is in canonical form. -/
def Memory.wf (m : Memory) : Bool := tableWf Memory.unlisted m

/-- The `n` bytes from an address on. -/
def Memory.getN (m : Memory) (a : Nat) : Nat → List Byte
  | 0 => []
  | n + 1 => m.get a :: Memory.getN m (a + 1) n

/-- Write bytes from an address on. -/
def Memory.putN (m : Memory) (a : Nat) : List Byte → Memory
  | [] => m
  | b :: bs => Memory.putN (m.put a b) (a + 1) bs

/-- Replace the bytes of a line's or block's data from an offset on (R129). -/
def patch (data : List Byte) (k : Nat) (bs : List Byte) : List Byte :=
  data.take k ++ bs ++ data.drop (k + bs.length)

/-- The `n` bytes of a line's or block's data from an offset on (R128). -/
def slice (data : List Byte) (k n : Nat) : List Byte := (data.drop k).take n

end Sys2Proof.Machine
end

