-- ==== Sys2Proof/Machine/Cache.lean ====
section
/-! DEFINITION. The backing-store operations (`20_memory.md` R100) and the set-associative cache (R121 to R134). -/

namespace Sys2Proof.Machine

/-! ### The backing store (R100, R470) -/

/-- Take the outcome of the next storage operation from the list of coming outcomes: `true` is a failure, and
where none is listed the operation succeeds (R470, log 9). -/
def ioNext (io : List Bool) : Bool × List Bool :=
  match io with
  | [] => (false, [])
  | b :: io => (b, io)

/-- `BS.read(ofs, n)` (R100): the bytes, or the fatal failure of R134. -/
def bsRead (m : Mem) (ofs n : Nat) : Except Fault (List Byte × Mem) :=
  match ioNext m.io with
  | (true, _) => .error (.storageFault .read ofs)
  | (false, io) => .ok (m.backing.getN ofs n, { m with io := io })

/-- `BS.write(ofs, bytes)` (R100): the store with the bytes written, or the fatal failure of R134. -/
def bsWrite (m : Mem) (ofs : Nat) (bytes : List Byte) : Except Fault Mem :=
  match ioNext m.io with
  | (true, _) => .error (.storageFault .write ofs)
  | (false, io) => .ok { m with backing := m.backing.putN ofs bytes, io := io }

/-! ### Address decomposition (R121) -/

/-- `offset(o) = o[OB-1:0]`. -/
def lineOffset (c : Config) (o : Nat) : Nat := o % c.lineSize

/-- `index(o) = o[OB+IB-1:OB]`. -/
def setIndex (c : Config) (o : Nat) : Nat := o / c.lineSize % c.numSets

/-- `tag(o) = o >> (OB+IB)`. -/
def lineTag (c : Config) (o : Nat) : Nat := o / c.lineSize / c.numSets

/-- The RAM offset of the line of a tag and a set: `((tag << IB) | s) << OB` (R125). -/
def lineBase (c : Config) (tag s : Nat) : Nat := (tag * c.numSets + s) * c.lineSize

/-! ### Sets and ways (R122 to R125) -/

/-- A way number. -/
inductive Way where
  | w0
  | w1
deriving DecidableEq, Repr

/-- `L[s]` (R122). -/
def SetCache.getSet (k : SetCache) (s : Nat) : CacheSet := tableGet CacheSet.empty k.sets s

/-- Write `L[s]`. -/
def SetCache.putSet (k : SetCache) (s : Nat) (cs : CacheSet) : SetCache :=
  { k with sets := tablePut CacheSet.empty k.sets s cs }

/-- The line of a way. -/
def CacheSet.line (cs : CacheSet) : Way → Line
  | .w0 => cs.way0
  | .w1 => cs.way1

/-- Replace the line of a way. -/
def CacheSet.setLine (cs : CacheSet) (w : Way) (l : Line) : CacheSet :=
  match w with
  | .w0 => { cs with way0 := l }
  | .w1 => { cs with way1 := l }

/-- `SetMRU(s, w)` (R124). -/
def CacheSet.setMru (cs : CacheSet) (w : Way) : CacheSet :=
  match w with
  | .w0 => ⟨{ cs.way0 with mru := true }, { cs.way1 with mru := false }⟩
  | .w1 => ⟨{ cs.way0 with mru := false }, { cs.way1 with mru := true }⟩

/-- A valid line with this tag. -/
def Line.matches (l : Line) (tag : Nat) : Bool := l.valid && decide (l.tag = tag)

/-- The way a lookup hits: way 0 is tried first (R123). -/
def CacheSet.hit (cs : CacheSet) (tag : Nat) : Option Way :=
  if cs.way0.matches tag then some .w0
  else if cs.way1.matches tag then some .w1
  else none

/-- The victim of a miss: the way not marked MRU, way 0 if neither is (R125). -/
def CacheSet.victim (cs : CacheSet) : Way := if cs.way0.mru then .w1 else .w0

/-- The write-back of a line: a valid dirty line goes to the backing store, any other is left (R126). -/
def writeBack (c : Config) (m : Mem) (s : Nat) (l : Line) : Except Fault Mem :=
  if l.valid && l.dirty then bsWrite m (lineBase c l.tag s) l.data else .ok m

/-- `Miss(s, t, o)` (R125): write the victim back, fill it from the backing store, mark it MRU. -/
def cacheMiss (c : Config) (m : Mem) (o : Nat) : Except Fault (Way × Mem) :=
  let s := setIndex c o
  let cs := m.cache.getSet s
  let v := cs.victim
  match writeBack c m s (cs.line v) with
  | .error f => .error f
  | .ok m =>
    match bsRead m (o - lineOffset c o) c.lineSize with
    | .error f => .error f
    | .ok (bytes, m) =>
      let filled : Line := ⟨lineTag c o, true, false, (cs.line v).mru, bytes⟩
      .ok (v, { m with cache := m.cache.putSet s ((cs.setLine v filled).setMru v) })

/-- `Resolve(o)` (R123): the way that holds the line of `o`, after a miss if need be; one hit or one miss is
counted (R130). -/
def cacheResolve (c : Config) (m : Mem) (o : Nat) : Except Fault (Way × Mem) :=
  let s := setIndex c o
  let cs := m.cache.getSet s
  match cs.hit (lineTag c o) with
  | some w =>
    .ok (w, { m with cache := { m.cache.putSet s (cs.setMru w) with hits := m.cache.hits + 1 } })
  | none => cacheMiss c { m with cache := { m.cache with misses := m.cache.misses + 1 } } o

/-- The line of `o` once resolved to a way. -/
def cacheLine (c : Config) (m : Mem) (o : Nat) (w : Way) : Line := (m.cache.getSet (setIndex c o)).line w

/-- `hierarchy.read(o, n)` of the set-associative cache (R128). -/
def cacheRead (c : Config) (m : Mem) (o n : Nat) : Except Fault (List Byte × Mem) :=
  match cacheResolve c m o with
  | .error f => .error f
  | .ok (w, m) => .ok (slice (cacheLine c m o w).data (lineOffset c o) n, m)

/-- `hierarchy.write(o, v, n)` of the set-associative cache (R129). -/
def cacheWrite (c : Config) (m : Mem) (o : Nat) (bytes : List Byte) : Except Fault Mem :=
  match cacheResolve c m o with
  | .error f => .error f
  | .ok (w, m) =>
    let s := setIndex c o
    let cs := m.cache.getSet s
    let l := cs.line w
    let written : Line := { l with data := patch l.data (lineOffset c o) bytes, dirty := true }
    .ok { m with cache := m.cache.putSet s (cs.setLine w written) }

/-- The logical byte M(o) of the set-associative hierarchy (R131). -/
def cacheByte (c : Config) (m : Mem) (o : Nat) : Byte :=
  let cs := m.cache.getSet (setIndex c o)
  match cs.hit (lineTag c o) with
  | some w => (cs.line w).data.getD (lineOffset c o) 0
  | none => m.backing.get o

/-- `reset()` (R133): every line invalid, the counters 0, nothing written back. -/
def cacheReset (m : Mem) : Mem := { m with cache := SetCache.empty }

end Sys2Proof.Machine
end

