-- ==== Sys2Proof/Machine/BlockCache.lean ====
section
/-! DEFINITION. The block cache (`20_memory.md` R150 to R159), the hierarchy of MEM_VARIANT = BlockCache. -/

namespace Sys2Proof.Machine

/-- A slot that no block has used yet. The spec gives its ever-used and pending-write flags at session start (R80, R159),
not its start, stamp and data: DESIGN CHOICE (log 31), 0, 0 and no data, which no operation reads. -/
def Block.unused : Block := ⟨0, 0, false, false, []⟩

/-- Slot number `k`; a slot not taken yet is unused (R150). -/
def BlockCache.slot (b : BlockCache) (k : Nat) : Block := b.slots.getD k Block.unused

/-- A block covers an offset (R151). -/
def Block.covers (c : Config) (b : Block) (o : Nat) : Bool :=
  b.used && decide (b.start ≤ o) && decide (o < b.start + c.blockSize)

/-- Binary search over `index[lo .. hi-1]` for the block that covers `o` (R151), unsigned; each probe is at
`(lo + hi) / 2` (log 17). `fuel` bounds the probes. -/
def blockSearch (c : Config) (b : BlockCache) (o : Nat) : Nat → Nat → Nat → Option Nat
  | 0, _, _ => none
  | fuel + 1, lo, hi =>
    if lo < hi then
      let mid := (lo + hi) / 2
      let k := b.index.getD mid 0
      if (b.slot k).covers c o then some k
      else if o < (b.slot k).start then blockSearch c b o fuel lo mid
      else blockSearch c b o fuel (mid + 1) hi
    else none

/-- Lookup (R151): the slot whose block covers `o`. -/
def blockFind (c : Config) (b : BlockCache) (o : Nat) : Option Nat :=
  blockSearch c b o (b.index.length + 1) 0 b.index.length

/-- The slot with the smallest stamp among the slots from number `k` on, `best` the best so far (R152). -/
def oldestFrom : List Block → Nat → Nat → DWord → Nat
  | [], _, best, _ => best
  | b :: bs, k, best, stamp =>
    if b.stamp < stamp then oldestFrom bs (k + 1) k b.stamp else oldestFrom bs (k + 1) best stamp

/-- The used slot with the smallest stamp (R152). Stamps never tie (R155); the first is taken if they did. -/
def BlockCache.oldest (b : BlockCache) : Nat :=
  match b.slots with
  | [] => 0
  | s :: rest => oldestFrom rest 1 0 s.stamp

/-- `Flush(b)` of a slot (R157): the whole block goes to the backing store. -/
def blockFlush (m : Mem) (k : Nat) : Except Fault Mem :=
  let b := m.blocks.slot k
  match bsWrite m b.start b.data with
  | .error f => .error f
  | .ok m => .ok { m with blocks.slots := m.blocks.slots.set k { b with pending := false } }

/-- Insert a slot number into the index at its sorted position (R154). -/
def indexInsert (b : BlockCache) (start k : Nat) : List Nat → List Nat
  | [] => [k]
  | j :: js => if start < (b.slot j).start then k :: j :: js else j :: indexInsert b start k js

/-- The slot a miss takes: the first unused slot while one is left, else the slot with the smallest stamp, flushed
if it has a pending write and taken out of the index (R152; log 17). -/
def blockVictim (c : Config) (m : Mem) : Except Fault (Nat × Mem) :=
  if m.blocks.slots.length < c.nBlocks then
    .ok (m.blocks.slots.length, { m with blocks.slots := m.blocks.slots ++ [Block.unused] })
  else
    let k := m.blocks.oldest
    match (if (m.blocks.slot k).pending then blockFlush m k else .ok m) with
    | .error f => .error f
    | .ok m => .ok (k, { m with blocks.index := m.blocks.index.erase k })

/-- `BMiss(o)` (R152). -/
def blockMiss (c : Config) (m : Mem) (o : Nat) : Except Fault (Nat × Mem) :=
  match blockVictim c m with
  | .error f => .error f
  | .ok (k, m) =>
    let start := o - o % c.blockSize
    match bsRead m start c.blockSize with
    | .error f => .error f
    | .ok (bytes, m) =>
      let b : Block := { m.blocks.slot k with start := start, data := bytes, pending := false, used := true }
      let blocks := { m.blocks with slots := m.blocks.slots.set k b }
      .ok (k, { m with blocks := { blocks with index := indexInsert blocks start k blocks.index } })

/-- Stamp the resolved block (R155). -/
def blockStamp (m : Mem) (k : Nat) : Mem :=
  let seq := m.blocks.seq + 1
  { m with
    blocks.slots := m.blocks.slots.set k { m.blocks.slot k with stamp := seq },
    blocks.seq := seq }

/-- The slot of the block that covers `o`, after a miss if need be, stamped (R151, R152, R155). -/
def blockResolve (c : Config) (m : Mem) (o : Nat) : Except Fault (Nat × Mem) :=
  match blockFind c m.blocks o with
  | some k => .ok (k, blockStamp m k)
  | none =>
    match blockMiss c m o with
    | .error f => .error f
    | .ok (k, m) => .ok (k, blockStamp m k)

/-- `hierarchy.read(o, n)` of the block cache (R156). -/
def blockRead (c : Config) (m : Mem) (o n : Nat) : Except Fault (List Byte × Mem) :=
  match blockResolve c m o with
  | .error f => .error f
  | .ok (k, m) =>
    let b := m.blocks.slot k
    .ok (slice b.data (o - b.start) n, m)

/-- `hierarchy.write(o, v, n)` of the block cache (R156). -/
def blockWrite (c : Config) (m : Mem) (o : Nat) (bytes : List Byte) : Except Fault Mem :=
  match blockResolve c m o with
  | .error f => .error f
  | .ok (k, m) =>
    let b := m.blocks.slot k
    let written : Block := { b with data := patch b.data (o - b.start) bytes, pending := true }
    .ok { m with blocks.slots := m.blocks.slots.set k written }

/-- The logical byte M(o) of the block cache (R159). -/
def blockByte (c : Config) (m : Mem) (o : Nat) : Byte :=
  match blockFind c m.blocks o with
  | some k => (m.blocks.slot k).data.getD (o - (m.blocks.slot k).start) 0
  | none => m.backing.get o

end Sys2Proof.Machine
end

