-- ==== Sys2Proof/Machine/Bytes.lean ====
section
/-! DEFINITION. Byte order: little-endian, for data and for fetch (`20_memory.md` R113). The one place where
bytes become words and words become bytes. -/

namespace Sys2Proof.Machine

/-- The value of bytes read at rising addresses, the first least significant (R113, R128). -/
def leWord : List Byte → Word
  | [] => 0
  | b :: bs => b.setWidth 32 ||| (leWord bs <<< 8)

/-- The low `n` bytes of `v`, least significant first (R113, R129). -/
def leBytes : Nat → Word → List Byte
  | 0, _ => []
  | n + 1, v => v.setWidth 8 :: leBytes n (v >>> 8)

/-- The 4 bytes of `v`, most significant first: the device-tree order of the patched field (R503). -/
def beBytes (v : Word) : List Byte := (leBytes 4 v).reverse

end Sys2Proof.Machine
end

