-- ==== Sys2Proof/Machine/Hierarchy.lean ====
section
/-! DEFINITION. RAM access through the hierarchy (`20_memory.md` R100, R103, R116, R120, R131): the two
operations of the core, and the logical RAM image. -/

namespace Sys2Proof.Machine

/-- The RAM offset of a physical address (R103). -/
def ofs (c : Config) (a : Word) : Word := a - c.ramBase

/-- `InRamData(a)` (R103). -/
def inRamData (c : Config) (a : Word) : Bool := decide ((ofs c a).toNat < c.ramSize - c.tailGuard)

/-- `InRamFetch(a)` (R103). -/
def inRamFetch (c : Config) (a : Word) : Bool := decide ((ofs c a).toNat < c.ramSize)

/-- An access whose bytes span two lines or blocks (R116). -/
def crosses (c : Config) (o n : Nat) : Bool := decide (c.unitSize < o % c.unitSize + n)

/-- `MemRead(a, n)` at RAM offset `o` (R120): the value of `n` little-endian bytes, zero-extended. -/
def Mem.read (c : Config) (m : Mem) (o n : Nat) : Except Fault (Word × Mem) :=
  if crosses c o n then .error .lineCross
  else
    match (match c.variant with
      | .setAssoc => cacheRead c m o n
      | .blockCache => blockRead c m o n) with
    | .error f => .error f
    | .ok (bytes, m) => .ok (leWord bytes, m)

/-- `MemWrite(a, n, v)` at RAM offset `o` (R120): the low `n` bytes of `v`, little-endian. -/
def Mem.write (c : Config) (m : Mem) (o n : Nat) (v : Word) : Except Fault Mem :=
  if crosses c o n then .error .lineCross
  else
    match c.variant with
    | .setAssoc => cacheWrite c m o (leBytes n v)
    | .blockCache => blockWrite c m o (leBytes n v)

/-- The logical RAM image M(o) (R131, R159): the one read of a byte by which memory is observed. -/
def Mem.byte (c : Config) (m : Mem) (o : Nat) : Byte :=
  match c.variant with
  | .setAssoc => cacheByte c m o
  | .blockCache => blockByte c m o

/-- The `n`-byte little-endian value of the image at an offset (R113, R131). -/
def Mem.value (c : Config) (m : Mem) (o n : Nat) : Word :=
  leWord ((List.range n).map fun k => m.byte c (o + k))

/-- Place a byte into RAM from outside the machine, so that the image reads it: in the backing store and in the
line or block that holds it, if any (R503: either way of loading gives the same image; log 12). -/
def Mem.poke (c : Config) (m : Mem) (o : Nat) (b : Byte) : Mem :=
  let m := { m with backing := m.backing.put o b }
  match c.variant with
  | .setAssoc =>
    let s := setIndex c o
    let cs := m.cache.getSet s
    match cs.hit (lineTag c o) with
    | some w =>
      let l := cs.line w
      let loaded : Line := { l with data := patch l.data (lineOffset c o) [b] }
      { m with cache := m.cache.putSet s (cs.setLine w loaded) }
    | none => m
  | .blockCache =>
    match blockFind c m.blocks o with
    | some k =>
      let bl := m.blocks.slot k
      { m with blocks.slots := m.blocks.slots.set k { bl with data := patch bl.data (o - bl.start) [b] } }
    | none => m

/-- Place bytes at rising offsets. -/
def Mem.pokeN (c : Config) (m : Mem) (o : Nat) : List Byte → Mem
  | [] => m
  | b :: bs => Mem.pokeN c (m.poke c o b) (o + 1) bs

end Sys2Proof.Machine
end

