-- ==== Sys2Proof/Machine/Operands.lean ====
section
/-! DEFINITION. Operand forms: sign-extended immediates (`30_encoding.md` R183 to R185), load widths
(`42_loadstore.md` R260, `20_memory.md` R111), the address classes of the decoder (R104), comparisons. -/

namespace Sys2Proof.Machine

/-- imm_I or imm_S: 12 bits, sign-extended (R183). -/
def immSext (imm : BitVec 12) : Word := imm.signExtend 32

/-- imm_U: bits 31:12, the low 12 bits zero (R183). -/
def immUpper (imm : BitVec 20) : Word := imm ++ 0#12

/-- imm_B or imm_J: the byte offset, sign-extended (R183). -/
def offSext {w : Nat} (off : BitVec w) : Word := off.signExtend 32

/-- The CSR immediate, zero-extended (R185). -/
def uimmZext (uimm : BitVec 5) : Word := uimm.setWidth 32

/-- The low five bits of a register as a shift amount (R184). -/
def shiftAmount (v : Word) : Nat := v.toNat % 32

/-- `cond ? 1 : 0`. -/
def boolWord (b : Bool) : Word := if b then 1 else 0

/-- The widths of the five loads (R260). -/
inductive LoadWidth where
  | b
  | h
  | w
  | bu
  | hu
deriving DecidableEq, Repr

/-- The bytes a load moves: n(funct3) of R260. -/
def LoadWidth.bytes : LoadWidth → Nat
  | .b => 1
  | .h => 2
  | .w => 4
  | .bu => 1
  | .hu => 2

/-- `Width(funct3, d)` (R260): cut the value to the width and extend it. -/
def LoadWidth.extend (k : LoadWidth) (d : Word) : Word :=
  match k with
  | .b => (d.setWidth 8).signExtend 32
  | .h => (d.setWidth 16).signExtend 32
  | .w => d
  | .bu => (d.setWidth 8).setWidth 32
  | .hu => (d.setWidth 16).setWidth 32

/-- The widths of the three stores (R267). -/
inductive StoreWidth where
  | b
  | h
  | w
deriving DecidableEq, Repr

/-- The bytes a store moves: n(funct3) of R267. -/
def StoreWidth.bytes : StoreWidth → Nat
  | .b => 1
  | .h => 2
  | .w => 4

/-- The classes of the address decoder (R104). -/
inductive AddrClass where
  | ram
  | mmio
  | unpopulated
deriving DecidableEq, Repr

/-- `Classify(a)` (R104): the RAM test is made first. -/
def classify (c : Config) (a : Word) : AddrClass :=
  if inRamData c a then .ram
  else if c.mmioLo ≤ a ∧ a < c.mmioHi then .mmio
  else .unpopulated

end Sys2Proof.Machine
end

