-- ==== Sys2Proof/Machine/Ops.lean ====
section
/-! DEFINITION. The named operations over the state: registers (`10_state.md` R31, R33), RAM (`20_memory.md`
R120), devices (R109, R110), the console queues (`60_exceptions.md` R440), the end of a `Step` call (R401), taking
a trap (R408, R410) and the return from one (`45_system.md` R355). -/

namespace Sys2Proof.Machine

/-! ### Registers and pc -/

/-- `x[r]`: x0 reads 0 (R31). -/
def State.readReg (s : State) (r : Reg) : Word :=
  if h : r.val = 0 then 0 else s.regs[r.val - 1]'(by omega)

/-- `x[r] <- v`: a write to x0 is discarded (R31, R33). -/
def State.writeReg (s : State) (r : Reg) (v : Word) : State :=
  if h : r.val = 0 then s else { s with regs := s.regs.set (r.val - 1) v (by omega) }

/-- The end of an instruction that does not transfer control: pc + 4 (R34). -/
def State.advance (s : State) : State := { s with pc := s.pc + 4 }

/-- The end of an instruction that writes a register and goes on at pc + 4 (R33, R34). -/
def State.finish (s : State) (rd : Reg) (v : Word) : State := (s.writeReg rd v).advance

/-- The end of an instruction that writes a register and goes on at `npc` (R33, R34). -/
def State.finishAt (s : State) (rd : Reg) (v npc : Word) : State := { s.writeReg rd v with pc := npc }

/-! ### The end of a `Step` call (R401, R406) -/

/-- End the call with an outcome. `cycle` keeps its value (R420: cyc is not stored). -/
def State.endCall (s : State) (v : Word) : State :=
  { s with call.remaining := 0, call.outcome := some v }

/-- End the call with outcome 0, storing the running cycle count (R406, R420). -/
def State.endCallCounted (s : State) : State := { s.endCall 0 with cycle := s.call.cyc }

/-! ### Taking a trap and returning from one -/

/-- `TakeTrap(c, t, epc)` (R410): the saved registers, the status, the mode and the pc at the vector. -/
def State.takeTrap (s : State) (cause tval epc : Word) : State :=
  { s with
    csr := { s.csr with
      mcause := cause
      mtval := tval
      mepc := epc
      mstatus := mkStatus false (mieBit s.csr.mstatus) s.ef.priv }
    pc := s.csr.mtvec
    ef.priv := 3#2 }

/-- The trap code handed to the fault policy, `k = mcause + 1` (R408). -/
def trapCode (cause : Word) : Word := cause + 1

/-- The trap-classification callback `H(ir, k)`, which returns every code unchanged (R408). -/
def trapHook (_ir k : Word) : Word := k

/-- `raise Trap(cause, tval)` at the current pc, through the fault policy (R15, R406, R408). Under Deliver the hook
returns the nonzero code unchanged, so the trap is always delivered: the running cycle count is stored, the trap is
taken and the call ends with outcome 0. Under Fatal pc stays (log 26). -/
def State.raiseTrap (s : State) (cause tval : Word) : State :=
  match s.cfg.faultPolicy with
  | .fatal => s.endCall 3
  | .suppress => s.advance
  | .deliver => (s.endCallCounted).takeTrap cause tval s.pc

/-- The return from a trap (R355): MIE gets MPIE, MPIE is set, MPP gets the privilege before the return, every
other mstatus bit is cleared; PRIV gets the old MPP, pc gets mepc. -/
def State.trapReturn (s : State) : State :=
  { s with
    csr.mstatus := mkStatus (mpieBit s.csr.mstatus) true s.ef.priv
    ef.priv := mppField s.csr.mstatus
    pc := s.csr.mepc }

/-! ### RAM (R120) -/

/-- `MemRead(a, n)`. -/
def State.memRead (s : State) (a : Word) (n : Nat) : Except Fault (Word × State) :=
  match s.mem.read s.cfg (ofs s.cfg a).toNat n with
  | .error f => .error f
  | .ok (v, m) => .ok (v, { s with mem := m })

/-- `MemWrite(a, n, v)`. -/
def State.memWrite (s : State) (a : Word) (n : Nat) (v : Word) : Except Fault State :=
  match s.mem.write s.cfg (ofs s.cfg a).toNat n v with
  | .error f => .error f
  | .ok m => .ok { s with mem := m }

/-- The logical RAM image of the state at a RAM offset (R131). -/
def State.ram (s : State) (o : Nat) : Byte := s.mem.byte s.cfg o

/-- The `n`-byte little-endian value of the RAM image at an address (R113, R131). -/
def State.ramValue (s : State) (a : Word) (n : Nat) : Word := s.mem.value s.cfg (ofs s.cfg a).toNat n

/-! ### The console queues (R440, R441) -/

/-- `ConsoleOut.offer(b)` (R440). A full queue drops the byte, or, under Wait, takes it once the console task has
removed its oldest byte (log 10). -/
def State.offer (s : State) (b : Byte) : State :=
  if s.con.length < s.cfg.consoleCap then { s with con := s.con ++ [b] }
  else
    match s.cfg.consoleFull with
    | .drop => s
    | .wait => { s with con := s.con.tail ++ [b] }

/-- The try-remove of the keyboard queue (R441): the oldest byte, or -1 if it is empty (R62, R109). -/
def State.takeKey (s : State) : Word × State :=
  match s.kb with
  | [] => (0xFFFFFFFF#32, s)
  | b :: rest => (b.setWidth 32, { s with kb := rest })

/-! ### MMIO (R109, R110) -/

/-- `MmioRead(a)` (R109). -/
def State.mmioRead (s : State) (a : Word) : Word × State :=
  if a = s.cfg.uartData then s.takeKey
  else if a = s.cfg.uartLsr then (if s.kb.isEmpty then 0x60#32 else 0x61#32, s)
  else if a = s.cfg.mtimeLo then (s.mtime.setWidth 32, s)
  else if a = s.cfg.mtimeHi then (s.mtime.extractLsb' 32 32, s)
  else (0, s)

/-- An MMIO load's value (R111): cut and extended by the width, or the device value whole. -/
def mmioExtend (c : Config) (k : LoadWidth) (d : Word) : Word := if c.mmioLoadExtend then k.extend d else d

/-- A store to the MMIO window at `a` of the whole register value `v` (R110), with the end of the instruction: pc
goes on, and a store to SYSCON_ADDR then ends the call with outcome `v` (R430). -/
def State.mmioStore (s : State) (a v : Word) : State :=
  if a = s.cfg.uartData then (s.offer (v.setWidth 8)).advance
  else if a = s.cfg.mtimecmpLo then
    { s with mtimecmp := s.mtimecmp.extractLsb' 32 32 ++ v }.advance
  else if a = s.cfg.mtimecmpHi then
    { s with mtimecmp := v ++ s.mtimecmp.setWidth 32 }.advance
  else if a = s.cfg.sysconAddr then s.advance.endCall v
  else s.advance

end Sys2Proof.Machine
end

