-- ==== Sys2Proof/Machine/Atomic.lean ====
section
/-! DEFINITION. Atomics (`44_atomic.md` R310 to R326). aq and rl are ignored (`20_memory.md` R143). -/

namespace Sys2Proof.Machine

/-- The reservation tag of an address: bits 28:0 of its RAM offset (R311, `10_state.md` R43). -/
def resTag (c : Config) (a : Word) : BitVec 29 := (ofs c a).setWidth 29

/-- The start of every atomic (R310): the address check (cause 7 outside RAM, MMIO included), then the read of the
word, performed for every funct5; `k` is the rest of the instruction, on the old value. -/
def State.atomic (s : State) (rs1 : Reg) (k : Word → State → Result) : Result :=
  let a := s.readReg rs1
  if inRamData s.cfg a then
    match s.memRead a 4 with
    | .error f => .fault f
    | .ok (old, t) => k old t
  else .next (s.raiseTrap 7 a)

/-- An AMO (R314 to R326): memory gets `f old x[rs2]`, then rd gets the old value. -/
def State.amo (s : State) (rd rs1 rs2 : Reg) (f : Word → Word → Word) : Result :=
  s.atomic rs1 fun old t =>
    match t.memWrite (s.readReg rs1) 4 (f old (s.readReg rs2)) with
    | .error e => .fault e
    | .ok t => .next (t.finish rd old)

/-- LR.W (R311): the tag is set, then rd gets the word. -/
def execLrW (_aq _rl : Bool) (rd rs1 : Reg) (s : State) : Result :=
  s.atomic rs1 fun old t =>
    .next ({ t with ef.res := resTag s.cfg (s.readReg rs1) }.finish rd old)

/-- SC.W (R312, R313): it succeeds exactly when the tag equals the offset's, and never clears the tag. -/
def execScW (_aq _rl : Bool) (rd rs1 rs2 : Reg) (s : State) : Result :=
  s.atomic rs1 fun _ t =>
    if t.ef.res = resTag s.cfg (s.readReg rs1) then
      match t.memWrite (s.readReg rs1) 4 (s.readReg rs2) with
      | .error e => .fault e
      | .ok t => .next (t.finish rd 0)
    else .next (t.finish rd 1)

/-- AMOSWAP.W (R314). -/
def execAmoswapW (_aq _rl : Bool) (rd rs1 rs2 : Reg) (s : State) : Result := s.amo rd rs1 rs2 fun _ v => v

/-- AMOADD.W (R315). -/
def execAmoaddW (_aq _rl : Bool) (rd rs1 rs2 : Reg) (s : State) : Result := s.amo rd rs1 rs2 fun old v => old + v

/-- AMOXOR.W (R316). -/
def execAmoxorW (_aq _rl : Bool) (rd rs1 rs2 : Reg) (s : State) : Result := s.amo rd rs1 rs2 fun old v => old ^^^ v

/-- AMOAND.W (R317). -/
def execAmoandW (_aq _rl : Bool) (rd rs1 rs2 : Reg) (s : State) : Result := s.amo rd rs1 rs2 fun old v => old &&& v

/-- AMOOR.W (R318). -/
def execAmoorW (_aq _rl : Bool) (rd rs1 rs2 : Reg) (s : State) : Result := s.amo rd rs1 rs2 fun old v => old ||| v

/-- AMOMIN.W (R319): signed. -/
def execAmominW (_aq _rl : Bool) (rd rs1 rs2 : Reg) (s : State) : Result :=
  s.amo rd rs1 rs2 fun old v => if v.slt old then v else old

/-- AMOMAX.W (R320): signed. -/
def execAmomaxW (_aq _rl : Bool) (rd rs1 rs2 : Reg) (s : State) : Result :=
  s.amo rd rs1 rs2 fun old v => if old.slt v then v else old

/-- AMOMINU.W (R321): unsigned. -/
def execAmominuW (_aq _rl : Bool) (rd rs1 rs2 : Reg) (s : State) : Result :=
  s.amo rd rs1 rs2 fun old v => if v.ult old then v else old

/-- AMOMAXU.W (R326): unsigned. -/
def execAmomaxuW (_aq _rl : Bool) (rd rs1 rs2 : Reg) (s : State) : Result :=
  s.amo rd rs1 rs2 fun old v => if old.ult v then v else old

end Sys2Proof.Machine
end

