-- ==== Sys2Proof/Machine/Control.lean ====
section
/-! DEFINITION. Control transfer (`41_control.md` R240 to R252). No transfer checks its target: the next fetch does
(R242). There is no delay slot (R243). -/

namespace Sys2Proof.Machine

/-- JAL (R240). -/
def execJal (rd : Reg) (off : BitVec 21) (s : State) : Result :=
  .next (s.finishAt rd (s.pc + 4) (s.pc + offSext off))

/-- JALR (R241): only bit 0 of the target is cleared, and rs1 is read before rd is written. -/
def execJalr (rd rs1 : Reg) (imm : BitVec 12) (s : State) : Result :=
  .next (s.finishAt rd (s.pc + 4) ((s.readReg rs1 + immSext imm) &&& 0xFFFFFFFE#32))

/-- A branch (R245): taken, pc + offset; not taken, pc + 4. -/
def State.branch (s : State) (rs1 rs2 : Reg) (off : BitVec 13) (cond : Word → Word → Bool) : Result :=
  if cond (s.readReg rs1) (s.readReg rs2) then .next { s with pc := s.pc + offSext off } else .next s.advance

/-- BEQ (R246). -/
def execBeq (rs1 rs2 : Reg) (off : BitVec 13) (s : State) : Result := s.branch rs1 rs2 off fun a b => a == b

/-- BNE (R247). -/
def execBne (rs1 rs2 : Reg) (off : BitVec 13) (s : State) : Result := s.branch rs1 rs2 off fun a b => a != b

/-- BLT (R248). -/
def execBlt (rs1 rs2 : Reg) (off : BitVec 13) (s : State) : Result := s.branch rs1 rs2 off fun a b => a.slt b

/-- BGE (R249). -/
def execBge (rs1 rs2 : Reg) (off : BitVec 13) (s : State) : Result := s.branch rs1 rs2 off fun a b => !a.slt b

/-- BLTU (R250). -/
def execBltu (rs1 rs2 : Reg) (off : BitVec 13) (s : State) : Result := s.branch rs1 rs2 off fun a b => a.ult b

/-- BGEU (R251). -/
def execBgeu (rs1 rs2 : Reg) (off : BitVec 13) (s : State) : Result := s.branch rs1 rs2 off fun a b => !a.ult b

end Sys2Proof.Machine
end

