-- ==== Sys2Proof/Machine/LoadStore.lean ====
section
/-! DEFINITION. Loads and stores (`42_loadstore.md` R260 to R273). The address class is decided first; there is no
alignment requirement (R261), and a RAM access that crosses a line or block is a model fault (`20_memory.md` R116). -/

namespace Sys2Proof.Machine

/-- The effective address (R260, R267). -/
def State.ea (s : State) (rs1 : Reg) (imm : BitVec 12) : Word := s.readReg rs1 + immSext imm

/-- `Load(funct3)` (R260). -/
def State.load (s : State) (k : LoadWidth) (rd rs1 : Reg) (imm : BitVec 12) : Result :=
  let a := s.ea rs1 imm
  match classify s.cfg a with
  | .unpopulated => .next (s.raiseTrap 5 a)
  | .mmio => let (d, t) := s.mmioRead a
    .next (t.finish rd (mmioExtend s.cfg k d))
  | .ram =>
    match s.memRead a k.bytes with
    | .error f => .fault f
    | .ok (v, t) => .next (t.finish rd (k.extend v))

/-- `Store(funct3)` (R267). -/
def State.store (s : State) (k : StoreWidth) (rs1 rs2 : Reg) (imm : BitVec 12) : Result :=
  let a := s.ea rs1 imm
  let v := s.readReg rs2
  match classify s.cfg a with
  | .unpopulated => .next (s.raiseTrap 7 a)
  | .mmio => .next (s.mmioStore a v)
  | .ram =>
    match s.memWrite a k.bytes v with
    | .error f => .fault f
    | .ok t => .next t.advance

/-- LB (R262). -/
def execLb (rd rs1 : Reg) (imm : BitVec 12) (s : State) : Result := s.load .b rd rs1 imm

/-- LH (R263). -/
def execLh (rd rs1 : Reg) (imm : BitVec 12) (s : State) : Result := s.load .h rd rs1 imm

/-- LW (R264). -/
def execLw (rd rs1 : Reg) (imm : BitVec 12) (s : State) : Result := s.load .w rd rs1 imm

/-- LBU (R265). -/
def execLbu (rd rs1 : Reg) (imm : BitVec 12) (s : State) : Result := s.load .bu rd rs1 imm

/-- LHU (R266). -/
def execLhu (rd rs1 : Reg) (imm : BitVec 12) (s : State) : Result := s.load .hu rd rs1 imm

/-- SB (R268). -/
def execSb (rs1 rs2 : Reg) (imm : BitVec 12) (s : State) : Result := s.store .b rs1 rs2 imm

/-- SH (R269). -/
def execSh (rs1 rs2 : Reg) (imm : BitVec 12) (s : State) : Result := s.store .h rs1 rs2 imm

/-- SW (R270). -/
def execSw (rs1 rs2 : Reg) (imm : BitVec 12) (s : State) : Result := s.store .w rs1 rs2 imm

end Sys2Proof.Machine
end

