-- ==== Sys2Proof/Machine/Integer.lean ====
section
/-! DEFINITION. The integer computational instructions (`40_integer.md` R199 to R223). Each writes rd and goes on
at pc + 4; none can trap (R199). -/

namespace Sys2Proof.Machine

/-! ### Upper immediate -/

/-- LUI (R200). -/
def execLui (rd : Reg) (imm : BitVec 20) (s : State) : Result := .next (s.finish rd (immUpper imm))

/-- AUIPC (R201). -/
def execAuipc (rd : Reg) (imm : BitVec 20) (s : State) : Result := .next (s.finish rd (s.pc + immUpper imm))

/-! ### Register-immediate (R202) -/

/-- The shape of OP-IMM: rd gets `f` of rs1 and the operand. -/
def State.opImm (s : State) (rd rs1 : Reg) (operand : Word) (f : Word → Word → Word) : Result :=
  .next (s.finish rd (f (s.readReg rs1) operand))

/-- ADDI (R203). -/
def execAddi (rd rs1 : Reg) (imm : BitVec 12) (s : State) : Result :=
  s.opImm rd rs1 (immSext imm) fun a b => a + b

/-- SLTI (R204). -/
def execSlti (rd rs1 : Reg) (imm : BitVec 12) (s : State) : Result :=
  s.opImm rd rs1 (immSext imm) fun a b => boolWord (a.slt b)

/-- SLTIU (R205). -/
def execSltiu (rd rs1 : Reg) (imm : BitVec 12) (s : State) : Result :=
  s.opImm rd rs1 (immSext imm) fun a b => boolWord (a.ult b)

/-- XORI (R206). -/
def execXori (rd rs1 : Reg) (imm : BitVec 12) (s : State) : Result :=
  s.opImm rd rs1 (immSext imm) fun a b => a ^^^ b

/-- ORI (R207). -/
def execOri (rd rs1 : Reg) (imm : BitVec 12) (s : State) : Result :=
  s.opImm rd rs1 (immSext imm) fun a b => a ||| b

/-- ANDI (R208). -/
def execAndi (rd rs1 : Reg) (imm : BitVec 12) (s : State) : Result :=
  s.opImm rd rs1 (immSext imm) fun a b => a &&& b

/-- SLLI (R209). -/
def execSlli (rd rs1 : Reg) (shamt : BitVec 5) (s : State) : Result :=
  s.opImm rd rs1 (uimmZext shamt) fun a b => a <<< b.toNat

/-- SRLI (R210). -/
def execSrli (rd rs1 : Reg) (shamt : BitVec 5) (s : State) : Result :=
  s.opImm rd rs1 (uimmZext shamt) fun a b => a >>> b.toNat

/-- SRAI (R211). -/
def execSrai (rd rs1 : Reg) (shamt : BitVec 5) (s : State) : Result :=
  s.opImm rd rs1 (uimmZext shamt) fun a b => a.sshiftRight b.toNat

/-! ### Register-register (R212) -/

/-- The shape of OP: rd gets `f` of rs1 and rs2, both read before rd is written (R33). -/
def State.opReg (s : State) (rd rs1 rs2 : Reg) (f : Word → Word → Word) : Result :=
  .next (s.finish rd (f (s.readReg rs1) (s.readReg rs2)))

/-- ADD (R213). -/
def execAdd (rd rs1 rs2 : Reg) (s : State) : Result := s.opReg rd rs1 rs2 fun a b => a + b

/-- SUB (R214). -/
def execSub (rd rs1 rs2 : Reg) (s : State) : Result := s.opReg rd rs1 rs2 fun a b => a - b

/-- SLL (R215). -/
def execSll (rd rs1 rs2 : Reg) (s : State) : Result := s.opReg rd rs1 rs2 fun a b => a <<< shiftAmount b

/-- SLT (R216). -/
def execSlt (rd rs1 rs2 : Reg) (s : State) : Result := s.opReg rd rs1 rs2 fun a b => boolWord (a.slt b)

/-- SLTU (R217). -/
def execSltu (rd rs1 rs2 : Reg) (s : State) : Result := s.opReg rd rs1 rs2 fun a b => boolWord (a.ult b)

/-- XOR (R218). -/
def execXor (rd rs1 rs2 : Reg) (s : State) : Result := s.opReg rd rs1 rs2 fun a b => a ^^^ b

/-- SRL (R219). -/
def execSrl (rd rs1 rs2 : Reg) (s : State) : Result := s.opReg rd rs1 rs2 fun a b => a >>> shiftAmount b

/-- SRA (R220). -/
def execSra (rd rs1 rs2 : Reg) (s : State) : Result := s.opReg rd rs1 rs2 fun a b => a.sshiftRight (shiftAmount b)

/-- OR (R221). -/
def execOr (rd rs1 rs2 : Reg) (s : State) : Result := s.opReg rd rs1 rs2 fun a b => a ||| b

/-- AND (R222). -/
def execAnd (rd rs1 rs2 : Reg) (s : State) : Result := s.opReg rd rs1 rs2 fun a b => a &&& b

end Sys2Proof.Machine
end

