-- ==== Sys2Proof/Machine/MulDiv.lean ====
section
/-! DEFINITION. Multiply and divide (`43_muldiv.md` R290 to R300). None of them traps: the corner cases give the
sentinel results of R299. -/

namespace Sys2Proof.Machine

/-- Bits 63:32 of the product of two 64-bit values (R292 to R294). -/
def mulHigh (a b : DWord) : Word := (a * b).extractLsb' 32 32

/-- DIV's result (R295, R299): truncated toward zero, -1 for a zero divisor, the dividend on overflow. -/
def divSigned (a b : Word) : Word :=
  if b = 0 then 0xFFFFFFFF#32
  else if a = 0x80000000#32 ∧ b = 0xFFFFFFFF#32 then 0x80000000#32
  else BitVec.ofInt 32 (a.toInt.tdiv b.toInt)

/-- DIVU's result (R296, R299). -/
def divUnsigned (a b : Word) : Word := if b = 0 then 0xFFFFFFFF#32 else BitVec.ofNat 32 (a.toNat / b.toNat)

/-- REM's result (R297, R299): the sign of the dividend. -/
def remSigned (a b : Word) : Word :=
  if b = 0 then a
  else if a = 0x80000000#32 ∧ b = 0xFFFFFFFF#32 then 0
  else BitVec.ofInt 32 (a.toInt - b.toInt * a.toInt.tdiv b.toInt)

/-- REMU's result (R298, R299). -/
def remUnsigned (a b : Word) : Word := if b = 0 then a else BitVec.ofNat 32 (a.toNat % b.toNat)

/-- MUL (R291). -/
def execMul (rd rs1 rs2 : Reg) (s : State) : Result := s.opReg rd rs1 rs2 fun a b => a * b

/-- MULH (R292): signed by signed. -/
def execMulh (rd rs1 rs2 : Reg) (s : State) : Result :=
  s.opReg rd rs1 rs2 fun a b => mulHigh (a.signExtend 64) (b.signExtend 64)

/-- MULHSU (R293): signed by unsigned. -/
def execMulhsu (rd rs1 rs2 : Reg) (s : State) : Result :=
  s.opReg rd rs1 rs2 fun a b => mulHigh (a.signExtend 64) (b.setWidth 64)

/-- MULHU (R294): unsigned by unsigned. -/
def execMulhu (rd rs1 rs2 : Reg) (s : State) : Result :=
  s.opReg rd rs1 rs2 fun a b => mulHigh (a.setWidth 64) (b.setWidth 64)

/-- DIV (R295). -/
def execDiv (rd rs1 rs2 : Reg) (s : State) : Result := s.opReg rd rs1 rs2 divSigned

/-- DIVU (R296). -/
def execDivu (rd rs1 rs2 : Reg) (s : State) : Result := s.opReg rd rs1 rs2 divUnsigned

/-- REM (R297). -/
def execRem (rd rs1 rs2 : Reg) (s : State) : Result := s.opReg rd rs1 rs2 remSigned

/-- REMU (R298). -/
def execRemu (rd rs1 rs2 : Reg) (s : State) : Result := s.opReg rd rs1 rs2 remUnsigned

end Sys2Proof.Machine
end

