-- ==== Sys2Proof/Machine/BlockDevice.lean ====
section
/-! DEFINITION. The block device (`60_exceptions.md` R450 to R456): seek and transfer. -/

namespace Sys2Proof.Machine

/-- The outcome of the next block-file operation (R470, log 9): `true` is an I/O failure. -/
def State.fileIo (s : State) : Bool × State :=
  let (failed, io) := ioNext s.mem.io
  (failed, { s with mem.io := io })

/-- `BlkSeek(v)` (R451): the offset and the position are set, and the seek's result is latched (log 27). -/
def State.blkSeek (s : State) (v : Word) : State :=
  let (failed, s) := s.fileIo
  { s with blk.off := v, blk.pos := v.setWidth 64, blk.err := if failed then s.cfg.blkErrIo else 0 }

/-- Store bytes as little-endian words at rising addresses (R454, the inner loop of a read). -/
def State.storeWords (s : State) (p : Word) : List Byte → Except Fault State
  | b0 :: b1 :: b2 :: b3 :: rest =>
    match s.memWrite p 4 (leWord [b0, b1, b2, b3]) with
    | .error f => .error f
    | .ok s => s.storeWords (p + 4) rest
  | _ => .ok s

/-- Load `k` little-endian words at rising addresses, as bytes (R454, the inner loop of a write). -/
def State.loadWords (s : State) (p : Word) : Nat → Except Fault (List Byte × State)
  | 0 => .ok ([], s)
  | k + 1 =>
    match s.memRead p 4 with
    | .error f => .error f
    | .ok (v, s) =>
      match s.loadWords (p + 4) k with
      | .error f => .error f
      | .ok (bytes, s) => .ok (leBytes 4 v ++ bytes, s)

/-- One sector of `n` bytes from the device to RAM (R454, d = 0): `none` when `F.read` fails, and nothing of the
sector is written then. -/
def State.sectorRead (s : State) (p : Word) (n : Nat) : Except Fault (Option State) :=
  let (failed, s) := s.fileIo
  if failed then .ok none
  else
    match s.storeWords p (s.blk.file.getN s.blk.pos.toNat n) with
    | .error f => .error f
    | .ok s => .ok (some s)

/-- What a failing `F.write` of `n` bytes at the position leaves. The spec says only that it fails (R452, R454), not which of
the sector's bytes it has written: DESIGN CHOICE (log 32), each byte of the sector is a free value, and the rest of the
file is as before. -/
def State.tearSector (s : State) (n : Nat) : State :=
  { s with
    blk.file := s.blk.file.putN s.blk.pos.toNat ((List.range n).map fun k => Config.tornByte (s.blk.torn + k))
    blk.torn := s.blk.torn + n }

/-- One sector of `n` bytes from RAM to the device (R454, d = 1): the words are read first, then `F.write` may fail, which
leaves the sector torn. The state returned keeps what the reads did to the hierarchy. -/
def State.sectorWrite (s : State) (p : Word) (n : Nat) : Except Fault (Bool × State) :=
  match s.loadWords p (n / 4) with
  | .error f => .error f
  | .ok (bytes, s) =>
    let (failed, s) := s.fileIo
    if failed then .ok (true, s.tearSector n)
    else .ok (false, { s with blk.file := s.blk.file.putN s.blk.pos.toNat bytes })

/-- Advance the device position past a moved sector (R454). -/
def State.advancePos (s : State) (n : Nat) : State :=
  { s with blk.pos := s.blk.pos + BitVec.ofNat 64 n }

/-- The loop of `BlkTransfer(0)` (R454): sectors until nothing remains or an I/O failure; it returns whether one
failed. `fuel` bounds the sectors. -/
def State.readLoop (s : State) (p : Word) (rem : Nat) : Nat → Except Fault (Bool × State)
  | 0 => .ok (false, s)
  | fuel + 1 =>
    if rem = 0 then .ok (false, s)
    else
      let n := min s.cfg.sectorSize rem
      match s.sectorRead p n with
      | .error f => .error f
      | .ok none => .ok (true, s.fileIo.2)
      | .ok (some s) => (s.advancePos n).readLoop (p + BitVec.ofNat 32 n) (rem - n) fuel

/-- The loop of `BlkTransfer(1)` (R454), as `readLoop`. -/
def State.writeLoop (s : State) (p : Word) (rem : Nat) : Nat → Except Fault (Bool × State)
  | 0 => .ok (false, s)
  | fuel + 1 =>
    if rem = 0 then .ok (false, s)
    else
      let n := min s.cfg.sectorSize rem
      match s.sectorWrite p n with
      | .error f => .error f
      | .ok (true, s) => .ok (true, s)
      | .ok (false, s) => (s.advancePos n).writeLoop (p + BitVec.ofNat 32 n) (rem - n) fuel

/-- The sectors of a transfer, rounded up: the bound of the loops (R454). -/
def State.sectors (s : State) : Nat := s.blk.len.toNat / s.cfg.sectorSize + 1

/-- The range checks of a transfer, in the order of R454: the refusal that applies, if any. -/
def State.blkRefusal (s : State) (d : Word) : Option Refusal :=
  if d ≠ 0 ∧ d ≠ 1 then some .blkDirection
  else if s.blk.ptr.toNat % 4 ≠ 0 ∨ s.blk.len.toNat % 4 ≠ 0 then some .blkAlign
  else if 0 < s.blk.len.toNat ∧
      ¬ (inRamData s.cfg s.blk.ptr ∧ (ofs s.cfg s.blk.ptr).toNat + s.blk.len.toNat ≤ s.cfg.ramSize) then
    some .blkRamRange
  else if s.cfg.blkDevSize < s.blk.pos.toNat + s.blk.len.toNat then some .blkDevRange
  else none

/-- `BlkTransfer(d)` (R454): refused, or the sectors moved in order and the result latched (R455). -/
def State.blkTransfer (s : State) (d : Word) : Except Stop State :=
  match s.blkRefusal d with
  | some r => .error (.refused r)
  | none =>
    match (if d = 0 then s.readLoop s.blk.ptr s.blk.len.toNat s.sectors
      else s.writeLoop s.blk.ptr s.blk.len.toNat s.sectors) with
    | .error f => .error (.fault f)
    | .ok (failed, s) => .ok { s with blk.err := if failed then s.cfg.blkErrIo else 0 }

end Sys2Proof.Machine
end

