-- ==== Sys2Proof/Machine/Csr.lean ====
section
/-! DEFINITION. The CSR accessors (`45_system.md` R340, R341) and the sequence common to the six CSR instructions
(R342). -/

namespace Sys2Proof.Machine

/-- `CsrRead(n)` (R340). Only CSR_CONSOLE_IN has a read side effect. -/
def State.csrRead (s : State) (n : CsrNum) : Word × State :=
  if n = 0x300#12 then (s.csr.mstatus, s)
  else if n = 0x301#12 then (s.cfg.misa, s)
  else if n = 0x304#12 then (s.csr.mie, s)
  else if n = 0x305#12 then (s.csr.mtvec, s)
  else if n = 0x340#12 then (s.csr.mscratch, s)
  else if n = 0x341#12 then (s.csr.mepc, s)
  else if n = 0x342#12 then (s.csr.mcause, s)
  else if n = 0x343#12 then (s.csr.mtval, s)
  else if n = 0x344#12 then (s.csr.mip, s)
  else if n = 0xC00#12 then (s.call.cyc.setWidth 32, s)  -- the running count (log 22)
  else if n = 0xF11#12 then (s.cfg.mvendorid, s)
  else if n = s.cfg.csrConsoleIn then s.takeKey
  else if n = s.cfg.csrBlkSize then (BitVec.ofNat 32 s.cfg.blkDevSize, s)
  else if n = s.cfg.csrBlkErr then (s.blk.err, s)
  else (0, s)

/-- `CsrWrite(n, v)` (R341). No value is masked (R66); an unlisted or read-only number ignores the write. -/
def State.csrWrite (s : State) (n : CsrNum) (v : Word) : Except Stop State :=
  if n = 0x300#12 then .ok { s with csr.mstatus := v }
  else if n = 0x304#12 then .ok { s with csr.mie := v }
  else if n = 0x305#12 then .ok { s with csr.mtvec := v }
  else if n = 0x340#12 then .ok { s with csr.mscratch := v }
  else if n = 0x341#12 then .ok { s with csr.mepc := v }
  else if n = 0x342#12 then .ok { s with csr.mcause := v }
  else if n = 0x343#12 then .ok { s with csr.mtval := v }
  else if n = 0x344#12 then .ok { s with csr.mip := v }
  else if n = 0x301#12 ∨ n = 0xC00#12 ∨ n = 0xF11#12 then .ok s
  else if n = s.cfg.csrConsoleOut then .ok (s.offer (v.setWidth 8))
  else if n = s.cfg.csrBlkPtr then .ok { s with blk.ptr := v }
  else if n = s.cfg.csrBlkOff then .ok (s.blkSeek v)
  else if n = s.cfg.csrBlkLen then .ok { s with blk.len := v }
  else if n = s.cfg.csrBlkGo then s.blkTransfer v
  else .ok s

/-- The sequence of R342: read, always; write what `f` makes of the old value, always; then rd gets the old
value. A storage failure or a refusal of CSR_BLK_GO stops it. -/
def State.csrOp (s : State) (rd : Reg) (n : CsrNum) (f : Word → Word) : Result :=
  let (old, t) := s.csrRead n
  match t.csrWrite n (f old) with
  | .error e => e.toResult
  | .ok t => .next (t.finish rd old)

end Sys2Proof.Machine
end

