-- ==== Sys2Proof/Machine/System.lean ====
section
/-! DEFINITION. System instructions (`45_system.md` R344 to R366). PRIV restricts none of them (`10_state.md` R65,
`60_exceptions.md` R414): it only selects ECALL's cause. -/

namespace Sys2Proof.Machine

/-- FENCE (R344, R345): every access is already ordered, so pc + 4 and nothing else. -/
def execFence (_fm _pred _succ : BitVec 4) (_rs1 _rd : Reg) (s : State) : Result := .next s.advance

/-- FENCE.I (R346): fetches already see every earlier store, so pc + 4 and nothing else. -/
def execFenceI (_imm : BitVec 12) (_rs1 _rd : Reg) (s : State) : Result := .next s.advance

/-- ECALL (R351): cause 8 if PRIV is 0, else 11; mtval is the pc. -/
def execEcall (s : State) : Result := .next (s.raiseTrap (if s.ef.priv = 0#2 then 8 else 11) s.pc)

/-- EBREAK (R352): cause 3; mtval is the pc. -/
def execEbreak (s : State) : Result := .next (s.raiseTrap 3 s.pc)

/-- MRET and its aliases (R355, R356). -/
def execMret (s : State) : Result := .next s.trapReturn

/-- WFI (R357): MIE and ef.WFI are set, pc goes on, and the call ends with outcome 1, its count not stored. -/
def execWfi (s : State) : Result :=
  .next ({ s with csr.mstatus := s.csr.mstatus ||| 0x8#32, ef.wfi := true }.advance.endCall 1)

/-- CSRRW (R361). -/
def execCsrrw (rd rs1 : Reg) (csr : CsrNum) (s : State) : Result := s.csrOp rd csr fun _ => s.readReg rs1

/-- CSRRS (R362). -/
def execCsrrs (rd rs1 : Reg) (csr : CsrNum) (s : State) : Result := s.csrOp rd csr fun old => old ||| s.readReg rs1

/-- CSRRC (R363). -/
def execCsrrc (rd rs1 : Reg) (csr : CsrNum) (s : State) : Result :=
  s.csrOp rd csr fun old => old &&& ~~~s.readReg rs1

/-- CSRRWI (R364). -/
def execCsrrwi (rd : Reg) (uimm : BitVec 5) (csr : CsrNum) (s : State) : Result :=
  s.csrOp rd csr fun _ => uimmZext uimm

/-- CSRRSI (R365). -/
def execCsrrsi (rd : Reg) (uimm : BitVec 5) (csr : CsrNum) (s : State) : Result :=
  s.csrOp rd csr fun old => old ||| uimmZext uimm

/-- CSRRCI (R366). -/
def execCsrrci (rd : Reg) (uimm : BitVec 5) (csr : CsrNum) (s : State) : Result :=
  s.csrOp rd csr fun old => old &&& ~~~uimmZext uimm

end Sys2Proof.Machine
end

