-- ==== Sys2Proof/WellFormed.lean ====
section
/-! DEFINITION. When a term of `Instr` is an instruction the encoding can hold: a branch or jump offset is even
(`30_encoding.md` R183, R192: "label - pc, even"). Every other field's range is its type. -/

namespace Sys2Proof

/-- Bit 0 of a branch or jump offset is 0 (R183: the built-in zero bit). -/
def evenOffset {w : Nat} (off : BitVec w) : Bool := !off.getLsbD 0

/-- An instruction whose fields the encoding can hold. -/
def Instr.WellFormed : Instr → Bool
  | .jal _ off => evenOffset off
  | .beq _ _ off => evenOffset off
  | .bne _ _ off => evenOffset off
  | .blt _ _ off => evenOffset off
  | .bge _ _ off => evenOffset off
  | .bltu _ _ off => evenOffset off
  | .bgeu _ _ off => evenOffset off
  | .lui _ _ | .auipc _ _ | .jalr _ _ _
  | .lb _ _ _ | .lh _ _ _ | .lw _ _ _ | .lbu _ _ _ | .lhu _ _ _
  | .sb _ _ _ | .sh _ _ _ | .sw _ _ _
  | .addi _ _ _ | .slti _ _ _ | .sltiu _ _ _ | .xori _ _ _ | .ori _ _ _ | .andi _ _ _
  | .slli _ _ _ | .srli _ _ _ | .srai _ _ _
  | .add _ _ _ | .sub _ _ _ | .sll _ _ _ | .slt _ _ _ | .sltu _ _ _
  | .xor _ _ _ | .srl _ _ _ | .sra _ _ _ | .or _ _ _ | .and _ _ _
  | .fence _ _ _ _ _ | .fenceI _ _ _
  | .ecall | .ebreak | .mret | .wfi
  | .csrrw _ _ _ | .csrrs _ _ _ | .csrrc _ _ _ | .csrrwi _ _ _ | .csrrsi _ _ _ | .csrrci _ _ _
  | .mul _ _ _ | .mulh _ _ _ | .mulhsu _ _ _ | .mulhu _ _ _
  | .div _ _ _ | .divu _ _ _ | .rem _ _ _ | .remu _ _ _
  | .lrW _ _ _ _ | .scW _ _ _ _ _
  | .amoswapW _ _ _ _ _ | .amoaddW _ _ _ _ _ | .amoxorW _ _ _ _ _ | .amoandW _ _ _ _ _ | .amoorW _ _ _ _ _
  | .amominW _ _ _ _ _ | .amomaxW _ _ _ _ _ | .amominuW _ _ _ _ _ | .amomaxuW _ _ _ _ _ => true

end Sys2Proof
end

