-- ==== Sys2Proof/Decode.lean ====
section
/-! DEFINITION. The decoder, total on words and bytes (`30_encoding.md` R180 to R191, `45_system.md` R347), and
after it the encoder, written from the standard encodings of R181 and `opcode_table.json`. The decoder accepts
the wide set of R187 and drops the fields it does not examine (log 21); every other word is rejected by name. -/

namespace Sys2Proof

/-- Why a word is no instruction of the table (R188). The three rejections that carry operands are not simply
illegal: what they raise depends on the address they form (R188 items 3, 4, 7; log 25). -/
inductive Reject where
  /-- R188 item 1: no such major opcode. -/
  | majorOpcode (op : BitVec 7)
  /-- R188 item 2, R252. -/
  | branchFunct3 (f3 : BitVec 3)
  /-- R188 item 3, R271: LOAD with funct3 3, 6 or 7. -/
  | loadWidth (f3 : BitVec 3) (rd rs1 : Reg) (imm : BitVec 12)
  /-- R188 item 4, R271: STORE with funct3 3 to 7. -/
  | storeWidth (f3 : BitVec 3) (rs1 : Reg) (imm : BitVec 12)
  /-- R188 item 5, R359: SYSTEM with funct3 4. -/
  | systemFunct3
  /-- R188 item 6, R360. -/
  | systemFunct12 (f12 : BitVec 12)
  /-- R188 item 7, R322: AMO with an unassigned funct5. -/
  | amoFunct5 (f5 : BitVec 5) (rs1 : Reg)
  /-- Fewer than the 4 bytes of R180 were given. -/
  | truncated
deriving DecidableEq, Repr

/-! ### Fields (R182) -/

/-- A 5-bit register field as a register number (R182). -/
def regOf (b : BitVec 5) : Reg := b.toFin

/-- A register number as its 5-bit field (R182). -/
def regBits (r : Reg) : BitVec 5 := BitVec.ofFin r

/-- `opcode = ir[6:0]`. -/
def fOpcode (ir : Word) : BitVec 7 := ir.extractLsb' 0 7
/-- `rd = ir[11:7]`. -/
def fRd (ir : Word) : Reg := regOf (ir.extractLsb' 7 5)
/-- `funct3 = ir[14:12]`. -/
def fFunct3 (ir : Word) : BitVec 3 := ir.extractLsb' 12 3
/-- `rs1 = ir[19:15]`. -/
def fRs1 (ir : Word) : Reg := regOf (ir.extractLsb' 15 5)
/-- `rs2 = ir[24:20]`. -/
def fRs2 (ir : Word) : Reg := regOf (ir.extractLsb' 20 5)
/-- `funct5 = ir[31:27]`. -/
def fFunct5 (ir : Word) : BitVec 5 := ir.extractLsb' 27 5
/-- `aq = ir[26]`. -/
def fAq (ir : Word) : Bool := ir.getLsbD 26
/-- `rl = ir[25]`. -/
def fRl (ir : Word) : Bool := ir.getLsbD 25
/-- `csr = ir[31:20]`, also the f12 of R347. -/
def fCsr (ir : Word) : BitVec 12 := ir.extractLsb' 20 12
/-- `uimm = ir[19:15]`. -/
def fUimm (ir : Word) : BitVec 5 := ir.extractLsb' 15 5
/-- `shamt = ir[24:20]` (R184). -/
def fShamt (ir : Word) : BitVec 5 := ir.extractLsb' 20 5

/-! ### Immediates (R183), before sign extension -/

/-- The bits of imm_I. -/
def fImmI (ir : Word) : BitVec 12 := ir.extractLsb' 20 12
/-- The bits of imm_S. -/
def fImmS (ir : Word) : BitVec 12 := ir.extractLsb' 25 7 ++ ir.extractLsb' 7 5
/-- The bits of imm_B, its bit 0 built in. -/
def fImmB (ir : Word) : BitVec 13 :=
  ir.extractLsb' 31 1 ++ ir.extractLsb' 7 1 ++ ir.extractLsb' 25 6 ++ ir.extractLsb' 8 4 ++ 0#1
/-- `ir[31:12]`, the bits imm_U places at 31:12. -/
def fImmU (ir : Word) : BitVec 20 := ir.extractLsb' 12 20
/-- The bits of imm_J, its bit 0 built in. -/
def fImmJ (ir : Word) : BitVec 21 :=
  ir.extractLsb' 31 1 ++ ir.extractLsb' 12 8 ++ ir.extractLsb' 20 1 ++ ir.extractLsb' 21 10 ++ 0#1

/-! ### The decode tree (R187) -/

/-- BRANCH (R187; R246 to R252). -/
def decodeBranch (ir : Word) : Except Reject Instr :=
  match fFunct3 ir with
  | 0#3 => .ok (.beq (fRs1 ir) (fRs2 ir) (fImmB ir))
  | 1#3 => .ok (.bne (fRs1 ir) (fRs2 ir) (fImmB ir))
  | 4#3 => .ok (.blt (fRs1 ir) (fRs2 ir) (fImmB ir))
  | 5#3 => .ok (.bge (fRs1 ir) (fRs2 ir) (fImmB ir))
  | 6#3 => .ok (.bltu (fRs1 ir) (fRs2 ir) (fImmB ir))
  | 7#3 => .ok (.bgeu (fRs1 ir) (fRs2 ir) (fImmB ir))
  | f3 => .error (.branchFunct3 f3)

/-- LOAD (R187; R262 to R266, R271). -/
def decodeLoad (ir : Word) : Except Reject Instr :=
  match fFunct3 ir with
  | 0#3 => .ok (.lb (fRd ir) (fRs1 ir) (fImmI ir))
  | 1#3 => .ok (.lh (fRd ir) (fRs1 ir) (fImmI ir))
  | 2#3 => .ok (.lw (fRd ir) (fRs1 ir) (fImmI ir))
  | 4#3 => .ok (.lbu (fRd ir) (fRs1 ir) (fImmI ir))
  | 5#3 => .ok (.lhu (fRd ir) (fRs1 ir) (fImmI ir))
  | f3 => .error (.loadWidth f3 (fRd ir) (fRs1 ir) (fImmI ir))

/-- STORE (R187; R268 to R271). -/
def decodeStore (ir : Word) : Except Reject Instr :=
  match fFunct3 ir with
  | 0#3 => .ok (.sb (fRs1 ir) (fRs2 ir) (fImmS ir))
  | 1#3 => .ok (.sh (fRs1 ir) (fRs2 ir) (fImmS ir))
  | 2#3 => .ok (.sw (fRs1 ir) (fRs2 ir) (fImmS ir))
  | f3 => .error (.storeWidth f3 (fRs1 ir) (fImmS ir))

/-- OP-IMM (R187, R202): every word is one of the nine. SLLI ignores ir[31:25]; SRLI and SRAI differ in ir[30]. -/
def decodeOpImm (ir : Word) : Instr :=
  match fFunct3 ir with
  | 0#3 => .addi (fRd ir) (fRs1 ir) (fImmI ir)
  | 1#3 => .slli (fRd ir) (fRs1 ir) (fShamt ir)
  | 2#3 => .slti (fRd ir) (fRs1 ir) (fImmI ir)
  | 3#3 => .sltiu (fRd ir) (fRs1 ir) (fImmI ir)
  | 4#3 => .xori (fRd ir) (fRs1 ir) (fImmI ir)
  | 5#3 => if ir.getLsbD 30 then .srai (fRd ir) (fRs1 ir) (fShamt ir) else .srli (fRd ir) (fRs1 ir) (fShamt ir)
  | 6#3 => .ori (fRd ir) (fRs1 ir) (fImmI ir)
  | _ => .andi (fRd ir) (fRs1 ir) (fImmI ir)

/-- OP with ir[25] = 1 (R290): every word is one of the eight M instructions. -/
def decodeMulDiv (ir : Word) : Instr :=
  match fFunct3 ir with
  | 0#3 => .mul (fRd ir) (fRs1 ir) (fRs2 ir)
  | 1#3 => .mulh (fRd ir) (fRs1 ir) (fRs2 ir)
  | 2#3 => .mulhsu (fRd ir) (fRs1 ir) (fRs2 ir)
  | 3#3 => .mulhu (fRd ir) (fRs1 ir) (fRs2 ir)
  | 4#3 => .div (fRd ir) (fRs1 ir) (fRs2 ir)
  | 5#3 => .divu (fRd ir) (fRs1 ir) (fRs2 ir)
  | 6#3 => .rem (fRd ir) (fRs1 ir) (fRs2 ir)
  | _ => .remu (fRd ir) (fRs1 ir) (fRs2 ir)

/-- OP with ir[25] = 0 (R212): ir[30] distinguishes ADD from SUB and SRL from SRA, and no other funct7 bit counts. -/
def decodeOp (ir : Word) : Instr :=
  match fFunct3 ir with
  | 0#3 => if ir.getLsbD 30 then .sub (fRd ir) (fRs1 ir) (fRs2 ir) else .add (fRd ir) (fRs1 ir) (fRs2 ir)
  | 1#3 => .sll (fRd ir) (fRs1 ir) (fRs2 ir)
  | 2#3 => .slt (fRd ir) (fRs1 ir) (fRs2 ir)
  | 3#3 => .sltu (fRd ir) (fRs1 ir) (fRs2 ir)
  | 4#3 => .xor (fRd ir) (fRs1 ir) (fRs2 ir)
  | 5#3 => if ir.getLsbD 30 then .sra (fRd ir) (fRs1 ir) (fRs2 ir) else .srl (fRd ir) (fRs1 ir) (fRs2 ir)
  | 6#3 => .or (fRd ir) (fRs1 ir) (fRs2 ir)
  | _ => .and (fRd ir) (fRs1 ir) (fRs2 ir)

/-- MISC-MEM (R344): every word is a no-op. funct3 1 is FENCE.I, every other funct3 reads as FENCE (log 21). -/
def decodeMiscMem (ir : Word) : Instr :=
  match fFunct3 ir with
  | 1#3 => .fenceI (fImmI ir) (fRs1 ir) (fRd ir)
  | _ => .fence (ir.extractLsb' 28 4) (ir.extractLsb' 24 4) (ir.extractLsb' 20 4) (fRs1 ir) (fRd ir)

/-- SYSTEM with funct3 = 0, in the order of R347; rd and rs1 are not examined. -/
def decodePriv (ir : Word) : Except Reject Instr :=
  if (fCsr ir).extractLsb' 0 8 = 0x02#8 then .ok .mret
  else if fCsr ir = 0x000#12 then .ok .ecall
  else if fCsr ir = 0x001#12 then .ok .ebreak
  else if fCsr ir = 0x105#12 then .ok .wfi
  else .error (.systemFunct12 (fCsr ir))

/-- SYSTEM (R187; R347, R359, R361 to R366). -/
def decodeSystem (ir : Word) : Except Reject Instr :=
  match fFunct3 ir with
  | 0#3 => decodePriv ir
  | 1#3 => .ok (.csrrw (fRd ir) (fRs1 ir) (fCsr ir))
  | 2#3 => .ok (.csrrs (fRd ir) (fRs1 ir) (fCsr ir))
  | 3#3 => .ok (.csrrc (fRd ir) (fRs1 ir) (fCsr ir))
  | 5#3 => .ok (.csrrwi (fRd ir) (fUimm ir) (fCsr ir))
  | 6#3 => .ok (.csrrsi (fRd ir) (fUimm ir) (fCsr ir))
  | 7#3 => .ok (.csrrci (fRd ir) (fUimm ir) (fCsr ir))
  | _ => .error .systemFunct3

/-- AMO (R187, R325): funct3, aq and rl select nothing, and LR.W ignores rs2. -/
def decodeAmo (ir : Word) : Except Reject Instr :=
  match fFunct5 ir with
  | 0#5 => .ok (.amoaddW (fAq ir) (fRl ir) (fRd ir) (fRs1 ir) (fRs2 ir))
  | 1#5 => .ok (.amoswapW (fAq ir) (fRl ir) (fRd ir) (fRs1 ir) (fRs2 ir))
  | 2#5 => .ok (.lrW (fAq ir) (fRl ir) (fRd ir) (fRs1 ir))
  | 3#5 => .ok (.scW (fAq ir) (fRl ir) (fRd ir) (fRs1 ir) (fRs2 ir))
  | 4#5 => .ok (.amoxorW (fAq ir) (fRl ir) (fRd ir) (fRs1 ir) (fRs2 ir))
  | 8#5 => .ok (.amoorW (fAq ir) (fRl ir) (fRd ir) (fRs1 ir) (fRs2 ir))
  | 12#5 => .ok (.amoandW (fAq ir) (fRl ir) (fRd ir) (fRs1 ir) (fRs2 ir))
  | 16#5 => .ok (.amominW (fAq ir) (fRl ir) (fRd ir) (fRs1 ir) (fRs2 ir))
  | 20#5 => .ok (.amomaxW (fAq ir) (fRl ir) (fRd ir) (fRs1 ir) (fRs2 ir))
  | 24#5 => .ok (.amominuW (fAq ir) (fRl ir) (fRd ir) (fRs1 ir) (fRs2 ir))
  | 28#5 => .ok (.amomaxuW (fAq ir) (fRl ir) (fRd ir) (fRs1 ir) (fRs2 ir))
  | f5 => .error (.amoFunct5 f5 (fRs1 ir))

/-- Decoding a 32-bit word by its major opcode (R186). -/
def decodeWord (ir : Word) : Except Reject Instr :=
  match fOpcode ir with
  | 0x37#7 => .ok (.lui (fRd ir) (fImmU ir))
  | 0x17#7 => .ok (.auipc (fRd ir) (fImmU ir))
  | 0x6F#7 => .ok (.jal (fRd ir) (fImmJ ir))
  | 0x67#7 => .ok (.jalr (fRd ir) (fRs1 ir) (fImmI ir))
  | 0x63#7 => decodeBranch ir
  | 0x03#7 => decodeLoad ir
  | 0x23#7 => decodeStore ir
  | 0x13#7 => .ok (decodeOpImm ir)
  | 0x33#7 => .ok (if ir.getLsbD 25 then decodeMulDiv ir else decodeOp ir)
  | 0x0F#7 => .ok (decodeMiscMem ir)
  | 0x73#7 => decodeSystem ir
  | 0x2F#7 => decodeAmo ir
  | op => .error (.majorOpcode op)

/-- Decoding bytes at rising addresses (R180: 4 little-endian bytes), with the bytes left over. -/
def decodeBytes : List Byte → Except Reject (Instr × List Byte)
  | b0 :: b1 :: b2 :: b3 :: rest =>
    match decodeWord (Machine.leWord [b0, b1, b2, b3]) with
    | .ok i => .ok (i, rest)
    | .error r => .error r
  | _ => .error .truncated

/-- The instruction the decoder reads from an opcode-table word. Every row is one 32-bit word (R180), laid out as
its 4 little-endian bytes (R113). -/
def decodeTableWord (_nbits w : Nat) : Option Instr :=
  match decodeBytes (Machine.leBytes 4 (BitVec.ofNat 32 w)) with
  | .ok (i, _) => some i
  | .error _ => none

/-! ### The encoder (R181: the standard formats) -/

/-- R-type. -/
def encR (f7 : BitVec 7) (rs2 rs1 : Reg) (f3 : BitVec 3) (rd : Reg) (op : BitVec 7) : Word :=
  f7 ++ regBits rs2 ++ regBits rs1 ++ f3 ++ regBits rd ++ op

/-- I-type. -/
def encI (imm : BitVec 12) (rs1 : Reg) (f3 : BitVec 3) (rd : Reg) (op : BitVec 7) : Word :=
  imm ++ regBits rs1 ++ f3 ++ regBits rd ++ op

/-- I-shift. -/
def encShift (f7 : BitVec 7) (shamt : BitVec 5) (rs1 : Reg) (f3 : BitVec 3) (rd : Reg) (op : BitVec 7) : Word :=
  f7 ++ shamt ++ regBits rs1 ++ f3 ++ regBits rd ++ op

/-- I-csr with the 5-bit immediate in the rs1 place. -/
def encCsrI (csr : CsrNum) (uimm : BitVec 5) (f3 : BitVec 3) (rd : Reg) (op : BitVec 7) : Word :=
  csr ++ uimm ++ f3 ++ regBits rd ++ op

/-- S-type. -/
def encS (imm : BitVec 12) (rs2 rs1 : Reg) (f3 : BitVec 3) (op : BitVec 7) : Word :=
  imm.extractLsb' 5 7 ++ regBits rs2 ++ regBits rs1 ++ f3 ++ imm.extractLsb' 0 5 ++ op

/-- B-type. -/
def encB (off : BitVec 13) (rs2 rs1 : Reg) (f3 : BitVec 3) (op : BitVec 7) : Word :=
  off.extractLsb' 12 1 ++ off.extractLsb' 5 6 ++ regBits rs2 ++ regBits rs1 ++ f3
    ++ off.extractLsb' 1 4 ++ off.extractLsb' 11 1 ++ op

/-- U-type. -/
def encU (imm : BitVec 20) (rd : Reg) (op : BitVec 7) : Word :=
  imm ++ regBits rd ++ op

/-- J-type. -/
def encJ (off : BitVec 21) (rd : Reg) (op : BitVec 7) : Word :=
  off.extractLsb' 20 1 ++ off.extractLsb' 1 10 ++ off.extractLsb' 11 1 ++ off.extractLsb' 12 8 ++ regBits rd ++ op

/-- R-amo, with the standard funct3 = 010 (R325). -/
def encAmo (f5 : BitVec 5) (aq rl : Bool) (rs2 rs1 : Reg) (rd : Reg) : Word :=
  f5 ++ BitVec.ofBool aq ++ BitVec.ofBool rl ++ regBits rs2 ++ regBits rs1 ++ 2#3 ++ regBits rd ++ 0x2F#7

/-- FENCE: fm, pred, succ in ir[31:20] (`45_system.md` R345). -/
def encFence (fm pred succ : BitVec 4) (rs1 rd : Reg) : Word :=
  fm ++ pred ++ succ ++ regBits rs1 ++ 0#3 ++ regBits rd ++ 0x0F#7

/-- The word of an instruction in its standard encoding (`opcode_table.json`, match and mask). -/
def encode : Instr → Word
  | .lui rd imm => encU imm rd 0x37#7
  | .auipc rd imm => encU imm rd 0x17#7
  | .jal rd off => encJ off rd 0x6F#7
  | .jalr rd rs1 imm => encI imm rs1 0#3 rd 0x67#7
  | .beq rs1 rs2 off => encB off rs2 rs1 0#3 0x63#7
  | .bne rs1 rs2 off => encB off rs2 rs1 1#3 0x63#7
  | .blt rs1 rs2 off => encB off rs2 rs1 4#3 0x63#7
  | .bge rs1 rs2 off => encB off rs2 rs1 5#3 0x63#7
  | .bltu rs1 rs2 off => encB off rs2 rs1 6#3 0x63#7
  | .bgeu rs1 rs2 off => encB off rs2 rs1 7#3 0x63#7
  | .lb rd rs1 imm => encI imm rs1 0#3 rd 0x03#7
  | .lh rd rs1 imm => encI imm rs1 1#3 rd 0x03#7
  | .lw rd rs1 imm => encI imm rs1 2#3 rd 0x03#7
  | .lbu rd rs1 imm => encI imm rs1 4#3 rd 0x03#7
  | .lhu rd rs1 imm => encI imm rs1 5#3 rd 0x03#7
  | .sb rs1 rs2 imm => encS imm rs2 rs1 0#3 0x23#7
  | .sh rs1 rs2 imm => encS imm rs2 rs1 1#3 0x23#7
  | .sw rs1 rs2 imm => encS imm rs2 rs1 2#3 0x23#7
  | .addi rd rs1 imm => encI imm rs1 0#3 rd 0x13#7
  | .slti rd rs1 imm => encI imm rs1 2#3 rd 0x13#7
  | .sltiu rd rs1 imm => encI imm rs1 3#3 rd 0x13#7
  | .xori rd rs1 imm => encI imm rs1 4#3 rd 0x13#7
  | .ori rd rs1 imm => encI imm rs1 6#3 rd 0x13#7
  | .andi rd rs1 imm => encI imm rs1 7#3 rd 0x13#7
  | .slli rd rs1 shamt => encShift 0x00#7 shamt rs1 1#3 rd 0x13#7
  | .srli rd rs1 shamt => encShift 0x00#7 shamt rs1 5#3 rd 0x13#7
  | .srai rd rs1 shamt => encShift 0x20#7 shamt rs1 5#3 rd 0x13#7
  | .add rd rs1 rs2 => encR 0x00#7 rs2 rs1 0#3 rd 0x33#7
  | .sub rd rs1 rs2 => encR 0x20#7 rs2 rs1 0#3 rd 0x33#7
  | .sll rd rs1 rs2 => encR 0x00#7 rs2 rs1 1#3 rd 0x33#7
  | .slt rd rs1 rs2 => encR 0x00#7 rs2 rs1 2#3 rd 0x33#7
  | .sltu rd rs1 rs2 => encR 0x00#7 rs2 rs1 3#3 rd 0x33#7
  | .xor rd rs1 rs2 => encR 0x00#7 rs2 rs1 4#3 rd 0x33#7
  | .srl rd rs1 rs2 => encR 0x00#7 rs2 rs1 5#3 rd 0x33#7
  | .sra rd rs1 rs2 => encR 0x20#7 rs2 rs1 5#3 rd 0x33#7
  | .or rd rs1 rs2 => encR 0x00#7 rs2 rs1 6#3 rd 0x33#7
  | .and rd rs1 rs2 => encR 0x00#7 rs2 rs1 7#3 rd 0x33#7
  | .fence fm pred succ rs1 rd => encFence fm pred succ rs1 rd
  | .fenceI imm rs1 rd => encI imm rs1 1#3 rd 0x0F#7
  | .ecall => 0x00000073#32
  | .ebreak => 0x00100073#32
  | .mret => 0x30200073#32
  | .wfi => 0x10500073#32
  | .csrrw rd rs1 csr => encI csr rs1 1#3 rd 0x73#7
  | .csrrs rd rs1 csr => encI csr rs1 2#3 rd 0x73#7
  | .csrrc rd rs1 csr => encI csr rs1 3#3 rd 0x73#7
  | .csrrwi rd uimm csr => encCsrI csr uimm 5#3 rd 0x73#7
  | .csrrsi rd uimm csr => encCsrI csr uimm 6#3 rd 0x73#7
  | .csrrci rd uimm csr => encCsrI csr uimm 7#3 rd 0x73#7
  | .mul rd rs1 rs2 => encR 0x01#7 rs2 rs1 0#3 rd 0x33#7
  | .mulh rd rs1 rs2 => encR 0x01#7 rs2 rs1 1#3 rd 0x33#7
  | .mulhsu rd rs1 rs2 => encR 0x01#7 rs2 rs1 2#3 rd 0x33#7
  | .mulhu rd rs1 rs2 => encR 0x01#7 rs2 rs1 3#3 rd 0x33#7
  | .div rd rs1 rs2 => encR 0x01#7 rs2 rs1 4#3 rd 0x33#7
  | .divu rd rs1 rs2 => encR 0x01#7 rs2 rs1 5#3 rd 0x33#7
  | .rem rd rs1 rs2 => encR 0x01#7 rs2 rs1 6#3 rd 0x33#7
  | .remu rd rs1 rs2 => encR 0x01#7 rs2 rs1 7#3 rd 0x33#7
  | .lrW aq rl rd rs1 => encAmo 0x02#5 aq rl 0 rs1 rd
  | .scW aq rl rd rs1 rs2 => encAmo 0x03#5 aq rl rs2 rs1 rd
  | .amoswapW aq rl rd rs1 rs2 => encAmo 0x01#5 aq rl rs2 rs1 rd
  | .amoaddW aq rl rd rs1 rs2 => encAmo 0x00#5 aq rl rs2 rs1 rd
  | .amoxorW aq rl rd rs1 rs2 => encAmo 0x04#5 aq rl rs2 rs1 rd
  | .amoandW aq rl rd rs1 rs2 => encAmo 0x0C#5 aq rl rs2 rs1 rd
  | .amoorW aq rl rd rs1 rs2 => encAmo 0x08#5 aq rl rs2 rs1 rd
  | .amominW aq rl rd rs1 rs2 => encAmo 0x10#5 aq rl rs2 rs1 rd
  | .amomaxW aq rl rd rs1 rs2 => encAmo 0x14#5 aq rl rs2 rs1 rd
  | .amominuW aq rl rd rs1 rs2 => encAmo 0x18#5 aq rl rs2 rs1 rd
  | .amomaxuW aq rl rd rs1 rs2 => encAmo 0x1C#5 aq rl rs2 rs1 rd

/-- The bytes of an instruction in memory order (R180, R113). -/
def encodeBytes (i : Instr) : List Byte := Machine.leBytes 4 (encode i)

end Sys2Proof
end

