-- ==== Sys2Proof/Machine/Illegal.lean ====
section
/-! DEFINITION. What a word that is no instruction of the table does (`30_encoding.md` R188, `42_loadstore.md`
R271, `44_atomic.md` R322, `45_system.md` R359, R360, `41_control.md` R252). -/

namespace Sys2Proof.Machine

/-- The illegal-instruction exception: cause 2, mtval the pc (R188, R407, R409). -/
def State.illegal (s : State) : Result := .next (s.raiseTrap 2 s.pc)

/-- LOAD with a reserved funct3 (R271): the address class is decided first. At an MMIO address it is refused whatever
MMIO_LOAD_EXTEND (D10, U2; log 24). -/
def State.reservedLoad (s : State) (rs1 : Reg) (imm : BitVec 12) : Result :=
  let a := s.ea rs1 imm
  match classify s.cfg a with
  | .unpopulated => .next (s.raiseTrap 5 a)
  | .mmio => .refused .mmioLoadWidth
  | .ram => s.illegal

/-- STORE with a reserved funct3 (R271): the address class is decided first. -/
def State.reservedStore (s : State) (rs1 : Reg) (imm : BitVec 12) : Result :=
  let a := s.ea rs1 imm
  match classify s.cfg a with
  | .unpopulated => .next (s.raiseTrap 7 a)
  | .mmio => .refused .mmioStoreWidth
  | .ram => s.illegal

/-- AMO with an unassigned funct5 (R322): the address check and the read come first, then cause 2. -/
def State.unassignedAmo (s : State) (rs1 : Reg) : Result := s.atomic rs1 fun _ t => t.illegal

/-- What each rejection of the decoder does. -/
def execRejected (r : Reject) (s : State) : Result :=
  match r with
  | .majorOpcode _ => s.illegal
  | .branchFunct3 _ => s.illegal
  | .loadWidth _ _ rs1 imm => s.reservedLoad rs1 imm
  | .storeWidth _ rs1 imm => s.reservedStore rs1 imm
  | .systemFunct3 => s.illegal
  | .systemFunct12 _ => s.illegal
  | .amoFunct5 _ rs1 => s.unassignedAmo rs1
  | .truncated => s.illegal

end Sys2Proof.Machine
end

