-- ==== Sys2Proof/Machine/Boot.lean ====
section
/-! DEFINITION. Boot loading and re-initialisation (`70_reset_and_hazards.md` R500 to R504): the state boot software
hands to the core. -/

namespace Sys2Proof.Machine

/-- What boot software may load (R503, U21): the image below the DTB, a DTB of DTB_SIZE bytes with room for the
patched field, and a command line that ends inside it. -/
def bootFits (c : Config) (image dtb cmdline : List Byte) : Bool :=
  decide (image.length ≤ c.ramSize - c.dtbSize) && decide (dtb.length = c.dtbSize)
    && decide (c.dtbPatchOfs + 4 ≤ c.dtbSize) && decide (c.cmdlineOfs + cmdline.length + 1 ≤ c.dtbSize)

/-- The DTB's RAM offset, RAM_SIZE - DTB_SIZE: also the size of usable RAM the patch writes (R503). -/
def dtbOffset (c : Config) : Nat := c.ramSize - c.dtbSize

/-- The patch of the DTB (R503): the field gets the size of usable RAM, big-endian, if it holds the placeholder. -/
def patchDtb (c : Config) (m : Memory) : Memory :=
  let at_ := dtbOffset c + c.dtbPatchOfs
  if m.getN at_ 4 = c.dtbPlaceholder then m.putN at_ (beBytes (BitVec.ofNat 32 (dtbOffset c))) else m

/-- The backing store after boot loading (R503), in the order the rule lists: image, DTB, patch, command line
(log 20). -/
def bootStore (c : Config) (m : Memory) (image dtb cmdline : List Byte) : Memory :=
  let m := m.putN 0 image
  let m := m.putN (dtbOffset c) dtb
  let m := patchDtb c m
  m.putN (dtbOffset c + c.cmdlineOfs) (cmdline ++ [0])

/-- The state a session starts from after power-on (R500), with this image, DTB and command line. -/
def State.boot (c : Config) (image dtb cmdline : List Byte) : Option State :=
  if bootFits c image dtb cmdline then
    some (State.initial c (bootStore c [] image dtb cmdline) [] [] [] [] [] [])
  else none

/-- A reboot (R501): every value of R80 is set again, the image and the DTB are loaded over the RAM there is (the
bytes not overwritten are unspecified, log 20), the block file and the queues survive, and the count of free bytes goes
on (log 32). -/
def State.reboot (s : State) (image dtb cmdline : List Byte) : Result :=
  if bootFits s.cfg image dtb cmdline then
    .next { State.initial s.cfg (bootStore s.cfg s.mem.backing image dtb cmdline) s.mem.io s.blk.file s.kb s.con
      s.calls s.agenda with blk.torn := s.blk.torn }
  else .refused .bootImage

end Sys2Proof.Machine
end

