-- ==== Sys2Proof/Machine/Session.lean ====
section
/-! DEFINITION. Around an instruction: the fetch (`20_memory.md` R112), the start of a `Step` call with its timer
and interrupt checks (`60_exceptions.md` R402 to R405), the batch's accounting (R406, R420), the session (R431)
and the moves of the other agents (R471, R502). -/

namespace Sys2Proof.Machine

/-! ### Fetch -/

/-- The outcome of a fetch. -/
inductive Fetched where
  | trap (cause tval : Word)
  | stop (f : Fault)
  | word (ir : Word) (s : State)

/-- `Fetch(pc)` (R112): the range check before the alignment check. -/
def State.fetch (s : State) : Fetched :=
  if inRamFetch s.cfg s.pc then
    if (ofs s.cfg s.pc).toNat % 4 = 0 then
      match s.memRead s.pc 4 with
      | .error f => .stop f
      | .ok (ir, t) => .word ir t
    else .trap 0 s.pc
  else .trap 1 s.pc

/-! ### The session (R431) -/

/-- The session's result once an outcome has ended it (R431); outcomes 0 and 1 do not. -/
def sessionResult (c : Config) (v : Word) : Option SessionResult :=
  if v = 0 ∨ v = 1 then none
  else if v = sysconRestart then some .reboot
  else if v = sysconPoweroff then some .poweroff
  else if v = 3 then some c.halt3Result
  else some .unknownFailure

/-- The last call ended the session, so the host calls `Step` no more (R401, R431). -/
def State.sessionOver (s : State) : Bool :=
  match s.call.outcome with
  | none => false
  | some v => (sessionResult s.cfg v).isSome

/-! ### The start of a call (R402 to R405) -/

/-- The host's accounting after an outcome-1 call: `cycle <- cycle + count` (R421, R431; log 19). -/
def State.accountIdle (s : State) : State :=
  if s.call.outcome = some 1 then { s with cycle := s.cycle + s.call.count.setWidth 64 } else s

/-- The arguments of the host's next call: the first listed, or the default call (R400, log 7). -/
def State.nextCall (s : State) : HostCall × State :=
  match s.calls with
  | [] => (s.cfg.defaultCall, s)
  | h :: rest => (h, { s with calls := rest })

/-- The call opens: its count and running cycle count are set (R406), and time advances (R402). -/
def State.openCall (s : State) (h : HostCall) : State :=
  { s with call := ⟨h.count.toNat, h.count, s.cycle, none⟩, mtime := s.mtime + h.elapsed.setWidth 64 }

/-- The timer condition is applied (R403): it ends a WFI sleep, and mip bit 7 follows it. -/
def State.sampleTimer (s : State) : State :=
  let t := timerCondition s.mtime s.mtimecmp
  { s with ef.wfi := s.ef.wfi && !t, csr.mip := setTimerBit s.csr.mip t }

/-- The machine timer interrupt is pending and enabled (R405). -/
def State.interruptDue (s : State) : Bool :=
  timerBit s.csr.mip && timerBit s.csr.mie && mieBit s.csr.mstatus

/-- How the start of a call goes on. -/
inductive CallStart where
  /-- The call ended before any instruction. -/
  | ended (s : State)
  /-- The batch runs. -/
  | running (s : State)

/-- After the timer is sampled (R404 to R406): a sleeping hart returns 1, a due interrupt is taken and returns 0
with `cycle` unchanged, a count of 0 returns 0; else the batch runs. -/
def State.dispatchCall (s : State) : CallStart :=
  if s.ef.wfi then .ended (s.endCall 1)
  else if s.interruptDue then .ended ((s.takeTrap 0x80000007#32 0 s.pc).endCall 0)
  else if s.call.remaining = 0 then .ended s.endCallCounted
  else .running s

/-- The start of a call of `Step` (R402 to R406). -/
def State.beginCall (s : State) : CallStart :=
  let (h, t) := s.accountIdle.nextCall
  (t.openCall h).sampleTimer.dispatchCall

/-! ### The batch's accounting (R406, R420) -/

/-- An attempt is counted before it is made (R420). -/
def State.countAttempt (s : State) : State := { s with call.cyc := s.call.cyc + 1 }

/-- After an attempt (R406): a call that the attempt ended stays ended; else one attempt less is left, and the last
one ends the call with outcome 0, its count stored. -/
def State.settle (s : State) : State :=
  if s.call.remaining = 0 then s
  else if s.call.remaining = 1 then s.endCallCounted
  else { s with call.remaining := s.call.remaining - 1 }

/-- `settle` on the next state of an attempt. -/
def settleResult (r : Result) : Result :=
  match r with
  | .next s => .next s.settle
  | .fault f => .fault f
  | .refused r => .refused r

/-! ### The moves of the other agents (log 8) -/

/-- A move of the console task (R471) or of the host (R502, R501). The host acts between calls only: its move during
a call is dropped. The block cache has no `reset()` (R159, log 29). -/
def State.envMove (s : State) (m : Move) : Result :=
  match m with
  | .core => .next s
  | .key b => .next (if s.kb.length < s.cfg.keyboardCap then { s with kb := s.kb ++ [b] } else s)
  | .drain => .next { s with con := s.con.tail }
  | .cacheReset =>
    .next (if s.call.remaining = 0 ∧ s.cfg.variant = .setAssoc then { s with mem := Machine.cacheReset s.mem } else s)
  | .reboot image dtb cmdline => if s.call.remaining = 0 then s.reboot image dtb cmdline else .next s

/-! ### Placing an instruction (log 12) -/

/-- The state with a word in RAM at pc, the hart next to move, inside a call with an attempt left, and no storage
failure pending: the next step fetches and runs that word if pc is one a fetch accepts (R112). -/
def State.placeWord (s : State) (w : Word) : State :=
  { s with
    mem := { Mem.pokeN s.cfg s.mem (ofs s.cfg s.pc).toNat (leBytes 4 w) with io := [] }
    call := if s.call.remaining = 0 then ⟨1, 1, s.cycle, none⟩ else s.call
    agenda := [] }

end Sys2Proof.Machine
end

