-- ==== Sys2Proof/Machine/Attempt.lean ====
section
/-! DEFINITION. One attempt of an instruction (`60_exceptions.md` R406): count it, fetch, decode, execute, account;
and the hart's move, which makes one. -/

namespace Sys2Proof.Machine

/-- What a fetched word does: the instruction it decodes to, or what its rejection raises (R187, R188). -/
def State.runWord (s : State) (ir : Word) : Result :=
  match decodeWord ir with
  | .ok i => exec i s
  | .error r => execRejected r s

/-- `ExecOne()` with its accounting (R406). -/
def State.attempt (s : State) : Result :=
  let s := s.countAttempt
  match s.fetch with
  | .trap cause tval => settleResult (.next (s.raiseTrap cause tval))
  | .stop f => .fault f
  | .word ir t => settleResult (t.runWord ir)

/-- The hart's move. -/
def State.coreStep (s : State) : Result :=
  if s.call.remaining ≠ 0 then s.attempt
  else if s.sessionOver then .next s
  else
    match s.beginCall with
    | .ended t => .next t
    | .running t => t.attempt

end Sys2Proof.Machine
end

