-- ==== Sys2Proof/Machine/Step.lean ====
section
/-! DEFINITION. One step of the machine: the move of the agent that `agenda` names, by default the hart's. -/

namespace Sys2Proof.Machine

/-- One step. A hart's move inside a call is one attempt; between calls the host calls `Step` again, unless the
session is over, and the same step makes the first attempt (log 6, 11). -/
def step (s : State) : Host.Outcome State Fault Refusal :=
  match s.agenda with
  | [] => s.coreStep
  | .core :: rest => State.coreStep { s with agenda := rest }
  | m :: rest => State.envMove { s with agenda := rest } m

/-- The state with an opcode-table word where the next step fetches (log 12). -/
def State.withFetchWord (s : State) (_nbits w : Nat) : State := s.placeWord (BitVec.ofNat 32 w)

end Sys2Proof.Machine
end

