-- ==== Sys2Proof/Safety.lean ====
section
/-! DEFINITION. What counts as a good state: the invariants of the memory hierarchy (`20_memory.md` R132, R150 to
R155) and of the machine, and the terms claims are stated in. -/

namespace Sys2Proof.Machine

/-! ### The set-associative cache (R132) -/

/-- A valid line holds LINE_SIZE bytes, and a clean valid line equals the backing store (R132 c). -/
def LineOk (c : Config) (backing : Memory) (s : Nat) (l : Line) : Prop :=
  l.valid = true → l.data.length = c.lineSize ∧
    (l.dirty = false → l.data = backing.getN (lineBase c l.tag s) c.lineSize)

/-- A set: two valid ways hold different tags (R132 a), at most one way is MRU (R132 b), both lines are good. -/
def SetOk (c : Config) (backing : Memory) (s : Nat) (cs : CacheSet) : Prop :=
  (cs.way0.valid = true → cs.way1.valid = true → cs.way0.tag ≠ cs.way1.tag) ∧
  ¬ (cs.way0.mru = true ∧ cs.way1.mru = true) ∧
  ∀ w, LineOk c backing s (cs.line w)

/-- The invariants of the set-associative hierarchy, with the canonical form of its tables. -/
structure CacheInv (c : Config) (m : Mem) : Prop where
  backing_wf : m.backing.wf = true
  sets_wf : tableWf CacheSet.empty m.cache.sets = true
  sets_ok : ∀ s, s < c.numSets → SetOk c m.backing s (m.cache.getSet s)

/-! ### The block cache (R150 to R155) -/

/-- A used block starts at a multiple of BLOCK_SIZE (R153), holds BLOCK_SIZE bytes, and equals the backing store
unless it has a pending write. -/
def BlockOk (c : Config) (backing : Memory) (b : Block) : Prop :=
  b.used = true ∧ b.start % c.blockSize = 0 ∧ b.data.length = c.blockSize ∧
    (b.pending = false → b.data = backing.getN b.start c.blockSize)

/-- The invariants of the block cache: at most NBLOCKS slots, no two with the same start (R153), and the index
lists every slot once, by rising start (R154). -/
structure BlockInv (c : Config) (m : Mem) : Prop where
  backing_wf : m.backing.wf = true
  slots_le : m.blocks.slots.length ≤ c.nBlocks
  blocks_ok : ∀ k, k < m.blocks.slots.length → BlockOk c m.backing (m.blocks.slot k)
  starts_distinct : ∀ j k, j < m.blocks.slots.length → k < m.blocks.slots.length →
    (m.blocks.slot j).start = (m.blocks.slot k).start → j = k
  index_perm : m.blocks.index.Perm (List.range m.blocks.slots.length)
  index_sorted : m.blocks.index.Pairwise fun j k => (m.blocks.slot j).start < (m.blocks.slot k).start

/-- The invariants of the hierarchy in use (R8, MEM_VARIANT). -/
def MemInv (c : Config) (m : Mem) : Prop :=
  match c.variant with
  | .setAssoc => CacheInv c m
  | .blockCache => BlockInv c m

/-- No coming storage operation fails (R470: the assumption a claim about a program makes). -/
def NoFailure (m : Mem) : Prop := ∀ b ∈ m.io, b = false

/-! ### The machine -/

/-- A good state: legal parameters, a good hierarchy, canonical tables, queues within their capacities (R71), and
a call in progress that has no outcome yet and no more attempts left than its count (R400, R406). -/
structure State.Inv (s : State) : Prop where
  cfg_wf : s.cfg.Wf
  mem_inv : MemInv s.cfg s.mem
  file_wf : s.blk.file.wf = true
  kb_cap : s.kb.length ≤ s.cfg.keyboardCap
  con_cap : s.con.length ≤ s.cfg.consoleCap
  remaining_le : s.call.remaining ≤ s.call.count.toNat
  running_open : s.call.remaining ≠ 0 → s.call.outcome = none

/-! ### The terms of claims -/

/-- The register effect of an instruction (`10_state.md` R31, R33): `rd` gets `v` unless it is x0, which reads 0; every
other register reads as before. -/
def RegWritten (s t : State) (rd : Reg) (v : Word) : Prop :=
  ∀ r, t.readReg r = if r = rd ∧ r ≠ 0 then v else s.readReg r

/-- No register is written. -/
def RegsKept (s t : State) : Prop := ∀ r, t.readReg r = s.readReg r

/-- Everything but the registers, the pc and the memory hierarchy is equal. -/
structure SystemKept (s t : State) : Prop where
  cfg : t.cfg = s.cfg
  ef : t.ef = s.ef
  cycle : t.cycle = s.cycle
  mtime : t.mtime = s.mtime
  mtimecmp : t.mtimecmp = s.mtimecmp
  csr : t.csr = s.csr
  kb : t.kb = s.kb
  con : t.con = s.con
  blk : t.blk = s.blk
  call : t.call = s.call
  calls : t.calls = s.calls
  agenda : t.agenda = s.agenda

/-- `i` completes at `s` with a next state: `rd` gets `v`, pc goes on by 4, and everything else is as in `s'`, which is
`s` with the other effects the statement names. -/
def Completes (i : Instr) (s s' : State) (rd : Reg) (v : Word) : Prop :=
  ∃ t, exec i s = .next t ∧ RegWritten s t rd v ∧ t.pc = s.pc + 4 ∧ t.mem = s'.mem ∧ SystemKept s' t

/-- As `Completes`, for an instruction that reaches RAM: each byte of RAM then reads as `image` says. -/
def CompletesRam (i : Instr) (s s' : State) (rd : Reg) (v : Word) (image : Nat → Byte) : Prop :=
  ∃ t, exec i s = .next t ∧ RegWritten s t rd v ∧ t.pc = s.pc + 4 ∧ (∀ x, t.ram x = image x) ∧ SystemKept s' t

/-- As `CompletesRam`, for an instruction that writes no register. -/
def StoresRam (i : Instr) (s : State) (image : Nat → Byte) : Prop :=
  ∃ t, exec i s = .next t ∧ RegsKept s t ∧ t.pc = s.pc + 4 ∧ (∀ x, t.ram x = image x) ∧ SystemKept s t

/-- The RAM image after `n` bytes of `v` are stored at offset `o`, the byte at `o` least significant (`20_memory.md`
R113); every other byte as before. -/
def storedImage (s : State) (o n : Nat) (v : Word) : Nat → Byte :=
  fun x => if o ≤ x ∧ x < o + n then v.extractLsb' (8 * (x - o)) 8 else s.ram x

/-- The little-endian word of the RAM image at an offset (R113). -/
def ramWord (s : State) (o : Nat) : Word := s.ram (o + 3) ++ s.ram (o + 2) ++ s.ram (o + 1) ++ s.ram o

/-- The RAM offset of an address, read unsigned (R103). -/
def ramOffset (s : State) (a : Word) : Nat := (a - s.cfg.ramBase).toNat

/-- Inside RAM for a data access (R103). -/
def IsRam (s : State) (a : Word) : Prop := ramOffset s a < s.cfg.ramSize - s.cfg.tailGuard

/-- Outside RAM and in the MMIO window (R104). -/
def IsMmio (s : State) (a : Word) : Prop :=
  ¬ IsRam s a ∧ s.cfg.mmioLo.toNat ≤ a.toNat ∧ a.toNat < s.cfg.mmioHi.toNat

/-- Neither RAM nor MMIO (R104). -/
def IsUnpopulated (s : State) (a : Word) : Prop :=
  ¬ IsRam s a ∧ ¬ (s.cfg.mmioLo.toNat ≤ a.toNat ∧ a.toNat < s.cfg.mmioHi.toNat)

/-- An access of `n` bytes at `a` stays inside one line or block (R116). -/
def FitsUnit (s : State) (a : Word) (n : Nat) : Prop :=
  ramOffset s a % s.cfg.unitSize + n ≤ s.cfg.unitSize

/-- The instructions that reach RAM at a RAM address, each with its address and width: the five loads, the three stores and
the eleven atomics (`42_loadstore.md` R260, R267, `44_atomic.md` R310). -/
def ramForms (s : State) (rd rs1 rs2 : Reg) (imm : BitVec 12) (aq rl : Bool) : List (Instr × Word × Nat) :=
  let a := s.readReg rs1 + imm.signExtend 32
  [(.lb rd rs1 imm, a, 1), (.lbu rd rs1 imm, a, 1), (.lh rd rs1 imm, a, 2), (.lhu rd rs1 imm, a, 2), (.lw rd rs1 imm, a, 4),
    (.sb rs1 rs2 imm, a, 1), (.sh rs1 rs2 imm, a, 2), (.sw rs1 rs2 imm, a, 4)] ++
  [Instr.lrW aq rl rd rs1, .scW aq rl rd rs1 rs2, .amoswapW aq rl rd rs1 rs2, .amoaddW aq rl rd rs1 rs2,
    .amoxorW aq rl rd rs1 rs2, .amoandW aq rl rd rs1 rs2, .amoorW aq rl rd rs1 rs2, .amominW aq rl rd rs1 rs2,
    .amomaxW aq rl rd rs1 rs2, .amominuW aq rl rd rs1 rs2, .amomaxuW aq rl rd rs1 rs2].map fun i => (i, s.readReg rs1, 4)

/-- No line or block of the hierarchy in use holds the offset (`20_memory.md` R123, R151). -/
def Misses (s : State) (o : Nat) : Prop :=
  (match s.cfg.variant with
    | .setAssoc => ((s.mem.cache.getSet (setIndex s.cfg o)).hit (lineTag s.cfg o)).isNone
    | .blockCache => (blockFind s.cfg s.mem.blocks o).isNone) = true

/-- The RAM offset at which a miss of `o` writes its victim back, if it must: a valid dirty line (`20_memory.md` R125,
R126), or, once every slot is in use, the oldest block with a pending write (R152, R157). -/
def victimBase (s : State) (o : Nat) : Option Nat :=
  match s.cfg.variant with
  | .setAssoc =>
    let cs := s.mem.cache.getSet (setIndex s.cfg o)
    let victim := if cs.way0.mru then cs.way1 else cs.way0
    if victim.valid && victim.dirty then some (lineBase s.cfg victim.tag (setIndex s.cfg o)) else none
  | .blockCache =>
    let victim := s.mem.blocks.slot s.mem.blocks.oldest
    if decide (s.cfg.nBlocks ≤ s.mem.blocks.slots.length) && victim.pending then some victim.start else none

/-- What boot loading leaves in RAM (`70_reset_and_hazards.md` R503): the image at offset 0; in the DTB region the command
line with its final zero, which is written last and so stands also where it overlaps the patched field (log 20); outside
it the patched field, the size of usable RAM big-endian if the DTB holds the placeholder there; and the DTB's other
bytes. -/
structure Loaded (c : Config) (image dtb cmdline : List Byte) (s : State) : Prop where
  image_at : ∀ k, k < image.length → s.ram k = image.getD k 0
  cmdline_at : ∀ k, k < cmdline.length + 1 → s.ram (c.ramSize - c.dtbSize + c.cmdlineOfs + k) = cmdline.getD k 0
  dtb_at : ∀ k, k < c.dtbSize → ¬ (c.cmdlineOfs ≤ k ∧ k < c.cmdlineOfs + cmdline.length + 1) →
    s.ram (c.ramSize - c.dtbSize + k) =
      if (c.dtbPatchOfs ≤ k ∧ k < c.dtbPatchOfs + 4) ∧ (dtb.drop c.dtbPatchOfs).take 4 = c.dtbPlaceholder then
        (BitVec.ofNat 32 (c.ramSize - c.dtbSize)).extractLsb' (8 * (3 - (k - c.dtbPatchOfs))) 8
      else dtb.getD k 0

/-- Trap entry (`60_exceptions.md` R410): mcause, mtval, mepc and mstatus written, pc at mtvec, PRIV 3; no register, no
byte of memory and no other CSR, flag or device changes. `cycle` and `call` are the caller's to state. -/
structure TrapEntered (s t : State) (cause tval epc : Word) : Prop where
  regs : RegsKept s t
  pc : t.pc = s.csr.mtvec
  mcause : t.csr.mcause = cause
  mtval : t.csr.mtval = tval
  mepc : t.csr.mepc = epc
  mstatus : t.csr.mstatus = ((s.csr.mstatus >>> 3) &&& 1) <<< 7 ||| s.ef.priv.setWidth 32 <<< 11
  csrs : t.csr.mie = s.csr.mie ∧ t.csr.mip = s.csr.mip ∧ t.csr.mtvec = s.csr.mtvec ∧ t.csr.mscratch = s.csr.mscratch
  ef : t.ef = ⟨3#2, s.ef.wfi, s.ef.res⟩
  mem : t.mem = s.mem
  timer : t.mtime = s.mtime ∧ t.mtimecmp = s.mtimecmp
  devices : t.kb = s.kb ∧ t.con = s.con ∧ t.blk = s.blk
  model : t.cfg = s.cfg ∧ t.calls = s.calls ∧ t.agenda = s.agenda

/-- What a synchronous trap does under each fault policy (R406, R408): Deliver stores the running cycle count, enters
the trap at the current pc and ends the call with outcome 0; Fatal ends the call with outcome 3 and writes nothing of
the trap; Suppress goes on at pc + 4 with no other effect. -/
def TrapOutcome (s t : State) (cause tval : Word) : Prop :=
  match s.cfg.faultPolicy with
  | .deliver => TrapEntered s t cause tval s.pc ∧ t.cycle = s.call.cyc ∧
      t.call = { s.call with remaining := 0, outcome := some 0 }
  | .fatal => t = { s with call := { s.call with remaining := 0, outcome := some 3 } }
  | .suppress => t = { s with pc := s.pc + 4 }

/-- `i` raises a trap at `s`, from the unchanged state. -/
def Raises (i : Instr) (s : State) (cause tval : Word) : Prop :=
  ∃ t, exec i s = .next t ∧ TrapOutcome s t cause tval

/-- The six CSR instructions on CSR `n`, each with what it writes as a function of the old value (`45_system.md` R342,
R361 to R366). -/
def csrForms (s : State) (rd rs1 : Reg) (uimm : BitVec 5) (n : CsrNum) : List (Instr × (Word → Word)) :=
  [(.csrrw rd rs1 n, fun _ => s.readReg rs1),
   (.csrrs rd rs1 n, fun old => old ||| s.readReg rs1),
   (.csrrc rd rs1 n, fun old => old &&& ~~~s.readReg rs1),
   (.csrrwi rd uimm n, fun _ => uimm.setWidth 32),
   (.csrrsi rd uimm n, fun old => old ||| uimm.setWidth 32),
   (.csrrci rd uimm n, fun old => old &&& ~~~uimm.setWidth 32)]

/-- The console output queue after an offer of `b` (`60_exceptions.md` R440; a full queue under Wait, log 10). -/
def queueAfter (s : State) (b : Byte) : List Byte :=
  if s.con.length < s.cfg.consoleCap then s.con ++ [b]
  else match s.cfg.consoleFull with
    | .drop => s.con
    | .wait => s.con.tail ++ [b]

/-- The answer of a try-remove of the keyboard queue (R441, `10_state.md` R62). -/
def keyAnswer (s : State) : Word :=
  match s.kb with
  | [] => 0xFFFFFFFF#32
  | b :: _ => b.setWidth 32

end Sys2Proof.Machine
end

