-- ==== Sys2Proof/Certificates/Slice0/Obligations.lean ====
section
/-! DEFINITION. The statements for the provers, one proposition each. A clause that follows a choice of the model and
not a rule of the spec names its log entry in the docstring. -/

open Sys2Proof Sys2Proof.Machine

/-! ### Reset and the invariant -/

/-- R504: the registers boot software hands over, for every set of parameters and whatever the RAM, the file, the
queues and the host hold. -/
def Obligations.HandOffRegisters : Prop :=
  ∀ cfg backing io file kb con calls agenda,
    let s := State.initial cfg backing io file kb con calls agenda
    s.readReg 10 = 0 ∧ s.readReg 11 = cfg.ramBase + BitVec.ofNat 32 (cfg.ramSize - cfg.dtbSize) ∧
    s.pc = cfg.ramBase ∧ s.ef = ⟨3#2, false, 0⟩ ∧ (∀ r, r ≠ 10 → r ≠ 11 → s.readReg r = 0) ∧
    s.csr = ⟨0, 0, 0, 0, 0, 0, 0, 0⟩ ∧ s.cycle = 0 ∧ s.mtime = 0 ∧ s.mtimecmp = 0 ∧
    s.blk.ptr = 0 ∧ s.blk.off = 0 ∧ s.blk.len = 0 ∧ s.blk.err = 0 ∧ s.blk.pos = 0 ∧
    s.mem.cache = SetCache.empty ∧ s.mem.blocks = BlockCache.empty

/-- The model's reset state is the hand-off state of R504 for the model's own choice of parameters (log 2), of memory (log
4, 5), of the queues (log 3) and of the other agents (log 7, 8, 9), and it has the invariant. -/
def Obligations.InvariantAtReset : Prop :=
  State.reset = State.initial Config.default [] [] [] [] [] [] [] ∧ State.reset.Inv

/-- Every step keeps the invariant, from every state that has it, whichever agent moves: the hierarchy's invariants
(R132, R153, R154), the canonical form of the tables, the bounds of the queues (R71), and the shape of a call. -/
def Obligations.StepKeepsInvariant : Prop :=
  ∀ s t : State, s.Inv → Machine.step s = .next t → t.Inv

/-! ### Decoding -/

/-- Decoding the encoding of a well-formed instruction gives it back, with every operand (R181 to R187). -/
def Obligations.DecodeOfEncode : Prop :=
  ∀ i : Instr, i.WellFormed = true → decodeWord (encode i) = .ok i

/-- What the decoder accepts is well-formed: branch and jump offsets are even (R183). -/
def Obligations.DecodedIsWellFormed : Prop :=
  ∀ (ir : Word) (i : Instr), decodeWord ir = .ok i → i.WellFormed = true

/-- The examples of the instruction rules decode to the instructions they stand for, one word of each family, with
0x40001033 of R187 and SRET of R356. -/
def Obligations.DecodeSpecWords : Prop :=
  decodeWord 0x12345537#32 = .ok (.lui 10 0x12345) ∧
  decodeWord 0x010000EF#32 = .ok (.jal 1 16) ∧
  decodeWord 0xFEB50CE3#32 = .ok (.beq 10 11 (-8)) ∧
  decodeWord 0xFFC58503#32 = .ok (.lb 10 11 (-4)) ∧
  decodeWord 0x00C5A223#32 = .ok (.sw 11 12 4) ∧
  decodeWord 0x4045D513#32 = .ok (.srai 10 11 4) ∧
  decodeWord 0x40C58533#32 = .ok (.sub 10 11 12) ∧
  decodeWord 0x02C5C533#32 = .ok (.div 10 11 12) ∧
  decodeWord 0x18C5A52F#32 = .ok (.scW false false 10 11 12) ∧
  decodeWord 0x34059573#32 = .ok (.csrrw 10 11 0x340) ∧
  decodeWord 0x0FF0000F#32 = .ok (.fence 0 15 15 0 0) ∧
  decodeWord 0x40001033#32 = .ok (.sll 0 0 0) ∧
  decodeWord 0x10200073#32 = .ok .mret

/-- R187, R189, R325, R356: two words that differ only in bits the decode tree ignores decode alike: funct3 of JALR and AMO,
ir[31:25] of SLLI, ir[31] and ir[29:25] of SRLI and SRAI, the funct7 bits of OP other than ir[25] and, for funct3 0 and 5,
ir[30], rd and rs1 of SYSTEM with funct3 0, there with ir[31:28] too where ir[27:20] is that of MRET (R356), rs2 of LR.W. -/
def Obligations.IgnoredFields : Prop :=
  ∀ (ir ir' mask : Word), (ir ^^^ ir') &&& ~~~mask = 0 →
    let op := ir.extractLsb' 0 7
    let f3 := ir.extractLsb' 12 3
    ((op = 0x67#7 ∧ mask = 0x00007000) ∨
      (op = 0x13#7 ∧ f3 = 1#3 ∧ mask = 0xFE000000) ∨
      (op = 0x13#7 ∧ f3 = 5#3 ∧ mask = 0xBE000000) ∨
      (op = 0x33#7 ∧ ir.getLsbD 25 = true ∧ mask = 0xFC000000) ∨
      (op = 0x33#7 ∧ ir.getLsbD 25 = false ∧ f3 ∈ [0#3, 5#3] ∧ mask = 0xBC000000) ∨
      (op = 0x33#7 ∧ ir.getLsbD 25 = false ∧ f3 ∉ [0#3, 5#3] ∧ mask = 0xFC000000) ∨
      (op = 0x73#7 ∧ f3 = 0#3 ∧ mask = 0x000F8F80) ∨
      (op = 0x73#7 ∧ f3 = 0#3 ∧ ir.extractLsb' 20 8 = 0x02#8 ∧ mask = 0xF00F8F80) ∨
      (op = 0x2F#7 ∧ mask = 0x00007000) ∨
      (op = 0x2F#7 ∧ ir.extractLsb' 27 5 = 2#5 ∧ mask = 0x01F00000)) →
    decodeWord ir' = decodeWord ir

/-! ### Fetch and the step -/

/-- A step inside a call, where pc is inside RAM and aligned and the word there decodes to `i`, runs `i`: the attempt
is counted, the fetch changes no byte of RAM, and after it the batch goes on, or ends with its last attempt (R112, R141,
R406, R420). -/
def Obligations.StepRunsDecodedInstruction : Prop :=
  ∀ (s : State) (i : Instr), s.Inv → NoFailure s.mem → s.agenda = [] → s.call.remaining ≠ 0 →
    ramOffset s s.pc < s.cfg.ramSize → ramOffset s s.pc % 4 = 0 →
    decodeWord (ramWord s (ramOffset s s.pc)) = .ok i →
    ∃ u : State, u = { s with mem := u.mem, call := { s.call with cyc := s.call.cyc + 1 } } ∧ (∀ x, u.ram x = s.ram x) ∧
      MemInv u.cfg u.mem ∧ NoFailure u.mem ∧
      Machine.step s = match exec i u with
        | .next t => .next (
            if t.call.remaining = 0 then t
            else if t.call.remaining = 1 then
              { t with cycle := t.call.cyc, call := { t.call with remaining := 0, outcome := some 0 } }
            else { t with call := { t.call with remaining := t.call.remaining - 1 } })
        | .fault f => .fault f
        | .refused r => .refused r

/-- R112: a fetch outside RAM raises cause 1, and one inside RAM at an address that is not a multiple of 4 raises cause
0, both with mtval the pc, through the fault policy; the attempt is counted all the same (R420). After a suppressed
fetch fault the batch goes on at pc + 4, or ends with its last attempt (R406, R408). -/
def Obligations.FetchTraps : Prop :=
  ∀ s : State, s.Inv → s.agenda = [] → s.call.remaining ≠ 0 →
    ∀ cause : Word,
      ((s.cfg.ramSize ≤ ramOffset s s.pc ∧ cause = 1) ∨
        (ramOffset s s.pc < s.cfg.ramSize ∧ s.pc.toNat % 4 ≠ 0 ∧ cause = 0)) →
    ∃ t : State, TrapOutcome { s with call := { s.call with cyc := s.call.cyc + 1 } } t cause s.pc ∧
      Machine.step s = .next (
        if t.call.remaining = 0 then t
        else if t.call.remaining = 1 then
          { t with cycle := t.call.cyc, call := { t.call with remaining := 0, outcome := some 0 } }
        else { t with call := { t.call with remaining := t.call.remaining - 1 } })

/-- R188 items 1, 2, 5 and 6: a word with no such major opcode, a BRANCH with funct3 2 or 3, a SYSTEM word with funct3 4,
and a SYSTEM word with funct3 0 whose f12 selects nothing, raise the illegal-instruction trap, mtval the pc. -/
def Obligations.IllegalWords : Prop :=
  ∀ (s : State) (ir : Word),
    (ir.extractLsb' 0 7 ∉ [0x03#7, 0x0F#7, 0x13#7, 0x17#7, 0x23#7, 0x2F#7, 0x33#7, 0x37#7, 0x63#7, 0x67#7, 0x6F#7, 0x73#7] ∨
      (ir.extractLsb' 0 7 = 0x63#7 ∧ ir.extractLsb' 12 3 ∈ [2#3, 3#3]) ∨
      (ir.extractLsb' 0 7 = 0x73#7 ∧ ir.extractLsb' 12 3 = 4#3) ∨
      (ir.extractLsb' 0 7 = 0x73#7 ∧ ir.extractLsb' 12 3 = 0#3 ∧
        ir.extractLsb' 20 12 ∉ [0x000#12, 0x001#12, 0x105#12] ∧ ir.extractLsb' 20 8 ≠ 0x02#8)) →
    ∃ t, s.runWord ir = .next t ∧ TrapOutcome s t 2 s.pc

/-- R271, R188 items 3 and 4: a LOAD with funct3 3, 6 or 7 and a STORE with funct3 3 to 7 raise the
illegal-instruction trap at a RAM address and the access fault at an unpopulated one; at an MMIO address they are
refused, the load whatever MMIO_LOAD_EXTEND (log 24 says how R111 is read). -/
def Obligations.ReservedWidths : Prop :=
  ∀ (s : State) (ir : Word) (imm : BitVec 12),
    let a := s.readReg (fRs1 ir) + imm.signExtend 32
    (ir.extractLsb' 0 7 = 0x03#7 → ir.extractLsb' 12 3 ∈ [3#3, 6#3, 7#3] → imm = ir.extractLsb' 20 12 →
      (IsRam s a → ∃ t, s.runWord ir = .next t ∧ TrapOutcome s t 2 s.pc) ∧
      (IsUnpopulated s a → ∃ t, s.runWord ir = .next t ∧ TrapOutcome s t 5 a) ∧
      (IsMmio s a → s.runWord ir = .refused .mmioLoadWidth)) ∧
    (ir.extractLsb' 0 7 = 0x23#7 → ir.extractLsb' 12 3 ∈ [3#3, 4#3, 5#3, 6#3, 7#3] →
      imm = ir.extractLsb' 25 7 ++ ir.extractLsb' 7 5 →
      (IsRam s a → ∃ t, s.runWord ir = .next t ∧ TrapOutcome s t 2 s.pc) ∧
      (IsUnpopulated s a → ∃ t, s.runWord ir = .next t ∧ TrapOutcome s t 7 a) ∧
      (IsMmio s a → s.runWord ir = .refused .mmioStoreWidth))

/-- R322: an AMO word with an unassigned funct5 raises cause 7 outside RAM; inside RAM the read of R310 is made first, with
all it does to the hierarchy, and then the illegal-instruction trap is raised from the state it leaves; a word that
spans two lines or blocks is the model fault of that read (R116, log 13). -/
def Obligations.UnassignedAmo : Prop :=
  ∀ (s : State) (ir : Word), s.Inv → ir.extractLsb' 0 7 = 0x2F#7 →
    ir.extractLsb' 27 5 ∉ [0#5, 1#5, 2#5, 3#5, 4#5, 8#5, 12#5, 16#5, 20#5, 24#5, 28#5] →
    let a := s.readReg (fRs1 ir)
    (¬ IsRam s a → ∃ t, s.runWord ir = .next t ∧ TrapOutcome s t 7 a) ∧
    (IsRam s a → FitsUnit s a 4 → NoFailure s.mem →
      ∃ old u t, s.memRead a 4 = .ok (old, u) ∧ u = { s with mem := u.mem } ∧ (∀ x, u.ram x = s.ram x) ∧
        s.runWord ir = .next t ∧ TrapOutcome u t 2 s.pc) ∧
    (IsRam s a → ¬ FitsUnit s a 4 → s.runWord ir = .fault .lineCross)

/-! ### Integer instructions -/

/-- R200, R201: LUI and AUIPC. -/
def Obligations.UpperImmediates : Prop :=
  ∀ (s : State) (rd : Reg) (imm : BitVec 20),
    Completes (.lui rd imm) s s rd (imm.setWidth 32 <<< 12) ∧
    Completes (.auipc rd imm) s s rd (s.pc + imm.setWidth 32 <<< 12)

/-- R203 to R208: the immediate is sign-extended; the comparisons are signed (SLTI) and unsigned (SLTIU). -/
def Obligations.RegisterImmediates : Prop :=
  ∀ (s : State) (rd rs1 : Reg) (imm : BitVec 12),
    let a := s.readReg rs1
    let v : Word := imm.signExtend 32
    Completes (.addi rd rs1 imm) s s rd (a + v) ∧
    Completes (.slti rd rs1 imm) s s rd (if a.toInt < imm.toInt then 1 else 0) ∧
    Completes (.sltiu rd rs1 imm) s s rd (if a.toNat < v.toNat then 1 else 0) ∧
    Completes (.xori rd rs1 imm) s s rd (a ^^^ v) ∧
    Completes (.ori rd rs1 imm) s s rd (a ||| v) ∧
    Completes (.andi rd rs1 imm) s s rd (a &&& v)

/-- R209 to R211: shifts as exact arithmetic: times and divided by a power of two, the quotient rounded down, unsigned
for SRLI and signed for SRAI. -/
def Obligations.ShiftImmediates : Prop :=
  ∀ (s : State) (rd rs1 : Reg) (shamt : BitVec 5),
    let a := s.readReg rs1
    Completes (.slli rd rs1 shamt) s s rd (BitVec.ofNat 32 (a.toNat * 2 ^ shamt.toNat)) ∧
    Completes (.srli rd rs1 shamt) s s rd (BitVec.ofNat 32 (a.toNat / 2 ^ shamt.toNat)) ∧
    Completes (.srai rd rs1 shamt) s s rd (BitVec.ofInt 32 (a.toInt / 2 ^ shamt.toNat))

/-- R213 to R222: the ten register-register instructions; a shift amount is the low five bits of rs2. -/
def Obligations.RegisterRegister : Prop :=
  ∀ (s : State) (rd rs1 rs2 : Reg),
    let a := s.readReg rs1
    let b := s.readReg rs2
    let k := (b.extractLsb' 0 5).toNat
    Completes (.add rd rs1 rs2) s s rd (a + b) ∧
    Completes (.sub rd rs1 rs2) s s rd (a - b) ∧
    Completes (.sll rd rs1 rs2) s s rd (BitVec.ofNat 32 (a.toNat * 2 ^ k)) ∧
    Completes (.slt rd rs1 rs2) s s rd (if a.toInt < b.toInt then 1 else 0) ∧
    Completes (.sltu rd rs1 rs2) s s rd (if a.toNat < b.toNat then 1 else 0) ∧
    Completes (.xor rd rs1 rs2) s s rd (a ^^^ b) ∧
    Completes (.srl rd rs1 rs2) s s rd (BitVec.ofNat 32 (a.toNat / 2 ^ k)) ∧
    Completes (.sra rd rs1 rs2) s s rd (BitVec.ofInt 32 (a.toInt / 2 ^ k)) ∧
    Completes (.or rd rs1 rs2) s s rd (a ||| b) ∧
    Completes (.and rd rs1 rs2) s s rd (a &&& b)

/-- R291 to R294: the low word, and the high word of the exact product of the operands read signed or unsigned. -/
def Obligations.Multiply : Prop :=
  ∀ (s : State) (rd rs1 rs2 : Reg),
    let a := s.readReg rs1
    let b := s.readReg rs2
    Completes (.mul rd rs1 rs2) s s rd (BitVec.ofInt 32 (a.toInt * b.toInt)) ∧
    Completes (.mulh rd rs1 rs2) s s rd (BitVec.ofInt 32 (a.toInt * b.toInt / 2 ^ 32)) ∧
    Completes (.mulhsu rd rs1 rs2) s s rd (BitVec.ofInt 32 (a.toInt * b.toNat / 2 ^ 32)) ∧
    Completes (.mulhu rd rs1 rs2) s s rd (BitVec.ofNat 32 (a.toNat * b.toNat / 2 ^ 32))

/-- R295 to R299: quotients truncated toward zero and remainders with the dividend's sign; a zero divisor gives all
ones and the dividend; the overflow of the signed division gives the dividend and 0, which are what the exact quotient
and remainder wrap to. None of them traps. -/
def Obligations.Divide : Prop :=
  ∀ (s : State) (rd rs1 rs2 : Reg),
    let a := s.readReg rs1
    let b := s.readReg rs2
    Completes (.div rd rs1 rs2) s s rd (if b = 0 then 0xFFFFFFFF else BitVec.ofInt 32 (a.toInt.tdiv b.toInt)) ∧
    Completes (.divu rd rs1 rs2) s s rd (if b = 0 then 0xFFFFFFFF else BitVec.ofNat 32 (a.toNat / b.toNat)) ∧
    Completes (.rem rd rs1 rs2) s s rd (if b = 0 then a else BitVec.ofInt 32 (a.toInt.tmod b.toInt)) ∧
    Completes (.remu rd rs1 rs2) s s rd (if b = 0 then a else BitVec.ofNat 32 (a.toNat % b.toNat)) ∧
    (a = 0x80000000#32 → b = 0xFFFFFFFF#32 →
      Completes (.div rd rs1 rs2) s s rd 0x80000000#32 ∧ Completes (.rem rd rs1 rs2) s s rd 0)

/-- R300: the arithmetic laws of the eight results. -/
def Obligations.ArithmeticLaws : Prop :=
  (∀ a b : Word, b ≠ 0 → a = divSigned a b * b + remSigned a b ∧ a = divUnsigned a b * b + remUnsigned a b) ∧
  (∀ a : Word, a = divUnsigned a 0 * 0 + remUnsigned a 0 ∧ a = divSigned a 0 * 0 + remSigned a 0) ∧
  (∀ a b : Word, b ≠ 0 → (remSigned a b).toInt.natAbs < b.toInt.natAbs ∧ (remUnsigned a b).toNat < b.toNat) ∧
  (∀ a b : Word, mulHigh (a.setWidth 64) (b.setWidth 64) ++ (a * b) = (a.setWidth 64 : DWord) * b.setWidth 64 ∧
    mulHigh (a.signExtend 64) (b.signExtend 64) ++ (a * b) = (a.signExtend 64 : DWord) * b.signExtend 64) ∧
  (∀ a b : Word, mulHigh (a.signExtend 64) (b.setWidth 64) =
    mulHigh (a.setWidth 64) (b.setWidth 64) - (if a.msb then b else 0)) ∧
  (∀ a b : Word, a * b = b * a ∧
    mulHigh (a.signExtend 64) (b.signExtend 64) = mulHigh (b.signExtend 64) (a.signExtend 64) ∧
    mulHigh (a.setWidth 64) (b.setWidth 64) = mulHigh (b.setWidth 64) (a.setWidth 64)) ∧
  (∃ a b : Word, mulHigh (a.signExtend 64) (b.setWidth 64) ≠ mulHigh (b.signExtend 64) (a.setWidth 64))

/-! ### Control transfer -/

/-- R240, R241: the link and the target; JALR clears only bit 0 of its target and reads rs1 before it writes rd. No
jump checks its target, and nothing else changes. -/
def Obligations.Jumps : Prop :=
  ∀ s : State,
    (∀ (rd : Reg) (off : BitVec 21), ∃ t, exec (.jal rd off) s = .next t ∧ RegWritten s t rd (s.pc + 4) ∧
      t.pc = s.pc + off.signExtend 32 ∧ t.mem = s.mem ∧ SystemKept s t) ∧
    (∀ (rd rs1 : Reg) (imm : BitVec 12), ∃ t, exec (.jalr rd rs1 imm) s = .next t ∧ RegWritten s t rd (s.pc + 4) ∧
      t.pc = ((s.readReg rs1 + imm.signExtend 32) >>> 1) <<< 1 ∧ t.mem = s.mem ∧ SystemKept s t)

/-- R245 to R251: a branch changes pc alone. -/
def Obligations.Branches : Prop :=
  ∀ (s : State) (rs1 rs2 : Reg) (off : BitVec 13),
    let a := s.readReg rs1
    let b := s.readReg rs2
    let taken : Word := s.pc + off.signExtend 32
    exec (.beq rs1 rs2 off) s = .next { s with pc := if a = b then taken else s.pc + 4 } ∧
    exec (.bne rs1 rs2 off) s = .next { s with pc := if a ≠ b then taken else s.pc + 4 } ∧
    exec (.blt rs1 rs2 off) s = .next { s with pc := if a.toInt < b.toInt then taken else s.pc + 4 } ∧
    exec (.bge rs1 rs2 off) s = .next { s with pc := if b.toInt ≤ a.toInt then taken else s.pc + 4 } ∧
    exec (.bltu rs1 rs2 off) s = .next { s with pc := if a.toNat < b.toNat then taken else s.pc + 4 } ∧
    exec (.bgeu rs1 rs2 off) s = .next { s with pc := if b.toNat ≤ a.toNat then taken else s.pc + 4 }

/-! ### Loads, stores and devices -/

/-- R262 to R266 at a RAM address: the little-endian bytes of the image, sign- or zero-extended, at any byte address
inside one line or block; no byte of RAM and no other state changes. -/
def Obligations.LoadsFromRam : Prop :=
  ∀ (s : State) (rd rs1 : Reg) (imm : BitVec 12), s.Inv → NoFailure s.mem →
    let a := s.readReg rs1 + imm.signExtend 32
    let o := ramOffset s a
    IsRam s a →
    CompletesRam (.lb rd rs1 imm) s s rd ((s.ram o).signExtend 32) s.ram ∧
    CompletesRam (.lbu rd rs1 imm) s s rd ((s.ram o).setWidth 32) s.ram ∧
    (FitsUnit s a 2 →
      CompletesRam (.lh rd rs1 imm) s s rd ((s.ram (o + 1) ++ s.ram o).signExtend 32) s.ram ∧
      CompletesRam (.lhu rd rs1 imm) s s rd ((s.ram (o + 1) ++ s.ram o).setWidth 32) s.ram) ∧
    (FitsUnit s a 4 → CompletesRam (.lw rd rs1 imm) s s rd (ramWord s o) s.ram)

/-- R268 to R270 at a RAM address: the low bytes of rs2, little-endian, at the effective address, at any byte address
inside one line or block; every other byte of RAM, every register and all other state is unchanged. -/
def Obligations.StoresToRam : Prop :=
  ∀ (s : State) (rs1 rs2 : Reg) (imm : BitVec 12), s.Inv → NoFailure s.mem →
    let a := s.readReg rs1 + imm.signExtend 32
    let v := s.readReg rs2
    IsRam s a →
    StoresRam (.sb rs1 rs2 imm) s (storedImage s (ramOffset s a) 1 v) ∧
    (FitsUnit s a 2 → StoresRam (.sh rs1 rs2 imm) s (storedImage s (ramOffset s a) 2 v)) ∧
    (FitsUnit s a 4 → StoresRam (.sw rs1 rs2 imm) s (storedImage s (ramOffset s a) 4 v))

/-- R109, R111, R260 at an MMIO address: the device value, cut and extended by the width where MMIO_LOAD_EXTEND is
true and whole where it is not. Only a UART_DATA load changes anything besides rd and pc: it takes the oldest key. -/
def Obligations.DeviceLoads : Prop :=
  ∀ (s : State) (rd rs1 : Reg) (imm : BitVec 12),
    let a := s.readReg rs1 + imm.signExtend 32
    let d : Word :=
      if a = s.cfg.uartData then keyAnswer s
      else if a = s.cfg.uartLsr then 0x60 ||| (if s.kb = [] then 0 else 1)
      else if a = s.cfg.mtimeLo then s.mtime.extractLsb' 0 32
      else if a = s.cfg.mtimeHi then s.mtime.extractLsb' 32 32
      else 0
    let s' := { s with kb := if a = s.cfg.uartData then s.kb.tail else s.kb }
    IsMmio s a →
    (s.cfg.mmioLoadExtend = true →
      Completes (.lb rd rs1 imm) s s' rd ((d.extractLsb' 0 8).signExtend 32) ∧
      Completes (.lh rd rs1 imm) s s' rd ((d.extractLsb' 0 16).signExtend 32) ∧
      Completes (.lw rd rs1 imm) s s' rd d ∧
      Completes (.lbu rd rs1 imm) s s' rd ((d.extractLsb' 0 8).setWidth 32) ∧
      Completes (.lhu rd rs1 imm) s s' rd ((d.extractLsb' 0 16).setWidth 32)) ∧
    (s.cfg.mmioLoadExtend = false →
      ∀ i ∈ [Instr.lb rd rs1 imm, .lh rd rs1 imm, .lw rd rs1 imm, .lbu rd rs1 imm, .lhu rd rs1 imm],
        Completes i s s' rd d)

/-- R110 at an MMIO address other than SYSCON_ADDR: the whole of rs2 reaches the device, whatever the width. (A UART_DATA
store to a full queue under Wait follows log 10.) -/
def Obligations.DeviceStores : Prop :=
  ∀ (s : State) (rs1 rs2 : Reg) (imm : BitVec 12), s.cfg.Wf →
    let a := s.readReg rs1 + imm.signExtend 32
    let v := s.readReg rs2
    IsMmio s a → a ≠ s.cfg.sysconAddr →
    ∀ i ∈ [Instr.sb rs1 rs2 imm, .sh rs1 rs2 imm, .sw rs1 rs2 imm],
      exec i s = .next { s with
        pc := s.pc + 4
        con := if a = s.cfg.uartData then queueAfter s (v.extractLsb' 0 8) else s.con
        mtimecmp :=
          if a = s.cfg.mtimecmpLo then s.mtimecmp.extractLsb' 32 32 ++ v
          else if a = s.cfg.mtimecmpHi then v ++ s.mtimecmp.extractLsb' 0 32
          else s.mtimecmp }

/-- R430: a store to SYSCON_ADDR completes with pc + 4 and ends the call with the whole of rs2 as its outcome, whatever
the width; the running cycle count is not stored (R420). -/
def Obligations.SysconEndsCall : Prop :=
  ∀ (s : State) (rs1 rs2 : Reg) (imm : BitVec 12), s.cfg.Wf → s.readReg rs1 + imm.signExtend 32 = s.cfg.sysconAddr →
    ∀ i ∈ [Instr.sb rs1 rs2 imm, .sh rs1 rs2 imm, .sw rs1 rs2 imm],
      exec i s = .next { s with
        pc := s.pc + 4
        call := { s.call with remaining := 0, outcome := some (s.readReg rs2) } }

/-- R104, R407, R409: a load from an unpopulated address raises cause 5 and a store there cause 7, mtval the effective
address, with no effect (R272). -/
def Obligations.AccessFaults : Prop :=
  ∀ (s : State) (r rs1 rs2 : Reg) (imm : BitVec 12),
    let a := s.readReg rs1 + imm.signExtend 32
    IsUnpopulated s a →
    (∀ i ∈ [Instr.lb r rs1 imm, .lh r rs1 imm, .lw r rs1 imm, .lbu r rs1 imm, .lhu r rs1 imm], Raises i s 5 a) ∧
    (∀ i ∈ [Instr.sb rs1 rs2 imm, .sh rs1 rs2 imm, .sw rs1 rs2 imm], Raises i s 7 a)

/-- R116: a RAM access whose bytes span two lines or blocks is the model fault LineCross, for every load, store and
atomic wider than a byte. -/
def Obligations.LineCross : Prop :=
  ∀ (s : State) (rd rs1 rs2 : Reg) (imm : BitVec 12) (aq rl : Bool),
    let a := s.readReg rs1 + imm.signExtend 32
    (IsRam s a → ¬ FitsUnit s a 2 →
      ∀ i ∈ [Instr.lh rd rs1 imm, .lhu rd rs1 imm, .sh rs1 rs2 imm], exec i s = .fault .lineCross) ∧
    (IsRam s a → ¬ FitsUnit s a 4 →
      ∀ i ∈ [Instr.lw rd rs1 imm, .sw rs1 rs2 imm], exec i s = .fault .lineCross) ∧
    (IsRam s (s.readReg rs1) → ¬ FitsUnit s (s.readReg rs1) 4 →
      ∀ i ∈ [Instr.lrW aq rl rd rs1, .scW aq rl rd rs1 rs2, .amoswapW aq rl rd rs1 rs2, .amoaddW aq rl rd rs1 rs2,
        .amoxorW aq rl rd rs1 rs2, .amoandW aq rl rd rs1 rs2, .amoorW aq rl rd rs1 rs2, .amominW aq rl rd rs1 rs2,
        .amomaxW aq rl rd rs1 rs2, .amominuW aq rl rd rs1 rs2, .amomaxuW aq rl rd rs1 rs2],
        exec i s = .fault .lineCross)

/-! ### The memory hierarchy -/

/-- R131, for both hierarchies: a read returns bytes of the logical image M and leaves M as it was; a write
changes exactly the bytes of M it names; both keep the invariants. -/
def Obligations.CacheTransparency : Prop :=
  ∀ (c : Config) (m m' : Mem) (o n : Nat) (v : Word), MemInv c m → 0 < c.nBlocks → n ≤ 4 →
    (m.read c o n = .ok (v, m') →
      (∀ k, k < n → v.extractLsb' (8 * k) 8 = m.byte c (o + k)) ∧ (∀ i, 8 * n ≤ i → v.getLsbD i = false) ∧
      (∀ x, m'.byte c x = m.byte c x) ∧ MemInv c m') ∧
    (m.write c o n v = .ok m' →
      (∀ k, k < n → m'.byte c (o + k) = v.extractLsb' (8 * k) 8) ∧
      (∀ x, ¬ (o ≤ x ∧ x < o + n) → m'.byte c x = m.byte c x) ∧ MemInv c m')

/-- R125 to R127: on a miss of the set-associative cache the way not marked MRU (way 0 if neither is) is taken; if its
line is valid and dirty, the whole line is written to the backing store at the address its tag and set give; then the
way holds the line of the missed offset, valid and clean, is MRU, and the other way is not. -/
def Obligations.MissWritesBackAndFills : Prop :=
  ∀ (c : Config) (m m' : Mem) (o : Nat) (w : Way), CacheInv c m →
    (m.cache.getSet (setIndex c o)).hit (lineTag c o) = none → cacheResolve c m o = .ok (w, m') →
    let s := setIndex c o
    let v := if (m.cache.getSet s).way0.mru then Way.w1 else Way.w0
    let old := (m.cache.getSet s).line v
    let new := (m'.cache.getSet s).line w
    w = v ∧
    (∀ x, m'.backing.get x =
      if old.valid = true ∧ old.dirty = true ∧ lineBase c old.tag s ≤ x ∧ x < lineBase c old.tag s + c.lineSize then
        old.data.getD (x - lineBase c old.tag s) 0
      else m.backing.get x) ∧
    new.tag = lineTag c o ∧ new.valid = true ∧ new.dirty = false ∧ new.mru = true ∧
    (∀ k, k < c.lineSize → new.data.getD k 0 = m'.backing.get (o - lineOffset c o + k)) ∧
    (∀ u, u ≠ v → ((m'.cache.getSet s).line u).mru = false) ∧
    m'.cache.misses = m.cache.misses + 1 ∧ m'.cache.hits = m.cache.hits

/-- R152, R155, R157: a miss of the block cache with every slot in use takes a slot with the smallest stamp; if its block
has a pending write, the whole block is written to the backing store at its start; the slot then holds the block of
the missed offset, filled from the backing store, used, without a pending write and with the newest stamp. -/
def Obligations.BlockMissEvictsOldest : Prop :=
  ∀ (c : Config) (m m' : Mem) (o k : Nat), BlockInv c m → 0 < c.nBlocks →
    m.blocks.slots.length = c.nBlocks → blockFind c m.blocks o = none → blockResolve c m o = .ok (k, m') →
    let old := m.blocks.slot k
    let new := m'.blocks.slot k
    k < c.nBlocks ∧
    (∀ j, j < c.nBlocks → old.stamp.toNat ≤ (m.blocks.slot j).stamp.toNat) ∧
    (∀ x, m'.backing.get x =
      if old.pending = true ∧ old.start ≤ x ∧ x < old.start + c.blockSize then old.data.getD (x - old.start) 0
      else m.backing.get x) ∧
    new.start = o - o % c.blockSize ∧ new.used = true ∧ new.pending = false ∧
    (∀ j, j < c.blockSize → new.data.getD j 0 = m'.backing.get (o - o % c.blockSize + j)) ∧
    new.stamp = m.blocks.seq + 1 ∧ m'.blocks.seq = m.blocks.seq + 1 ∧
    (∀ j, j ≠ k → m'.blocks.slot j = m.blocks.slot j)

/-- R134, R157, R158, R401, with either hierarchy: a load, store or atomic that misses, while a storage operation of the
miss fails, stops with the storage fault that names it: the write-back of the victim if it needs one, the fill after a
good write-back, or the fill alone. -/
def Obligations.StorageFailure : Prop :=
  ∀ (s : State) (rd rs1 rs2 : Reg) (imm : BitVec 12) (aq rl : Bool) (rest : List Bool),
    ∀ q ∈ ramForms s rd rs1 rs2 imm aq rl,
      let o := ramOffset s q.2.1
      IsRam s q.2.1 → FitsUnit s q.2.1 q.2.2 → Misses s o →
      (∀ base, victimBase s o = some base →
        (s.mem.io = true :: rest → exec q.1 s = .fault (.storageFault .write base)) ∧
        (s.mem.io = false :: true :: rest → exec q.1 s = .fault (.storageFault .read (o - o % s.cfg.unitSize)))) ∧
      (victimBase s o = none → s.mem.io = true :: rest →
        exec q.1 s = .fault (.storageFault .read (o - o % s.cfg.unitSize)))

/-! ### Atomics -/

/-- R311: LR.W reads the word into rd and sets the reservation tag to bits 28:0 of the offset, whatever aq and rl. -/
def Obligations.LoadReserved : Prop :=
  ∀ (s : State) (aq rl : Bool) (rd rs1 : Reg), s.Inv → NoFailure s.mem →
    let a := s.readReg rs1
    IsRam s a → FitsUnit s a 4 →
    CompletesRam (.lrW aq rl rd rs1) s { s with ef := { s.ef with res := (a - s.cfg.ramBase).extractLsb' 0 29 } } rd
      (ramWord s (ramOffset s a)) s.ram

/-- R312, R313: SC.W stores rs2 and writes 0 to rd when the tag equals bits 28:0 of the offset, and else stores nothing
and writes 1; it never changes the tag. -/
def Obligations.StoreConditional : Prop :=
  ∀ (s : State) (aq rl : Bool) (rd rs1 rs2 : Reg), s.Inv → NoFailure s.mem →
    let a := s.readReg rs1
    IsRam s a → FitsUnit s a 4 →
    (s.ef.res = (a - s.cfg.ramBase).extractLsb' 0 29 →
      CompletesRam (.scW aq rl rd rs1 rs2) s s rd 0 (storedImage s (ramOffset s a) 4 (s.readReg rs2))) ∧
    (s.ef.res ≠ (a - s.cfg.ramBase).extractLsb' 0 29 → CompletesRam (.scW aq rl rd rs1 rs2) s s rd 1 s.ram)

/-- R314 to R321, R326: each AMO gives rd the old word and stores its function of the old word and rs2, which is read
before rd is written (R324). -/
def Obligations.AtomicMemoryOperations : Prop :=
  ∀ (s : State) (aq rl : Bool) (rd rs1 rs2 : Reg), s.Inv → NoFailure s.mem →
    let a := s.readReg rs1
    let o := ramOffset s a
    let old := ramWord s o
    let v := s.readReg rs2
    IsRam s a → FitsUnit s a 4 →
    CompletesRam (.amoswapW aq rl rd rs1 rs2) s s rd old (storedImage s o 4 v) ∧
    CompletesRam (.amoaddW aq rl rd rs1 rs2) s s rd old (storedImage s o 4 (old + v)) ∧
    CompletesRam (.amoxorW aq rl rd rs1 rs2) s s rd old (storedImage s o 4 (old ^^^ v)) ∧
    CompletesRam (.amoandW aq rl rd rs1 rs2) s s rd old (storedImage s o 4 (old &&& v)) ∧
    CompletesRam (.amoorW aq rl rd rs1 rs2) s s rd old (storedImage s o 4 (old ||| v)) ∧
    CompletesRam (.amominW aq rl rd rs1 rs2) s s rd old (storedImage s o 4 (if v.toInt < old.toInt then v else old)) ∧
    CompletesRam (.amomaxW aq rl rd rs1 rs2) s s rd old (storedImage s o 4 (if v.toInt > old.toInt then v else old)) ∧
    CompletesRam (.amominuW aq rl rd rs1 rs2) s s rd old (storedImage s o 4 (if v.toNat < old.toNat then v else old)) ∧
    CompletesRam (.amomaxuW aq rl rd rs1 rs2) s s rd old (storedImage s o 4 (if v.toNat > old.toNat then v else old))

/-- R310: every atomic outside RAM, the MMIO window included, raises cause 7 with mtval the address. -/
def Obligations.AtomicOutsideRam : Prop :=
  ∀ (s : State) (aq rl : Bool) (rd rs1 rs2 : Reg), ¬ IsRam s (s.readReg rs1) →
    ∀ i ∈ [Instr.lrW aq rl rd rs1, .scW aq rl rd rs1 rs2, .amoswapW aq rl rd rs1 rs2, .amoaddW aq rl rd rs1 rs2,
      .amoxorW aq rl rd rs1 rs2, .amoandW aq rl rd rs1 rs2, .amoorW aq rl rd rs1 rs2, .amominW aq rl rd rs1 rs2,
      .amomaxW aq rl rd rs1 rs2, .amominuW aq rl rd rs1 rs2, .amomaxuW aq rl rd rs1 rs2],
      Raises i s 7 (s.readReg rs1)

/-- R43, R313 (a): of all instructions only LR.W changes the reservation tag. -/
def Obligations.OnlyLoadReservedSetsTag : Prop :=
  ∀ (i : Instr) (s t : State), exec i s = .next t → (∀ aq rl rd rs1, i ≠ .lrW aq rl rd rs1) → t.ef.res = s.ef.res

/-! ### System instructions -/

/-- R344: FENCE and FENCE.I, with any operands, and every word of opcode 0x0F, only advance pc. -/
def Obligations.Fences : Prop :=
  ∀ s : State,
    (∀ fm pred succ rs1 rd, exec (.fence fm pred succ rs1 rd) s = .next { s with pc := s.pc + 4 }) ∧
    (∀ imm rs1 rd, exec (.fenceI imm rs1 rd) s = .next { s with pc := s.pc + 4 }) ∧
    (∀ ir : Word, ir.extractLsb' 0 7 = 0x0F#7 → s.runWord ir = .next { s with pc := s.pc + 4 })

/-- R351, R352: ECALL raises cause 8 in user mode and cause 11 in every other, EBREAK cause 3, all with mtval the
instruction's own pc, under every fault policy. -/
def Obligations.CallAndBreakpoint : Prop :=
  ∀ s : State, (s.ef.priv = 0 → Raises .ecall s 8 s.pc) ∧ (s.ef.priv ≠ 0 → Raises .ecall s 11 s.pc) ∧
    Raises .ebreak s 3 s.pc

/-- R355: MRET in every privilege: MIE from MPIE, MPIE set, MPP the privilege it runs in, every other mstatus bit
clear, PRIV from the old MPP, pc from mepc; nothing else changes. -/
def Obligations.TrapReturn : Prop :=
  ∀ s : State, exec .mret s = .next { s with
    pc := s.csr.mepc
    ef := { s.ef with priv := s.csr.mstatus.extractLsb' 11 2 }
    csr := { s.csr with mstatus :=
      ((s.csr.mstatus >>> 7) &&& 1) <<< 3 ||| s.ef.priv.setWidth 32 <<< 11 ||| 1 <<< 7 } }

/-- R357: WFI sets mstatus.MIE and the WFI flag, advances pc, and ends the call with outcome 1, `cycle` unchanged. -/
def Obligations.WaitForInterrupt : Prop :=
  ∀ s : State, exec .wfi s = .next { s with
    pc := s.pc + 4
    ef := { s.ef with wfi := true }
    csr := { s.csr with mstatus := s.csr.mstatus ||| 8 }
    call := { s.call with remaining := 0, outcome := some 1 } }

/-- R340 to R342, R361 to R366, R66: on each of the eight stored CSRs, each CSR instruction gives rd the old value and
stores the new one unmasked, and changes nothing else. -/
def Obligations.StoredCsrs : Prop :=
  ∀ (s : State) (rd rs1 : Reg) (uimm : BitVec 5),
    ∀ p ∈ ([(0x300, (·.mstatus), fun c v => { c with mstatus := v }), (0x304, (·.mie), fun c v => { c with mie := v }),
        (0x305, (·.mtvec), fun c v => { c with mtvec := v }), (0x340, (·.mscratch), fun c v => { c with mscratch := v }),
        (0x341, (·.mepc), fun c v => { c with mepc := v }), (0x342, (·.mcause), fun c v => { c with mcause := v }),
        (0x343, (·.mtval), fun c v => { c with mtval := v }), (0x344, (·.mip), fun c v => { c with mip := v })] :
        List (CsrNum × (CsrFile → Word) × (CsrFile → Word → CsrFile))),
    ∀ q ∈ csrForms s rd rs1 uimm p.1,
      Completes q.1 s { s with csr := p.2.2 s.csr (q.2 (p.2.1 s.csr)) } rd (p.2.1 s.csr)

/-- R52, R53, R61, R63 to R65: the read-only CSRs and every unlisted number: rd gets the value (0 for an unlisted one),
the write is ignored, and nothing traps. -/
def Obligations.ReadOnlyCsrs : Prop :=
  ∀ (s : State) (rd rs1 : Reg) (uimm : BitVec 5) (n : CsrNum), s.cfg.Wf →
    n ∉ [0x300#12, 0x304#12, 0x305#12, 0x340#12, 0x341#12, 0x342#12, 0x343#12, 0x344#12] →
    n ∉ [s.cfg.csrConsoleOut, s.cfg.csrConsoleIn, s.cfg.csrBlkPtr, s.cfg.csrBlkOff, s.cfg.csrBlkLen, s.cfg.csrBlkGo] →
    ∀ q ∈ csrForms s rd rs1 uimm n, Completes q.1 s s rd (
      if n = 0x301#12 then s.cfg.misa
      else if n = 0xC00#12 then s.call.cyc.extractLsb' 0 32
      else if n = 0xF11#12 then s.cfg.mvendorid
      else if n = s.cfg.csrBlkSize then BitVec.ofNat 32 s.cfg.blkDevSize
      else if n = s.cfg.csrBlkErr then s.blk.err
      else 0)

/-- R62, R342 (a), (d), R440: every CSR instruction on CSR_CONSOLE_OUT offers the byte it writes and reads 0; every one
on CSR_CONSOLE_IN takes the oldest key, or reads -1. (An offer to a full queue under Wait follows log 10.) -/
def Obligations.ConsoleCsrs : Prop :=
  ∀ (s : State) (rd rs1 : Reg) (uimm : BitVec 5), s.cfg.Wf →
    (∀ q ∈ csrForms s rd rs1 uimm s.cfg.csrConsoleOut,
      Completes q.1 s { s with con := queueAfter s ((q.2 0).extractLsb' 0 8) } rd 0) ∧
    (∀ q ∈ csrForms s rd rs1 uimm s.cfg.csrConsoleIn, Completes q.1 s { s with kb := s.kb.tail } rd (keyAnswer s))

/-- R450, R451: writes of CSR_BLK_PTR and CSR_BLK_LEN store; a write of CSR_BLK_OFF seeks: offset and position set, the
result latched. All three read 0. (A failing seek also sets offset and position: log 27.) -/
def Obligations.BlockRegisters : Prop :=
  ∀ (s : State) (rd rs1 : Reg) (uimm : BitVec 5), s.cfg.Wf →
    (∀ q ∈ csrForms s rd rs1 uimm s.cfg.csrBlkPtr, Completes q.1 s { s with blk := { s.blk with ptr := q.2 0 } } rd 0) ∧
    (∀ q ∈ csrForms s rd rs1 uimm s.cfg.csrBlkLen, Completes q.1 s { s with blk := { s.blk with len := q.2 0 } } rd 0) ∧
    (∀ q ∈ csrForms s rd rs1 uimm s.cfg.csrBlkOff, Completes q.1 s
      { s with
        blk := { s.blk with
          off := q.2 0
          pos := (q.2 0).setWidth 64
          err := if s.mem.io.head? = some true then s.cfg.blkErrIo else 0 }
        mem := { s.mem with io := s.mem.io.tail } } rd 0)

/-- R454, R456, a read transfer without failure: exactly `blk_len` bytes of the file, from the position on, land in RAM
at `blk_ptr`; every other byte of RAM is unchanged; blk_err is 0 and the position ends after the last byte. -/
def Obligations.BlockTransferIn : Prop :=
  ∀ (s : State) (rd rs1 : Reg) (uimm : BitVec 5), s.Inv → NoFailure s.mem →
    let p := ramOffset s s.blk.ptr
    let l := s.blk.len.toNat
    let f := s.blk.pos.toNat
    s.blk.ptr.toNat % 4 = 0 → l % 4 = 0 → (0 < l → IsRam s s.blk.ptr ∧ p + l ≤ s.cfg.ramSize) →
    f + l ≤ s.cfg.blkDevSize →
    ∀ q ∈ csrForms s rd rs1 uimm s.cfg.csrBlkGo, q.2 0 = 0 →
      CompletesRam q.1 s { s with blk := { s.blk with err := 0, pos := BitVec.ofNat 64 (f + l) } } rd 0
        fun x => if p ≤ x ∧ x < p + l then s.blk.file.get (f + (x - p)) else s.ram x

/-- R454, a write transfer without failure: exactly `blk_len` bytes of RAM from `blk_ptr` on land in the file at the
position; every other byte of the file and all of RAM are unchanged; blk_err is 0 and the position moves on. -/
def Obligations.BlockTransferOut : Prop :=
  ∀ (s : State) (rd rs1 : Reg) (uimm : BitVec 5), s.Inv → NoFailure s.mem →
    let p := ramOffset s s.blk.ptr
    let l := s.blk.len.toNat
    let f := s.blk.pos.toNat
    s.blk.ptr.toNat % 4 = 0 → l % 4 = 0 → (0 < l → IsRam s s.blk.ptr ∧ p + l ≤ s.cfg.ramSize) →
    f + l ≤ s.cfg.blkDevSize →
    ∀ q ∈ csrForms s rd rs1 uimm s.cfg.csrBlkGo, q.2 0 = 1 →
      ∃ t, exec q.1 s = .next t ∧ RegWritten s t rd 0 ∧ t.pc = s.pc + 4 ∧ (∀ x, t.ram x = s.ram x) ∧
        SystemKept { s with blk := t.blk } t ∧
        t.blk = { s.blk with err := 0, pos := BitVec.ofNat 64 (f + l), file := t.blk.file } ∧
        (∀ y, t.blk.file.get y = if f ≤ y ∧ y < f + l then s.ram (p + (y - f)) else s.blk.file.get y)

/-- R454, R455, a transfer while operations may fail: it stops with a storage fault, if one is coming, or the instruction
completes, with `moved` bytes moved as without failure. They are all of them, and blk_err is 0, exactly if no operation
used failed; else they are the whole sectors before a failing one, blk_err is BLK_ERR_IO, and what lies after them is
unchanged, but for the sector of the file that a failing write may have torn (its bytes are free: log 32). A read
transfer whose first storage operation fails completes, and moves nothing. -/
def Obligations.BlockFailures : Prop :=
  ∀ (s : State) (rd rs1 : Reg) (uimm : BitVec 5), s.Inv →
    let p := ramOffset s s.blk.ptr
    let l := s.blk.len.toNat
    let f := s.blk.pos.toNat
    s.blk.ptr.toNat % 4 = 0 → l % 4 = 0 → (0 < l → IsRam s s.blk.ptr ∧ p + l ≤ s.cfg.ramSize) →
    f + l ≤ s.cfg.blkDevSize →
    ∀ q ∈ csrForms s rd rs1 uimm s.cfg.csrBlkGo, q.2 0 = 0 ∨ q.2 0 = 1 →
      ((true ∈ s.mem.io ∧ ∃ op o, exec q.1 s = .fault (.storageFault op o)) ∨
        ∃ (t : State) (moved : Nat) (used : List Bool), exec q.1 s = .next t ∧ RegWritten s t rd 0 ∧ t.pc = s.pc + 4 ∧
          s.mem.io = used ++ t.mem.io ∧ moved ≤ l ∧ (true ∈ used ↔ moved < l) ∧
          (moved < l → moved % s.cfg.sectorSize = 0) ∧
          SystemKept { s with blk := t.blk } t ∧
          (let torn := min s.cfg.sectorSize (l - moved)
            let blk := { s.blk with err := if moved = l then 0 else s.cfg.blkErrIo, pos := BitVec.ofNat 64 (f + moved) }
            (q.2 0 = 0 → t.blk = blk ∧
              ∀ x, t.ram x = if p ≤ x ∧ x < p + moved then s.blk.file.get (f + (x - p)) else s.ram x) ∧
            (q.2 0 = 1 → t.blk = { blk with file := t.blk.file, torn := s.blk.torn + torn } ∧ (∀ x, t.ram x = s.ram x) ∧
              ∀ y, ¬ (f + moved ≤ y ∧ y < f + moved + torn) →
                t.blk.file.get y = if f ≤ y ∧ y < f + moved then s.ram (p + (y - f)) else s.blk.file.get y))) ∧
      (∀ rest, 0 < l → s.mem.io = true :: rest → q.2 0 = 0 →
        Completes q.1 s { s with blk := { s.blk with err := s.cfg.blkErrIo }, mem := { s.mem with io := rest } } rd 0)

/-- R454: the four refusals of CSR_BLK_GO, in the order of their checks. -/
def Obligations.BlockRefusals : Prop :=
  ∀ (s : State) (rd rs1 : Reg) (uimm : BitVec 5), s.cfg.Wf →
    ∀ q ∈ csrForms s rd rs1 uimm s.cfg.csrBlkGo,
      let d := q.2 0
      let aligned := s.blk.ptr.toNat % 4 = 0 ∧ s.blk.len.toNat % 4 = 0
      let inRam := 0 < s.blk.len.toNat → IsRam s s.blk.ptr ∧ ramOffset s s.blk.ptr + s.blk.len.toNat ≤ s.cfg.ramSize
      let inDevice := s.blk.pos.toNat + s.blk.len.toNat ≤ s.cfg.blkDevSize
      (d ≠ 0 ∧ d ≠ 1 → exec q.1 s = .refused .blkDirection) ∧
      ((d = 0 ∨ d = 1) ∧ ¬ aligned → exec q.1 s = .refused .blkAlign) ∧
      ((d = 0 ∨ d = 1) ∧ aligned ∧ ¬ inRam → exec q.1 s = .refused .blkRamRange) ∧
      ((d = 0 ∨ d = 1) ∧ aligned ∧ inRam ∧ ¬ inDevice → exec q.1 s = .refused .blkDevRange)

/-- R65: a CSR instruction does the same in every privilege: with another PRIV it stops, or completes, alike, and
leaves the same state but for PRIV. -/
def Obligations.CsrIgnoresPrivilege : Prop :=
  ∀ (s : State) (rd rs1 : Reg) (uimm : BitVec 5) (n : CsrNum) (p : BitVec 2),
    ∀ q ∈ csrForms s rd rs1 uimm n,
      exec q.1 { s with ef := { s.ef with priv := p } } =
        match exec q.1 s with
        | .next t => .next { t with ef := { t.ef with priv := p } }
        | .fault f => .fault f
        | .refused r => .refused r

/-- R414: the only ways to change the mode are MRET, which gives it the old MPP, and trap entry, which sets it to 3 and
saves it into MPP: of all instructions, and of all steps of the machine but the host's reboot (R501). -/
def Obligations.ModeChanges : Prop :=
  (∀ (i : Instr) (s t : State), exec i s = .next t →
    t.ef.priv = s.ef.priv ∨ (i = .mret ∧ t.ef.priv = s.csr.mstatus.extractLsb' 11 2) ∨
    (t.ef.priv = 3 ∧ t.pc = s.csr.mtvec ∧ t.csr.mepc = s.pc ∧ t.csr.mstatus.extractLsb' 11 2 = s.ef.priv)) ∧
  (∀ s t : State, s.Inv → (∀ image dtb cmdline rest, s.agenda ≠ .reboot image dtb cmdline :: rest) →
    Machine.step s = .next t →
    t.ef.priv = s.ef.priv ∨
    (decodeWord (ramWord s (ramOffset s s.pc)) = .ok .mret ∧ t.ef.priv = s.csr.mstatus.extractLsb' 11 2) ∨
    (t.ef.priv = 3 ∧ t.pc = s.csr.mtvec ∧ t.csr.mepc = s.pc ∧ t.csr.mstatus.extractLsb' 11 2 = s.ef.priv))

/-- R42: of all instructions only WFI changes the WFI flag, and it sets it. -/
def Obligations.OnlyWfiSleeps : Prop :=
  ∀ (i : Instr) (s t : State), exec i s = .next t → t.ef.wfi = if i = .wfi then true else s.ef.wfi

/-- R45, R46, R421: no instruction changes mtime, the parameters or the host's calls, and one changes mtimecmp only by a
store to one of its two halves. -/
def Obligations.TimeIsTheHosts : Prop :=
  ∀ (i : Instr) (s t : State), exec i s = .next t →
    t.mtime = s.mtime ∧ t.cfg = s.cfg ∧ t.calls = s.calls ∧ t.agenda = s.agenda ∧
    (t.mtimecmp = s.mtimecmp ∨ ∃ rs1 rs2 imm,
      (i = .sb rs1 rs2 imm ∨ i = .sh rs1 rs2 imm ∨ i = .sw rs1 rs2 imm) ∧
      (s.readReg rs1 + imm.signExtend 32 = s.cfg.mtimecmpLo ∨ s.readReg rs1 + imm.signExtend 32 = s.cfg.mtimecmpHi))

/-! ### The start of a call, the session and the other agents -/

/-- R402 to R406, R421, for a call the host has listed: the count of a call before it that returned 1 is added to `cycle`
(log 19 says when); time advances; the timer condition (strict, off while mtimecmp is 0) sets mip bit 7 and ends a
sleep, else clears it; a hart still asleep returns 1; a pending and enabled timer interrupt is entered and returns 0; a
count of 0 returns 0; else the step makes the first attempt of the batch (in the same step: log 6). -/
def Obligations.CallStart : Prop :=
  ∀ (s : State) (h : HostCall) (rest : List HostCall), s.agenda = [] → s.call.remaining = 0 → s.sessionOver = false →
    s.calls = h :: rest →
    let now := s.mtime + h.elapsed.setWidth 64
    let fires := s.mtimecmp.toNat < now.toNat ∧ s.mtimecmp ≠ 0
    let cycle := if s.call.outcome = some 1 then s.cycle + s.call.count.setWidth 64 else s.cycle
    let u : State := { s with
      cycle := cycle
      mtime := now
      calls := rest
      ef := { s.ef with wfi := if fires then false else s.ef.wfi }
      csr := { s.csr with mip := (s.csr.mip &&& 0xFFFFFF7F) ||| (if fires then 0x80 else 0) }
      call := ⟨h.count.toNat, h.count, cycle, none⟩ }
    (u.ef.wfi = true → Machine.step s = .next { u with call := { u.call with remaining := 0, outcome := some 1 } }) ∧
    (u.ef.wfi = false → fires → s.csr.mie.getLsbD 7 = true → s.csr.mstatus.getLsbD 3 = true →
      ∃ t, Machine.step s = .next t ∧ TrapEntered u t 0x80000007 0 s.pc ∧ t.cycle = u.cycle ∧
        t.call = { u.call with remaining := 0, outcome := some 0 }) ∧
    (u.ef.wfi = false → ¬ (fires ∧ s.csr.mie.getLsbD 7 = true ∧ s.csr.mstatus.getLsbD 3 = true) → h.count = 0 →
      Machine.step s = .next { u with call := { u.call with remaining := 0, outcome := some 0 } }) ∧
    (u.ef.wfi = false → ¬ (fires ∧ s.csr.mie.getLsbD 7 = true ∧ s.csr.mstatus.getLsbD 3 = true) → h.count ≠ 0 →
      Machine.step s = Machine.step u)

/-- R421, R431: after an outcome-1 call the host adds that call's count to `cycle` before the next one (log 19 says
when), and where it has listed no call it makes the default one (log 7). -/
def Obligations.HostBetweenCalls : Prop :=
  ∀ s : State, s.agenda = [] → s.call.remaining = 0 → s.sessionOver = false →
    (s.call.outcome = some 1 → Machine.step s =
      Machine.step { s with cycle := s.cycle + s.call.count.setWidth 64, call := { s.call with outcome := some 0 } }) ∧
    (s.calls = [] → Machine.step s = Machine.step { s with calls := [s.cfg.defaultCall] })

/-- R401, R431: an outcome other than 0 and 1 ends the session, with the result the table gives; after it no call is
made, and the hart's steps change nothing (log 11). -/
def Obligations.SessionEnds : Prop :=
  (∀ (c : Config) (v : Word),
    (sessionResult c v = none ↔ v = 0 ∨ v = 1) ∧
    sessionResult c 0x7777 = some .reboot ∧ sessionResult c 0x5555 = some .poweroff ∧
    sessionResult c 3 = some c.halt3Result ∧
    (v ∉ [0, 1, 3, 0x7777, 0x5555] → sessionResult c v = some .unknownFailure)) ∧
  (∀ (s : State) (v : Word), s.agenda = [] → s.call.remaining = 0 → s.call.outcome = some v → v ≠ 0 → v ≠ 1 →
    Machine.step s = .next s)

/-- R471: the console task appends a key unless the keyboard queue is full (log 8 says what becomes of a key then), and
takes the oldest byte of the console output queue; neither touches anything else. -/
def Obligations.ConsoleTask : Prop :=
  ∀ (s : State) (rest : List Move),
    (∀ b, s.agenda = .key b :: rest → Machine.step s = .next { s with
      agenda := rest, kb := if s.kb.length < s.cfg.keyboardCap then s.kb ++ [b] else s.kb }) ∧
    (s.agenda = .drain :: rest → Machine.step s = .next { s with agenda := rest, con := s.con.tail })

/-- R133: the host's `reset()` between calls clears every way and the counters and writes nothing back, so
that the image is the backing store's. -/
def Obligations.HostCacheReset : Prop :=
  ∀ (s : State) (rest : List Move), s.agenda = .cacheReset :: rest → s.call.remaining = 0 →
    s.cfg.variant = .setAssoc →
    ∃ t, Machine.step s = .next t ∧ t = { s with agenda := rest, mem := t.mem } ∧ t.mem.backing = s.mem.backing ∧
      t.mem.cache.hits = 0 ∧ t.mem.cache.misses = 0 ∧
      (∀ k w, let l := (t.mem.cache.getSet k).line w
        l.tag = 0 ∧ l.valid = false ∧ l.dirty = false ∧ l.mru = false) ∧
      (∀ x, t.ram x = s.mem.backing.get x)

/-- R501, R503, R504: a reboot between calls sets the hart, CSR, timer and device registers to their reset values, empties
the cache of either kind, and loads image, DTB and command line again; the block file and the queues survive. (The
order of the loads, and what of the other RAM survives, is log 20; the count of free bytes goes on, log 32.) -/
def Obligations.Reboot : Prop :=
  ∀ (s : State) (image dtb cmdline : List Byte) (rest : List Move), s.agenda = .reboot image dtb cmdline :: rest →
    s.call.remaining = 0 → bootFits s.cfg image dtb cmdline = true →
    ∃ t, Machine.step s = .next t ∧ t.readReg 10 = 0 ∧
      t.readReg 11 = s.cfg.ramBase + BitVec.ofNat 32 (s.cfg.ramSize - s.cfg.dtbSize) ∧
      (∀ r, r ≠ 10 → r ≠ 11 → t.readReg r = 0) ∧ t.pc = s.cfg.ramBase ∧ t.ef = ⟨3#2, false, 0⟩ ∧
      t.csr = ⟨0, 0, 0, 0, 0, 0, 0, 0⟩ ∧ t.cycle = 0 ∧ t.mtime = 0 ∧ t.mtimecmp = 0 ∧
      t.mem.cache = SetCache.empty ∧ t.mem.blocks = BlockCache.empty ∧ t.mem.io = s.mem.io ∧
      (s.Inv → Loaded s.cfg image dtb cmdline t) ∧
      t.blk = ⟨0, 0, 0, 0, 0, s.blk.file, s.blk.torn⟩ ∧ t.kb = s.kb ∧ t.con = s.con ∧ t.cfg = s.cfg ∧
      t.sessionOver = false

/-- R503: after boot loading RAM holds the image, the command line with its final zero, the patched field and the DTB's
other bytes, with either hierarchy. (Where the command line overlaps the patched field it stands, for the patch is
written before it, and the placeholder is read in memory order: log 20.) -/
def Obligations.BootLoading : Prop :=
  ∀ (c : Config) (image dtb cmdline : List Byte) (s : State), c.Wf → State.boot c image dtb cmdline = some s →
    Loaded c image dtb cmdline s
end

