-- ==== Sys2Proof/Laws/Table.lean ====
section
/-! SUPPORT. The laws of sparse tables: what a write changes, that it keeps the canonical form, and that equal
contents are equal data. -/

namespace Sys2Proof.Machine

variable {β : Type} {d : β}

theorem tableGet_insert (m : List (Nat × β)) (a : Nat) (v : β) (b : Nat) :
    tableGet d (tableInsert m a v) b = if b = a then v else tableGet d m b := by
  induction m with
  | nil => simp [tableInsert, tableGet, eq_comm]
  | cons e m ih =>
    obtain ⟨k, w⟩ := e
    simp only [tableInsert]
    split
    · simp [tableGet, eq_comm]
    · split
      · simp only [tableGet]; grind
      · simp only [tableGet, ih]; grind

/-- Every listed key lies at or above `lo`. -/
theorem tableGet_below [DecidableEq β] {lo : Nat} {m : List (Nat × β)} (h : tableWfFrom d lo m = true) {a : Nat}
    (ha : a < lo) : tableGet d m a = d := by
  induction m generalizing lo with
  | nil => rfl
  | cons e m ih =>
    obtain ⟨k, w⟩ := e
    simp only [tableWfFrom, Bool.and_eq_true, decide_eq_true_eq] at h
    simp only [tableGet]
    rw [if_neg (by omega)]
    exact ih h.2 (by omega)

theorem tableGet_erase [DecidableEq β] {lo : Nat} {m : List (Nat × β)} (h : tableWfFrom d lo m = true) (a b : Nat) :
    tableGet d (tableErase m a) b = if b = a then d else tableGet d m b := by
  induction m generalizing lo with
  | nil => simp [tableErase, tableGet]
  | cons e m ih =>
    obtain ⟨k, w⟩ := e
    simp only [tableWfFrom, Bool.and_eq_true, decide_eq_true_eq] at h
    simp only [tableErase]
    split
    · next hk =>
      subst hk
      simp only [tableGet]
      by_cases hb : b = k
      · subst hb; simp [tableGet_below h.2 (Nat.lt_succ_self b)]
      · simp [hb, Ne.symm hb]
    · next hk =>
      simp only [tableGet, ih h.2]
      grind

theorem tableWfFrom_insert [DecidableEq β] {lo : Nat} {m : List (Nat × β)} (h : tableWfFrom d lo m = true) {a : Nat}
    {v : β} (ha : lo ≤ a) (hv : v ≠ d) : tableWfFrom d lo (tableInsert m a v) = true := by
  induction m generalizing lo with
  | nil => simp [tableInsert, tableWfFrom, ha, hv]
  | cons e m ih =>
    obtain ⟨k, w⟩ := e
    simp only [tableWfFrom, Bool.and_eq_true, decide_eq_true_eq] at h
    simp only [tableInsert]
    split
    · simp [tableWfFrom, ha, hv, h]; omega
    · split
      · next hk => subst hk; simp [tableWfFrom, h, hv]
      · simp [tableWfFrom, h, ih h.2 (show k + 1 ≤ a by omega)]

theorem tableWfFrom_mono [DecidableEq β] {lo lo' : Nat} {m : List (Nat × β)} (h : tableWfFrom d lo m = true)
    (hl : lo' ≤ lo) : tableWfFrom d lo' m = true := by
  cases m with
  | nil => rfl
  | cons e m =>
    simp only [tableWfFrom, Bool.and_eq_true, decide_eq_true_eq] at h ⊢
    exact ⟨⟨by omega, h.1.2⟩, h.2⟩

theorem tableWfFrom_erase [DecidableEq β] {lo : Nat} {m : List (Nat × β)} (h : tableWfFrom d lo m = true) (a : Nat) :
    tableWfFrom d lo (tableErase m a) = true := by
  induction m generalizing lo with
  | nil => rfl
  | cons e m ih =>
    obtain ⟨k, w⟩ := e
    simp only [tableWfFrom, Bool.and_eq_true, decide_eq_true_eq] at h
    simp only [tableErase]
    split
    · exact tableWfFrom_mono h.2 (by omega)
    · simp [tableWfFrom, h, ih h.2]

/-- Reading after a write: the value written, and every other key as before. -/
theorem tableGet_put [DecidableEq β] {m : List (Nat × β)} (h : tableWf d m = true) (a : Nat) (v : β) (b : Nat) :
    tableGet d (tablePut d m a v) b = if b = a then v else tableGet d m b := by
  unfold tablePut
  split
  · next hv => rw [tableGet_erase h, hv]
  · exact tableGet_insert m a v b

/-- A write keeps the canonical form. -/
theorem tableWf_put [DecidableEq β] {m : List (Nat × β)} (h : tableWf d m = true) (a : Nat) (v : β) :
    tableWf d (tablePut d m a v) = true := by
  unfold tablePut
  split
  · exact tableWfFrom_erase h a
  · next hv => exact tableWfFrom_insert h (Nat.zero_le a) hv

theorem table_ext_from [DecidableEq β] {lo : Nat} {m m' : List (Nat × β)} (h : tableWfFrom d lo m = true)
    (h' : tableWfFrom d lo m' = true) (e : ∀ a, tableGet d m a = tableGet d m' a) : m = m' := by
  induction m generalizing lo m' with
  | nil =>
    cases m' with
    | nil => rfl
    | cons e' m' =>
      obtain ⟨k, w⟩ := e'
      simp only [tableWfFrom, Bool.and_eq_true, decide_eq_true_eq] at h'
      have := e k
      simp [tableGet] at this
      exact absurd this.symm h'.1.2
  | cons x m ih =>
    obtain ⟨k, w⟩ := x
    have hx := h
    simp only [tableWfFrom, Bool.and_eq_true, decide_eq_true_eq] at hx
    cases m' with
    | nil =>
      have := e k
      simp [tableGet] at this
      exact absurd this hx.1.2
    | cons y m' =>
      obtain ⟨k', w'⟩ := y
      have hy := h'
      simp only [tableWfFrom, Bool.and_eq_true, decide_eq_true_eq] at hy
      have hk : k = k' := by
        rcases Nat.lt_trichotomy k k' with hlt | heq | hgt
        · have := e k
          simp only [tableGet, if_true, if_neg (Nat.ne_of_gt hlt)] at this
          rw [tableGet_below hy.2 (by omega)] at this
          exact absurd this hx.1.2
        · exact heq
        · have := e k'
          simp only [tableGet, if_true, if_neg (Nat.ne_of_gt hgt)] at this
          rw [tableGet_below hx.2 (by omega)] at this
          exact absurd this.symm hy.1.2
      subst hk
      have hw : w = w' := by have := e k; simpa [tableGet] using this
      subst hw
      congr 1
      refine ih hx.2 hy.2 fun a => ?_
      have ha := e a
      simp only [tableGet] at ha
      by_cases hka : k = a
      · subst hka
        rw [tableGet_below hx.2 (by omega), tableGet_below hy.2 (by omega)]
      · simpa [hka] using ha

/-- Equal contents are equal data. -/
theorem table_ext [DecidableEq β] {m m' : List (Nat × β)} (h : tableWf d m = true) (h' : tableWf d m' = true)
    (e : ∀ a, tableGet d m a = tableGet d m' a) : m = m' := table_ext_from h h' e

/-! ### Bytes -/

theorem Memory.get_put {m : Memory} (h : m.wf = true) (a : Nat) (v : Byte) (b : Nat) :
    (m.put a v).get b = if b = a then v else m.get b := tableGet_put h a v b

theorem Memory.wf_put {m : Memory} (h : m.wf = true) (a : Nat) (v : Byte) : (m.put a v).wf = true :=
  tableWf_put h a v

theorem Memory.wf_putN {m : Memory} (h : m.wf = true) (a : Nat) (bs : List Byte) : (m.putN a bs).wf = true := by
  induction bs generalizing m a with
  | nil => exact h
  | cons b bs ih => exact ih (Memory.wf_put h a b) (a + 1)

/-- Reading after a write of several bytes. -/
theorem Memory.get_putN {m : Memory} (h : m.wf = true) (a : Nat) (bs : List Byte) (o : Nat) :
    (m.putN a bs).get o = if a ≤ o ∧ o < a + bs.length then bs.getD (o - a) 0 else m.get o := by
  induction bs generalizing m a with
  | nil => simp only [Memory.putN, List.length_nil]; rw [if_neg (by omega)]
  | cons b bs ih =>
    simp only [Memory.putN, List.length_cons]
    rw [ih (Memory.wf_put h a b), Memory.get_put h]
    by_cases h1 : a + 1 ≤ o ∧ o < a + 1 + bs.length
    · rw [if_pos h1, if_pos (by omega)]
      obtain ⟨k, hk⟩ : ∃ k, o - a = k + 1 := ⟨o - a - 1, by omega⟩
      rw [hk, List.getD_cons_succ, show o - (a + 1) = k by omega]
    · rw [if_neg h1]
      by_cases h2 : o = a
      · subst h2; simp
      · rw [if_neg h2, if_neg (by omega)]

theorem Memory.length_getN (m : Memory) (a n : Nat) : (m.getN a n).length = n := by
  induction n generalizing a with
  | zero => rfl
  | succ n ih => simp [Memory.getN, ih]

theorem Memory.getD_getN (m : Memory) (a n k : Nat) (h : k < n) : (m.getN a n).getD k 0 = m.get (a + k) := by
  induction n generalizing a k with
  | zero => omega
  | succ n ih =>
    cases k with
    | zero => simp [Memory.getN]
    | succ k => simp only [Memory.getN, List.getD_cons_succ]; rw [ih (a + 1) k (by omega)]; congr 1; omega

/-- Several bytes read the same where each byte does. -/
theorem Memory.getN_congr {m m' : Memory} {a n : Nat} (h : ∀ k, k < n → m.get (a + k) = m'.get (a + k)) :
    m.getN a n = m'.getN a n := by
  induction n generalizing a with
  | zero => rfl
  | succ n ih =>
    simp only [Memory.getN]
    rw [show m.get a = m'.get a by simpa using h 0 (by omega),
      ih fun k hk => by have := h (k + 1) (by omega); rwa [show a + (k + 1) = a + 1 + k by omega] at this]

/-! ### Line and block data -/

theorem length_patch {data : List Byte} {k : Nat} {bs : List Byte} (h : k + bs.length ≤ data.length) :
    (patch data k bs).length = data.length := by
  simp [patch]; omega

theorem getD_patch {data : List Byte} {k : Nat} {bs : List Byte} (h : k + bs.length ≤ data.length) (j : Nat) :
    (patch data k bs).getD j 0 = if k ≤ j ∧ j < k + bs.length then bs.getD (j - k) 0 else data.getD j 0 := by
  simp only [patch, List.getD_eq_getElem?_getD, List.getElem?_append, List.length_take, List.length_append,
    List.getElem?_take, List.getElem?_drop]
  grind

theorem getD_slice (data : List Byte) (k n j : Nat) (h : j < n) : (slice data k n).getD j 0 = data.getD (k + j) 0 := by
  simp [slice, List.getD_eq_getElem?_getD, h]

theorem length_slice {data : List Byte} {k n : Nat} (h : k + n ≤ data.length) : (slice data k n).length = n := by
  simp [slice]; omega

end Sys2Proof.Machine
end

