-- ==== Sys2Proof/Laws/Cache.lean ====
section
/-! SUPPORT. The laws of the set-associative cache: a resolve keeps the logical image and the invariants (R131,
R132), a read returns bytes of the image, a write changes exactly the bytes it names. -/

namespace Sys2Proof

theorem Config.lineSize_pos (c : Config) : 0 < c.lineSize := Nat.two_pow_pos _

theorem Config.numSets_pos (c : Config) : 0 < c.numSets := Nat.two_pow_pos _

theorem Config.blockSize_pos (c : Config) : 0 < c.blockSize := Nat.two_pow_pos _

end Sys2Proof

namespace Sys2Proof.Machine

/-! ### Address arithmetic (R121) -/

theorem setIndex_lt (c : Config) (o : Nat) : setIndex c o < c.numSets := Nat.mod_lt _ c.numSets_pos

theorem lineOffset_lt (c : Config) (o : Nat) : lineOffset c o < c.lineSize := Nat.mod_lt _ c.lineSize_pos

theorem lineBase_parts (c : Config) (o : Nat) :
    lineBase c (lineTag c o) (setIndex c o) = o - lineOffset c o := by
  unfold lineBase lineTag setIndex lineOffset
  have h1 := Nat.div_add_mod (o / c.lineSize) c.numSets
  have h2 := Nat.div_add_mod o c.lineSize
  have h3 : o / c.lineSize / c.numSets * c.numSets + o / c.lineSize % c.numSets = o / c.lineSize := by
    rw [Nat.mul_comm]; exact h1
  rw [h3, Nat.mul_comm]
  omega

theorem lineOffset_le (c : Config) (o : Nat) : lineOffset c o ≤ o := Nat.mod_le _ _

/-- The offsets of a line are those of its tag and set. -/
theorem mem_line_iff (c : Config) {t s : Nat} (hs : s < c.numSets) (x : Nat) :
    (lineBase c t s ≤ x ∧ x < lineBase c t s + c.lineSize) ↔ (lineTag c x = t ∧ setIndex c x = s) := by
  have hL := c.lineSize_pos
  constructor
  · rintro ⟨h1, h2⟩
    have hq : x / c.lineSize = t * c.numSets + s := by
      unfold lineBase at h1 h2
      rw [Nat.div_eq_iff hL]
      constructor
      · rw [Nat.mul_comm] at h1 ⊢; omega
      · rw [Nat.mul_comm] at h2 ⊢; omega
    unfold lineTag setIndex
    rw [hq]
    constructor
    · rw [Nat.mul_comm, Nat.mul_add_div c.numSets_pos, Nat.div_eq_of_lt hs]; rfl
    · rw [Nat.mul_comm, Nat.mul_add_mod, Nat.mod_eq_of_lt hs]
  · rintro ⟨rfl, rfl⟩
    rw [lineBase_parts]
    have := lineOffset_lt c x
    have := lineOffset_le c x
    omega

theorem offset_in_line (c : Config) {t s x : Nat} (ht : lineTag c x = t) (hs : setIndex c x = s) :
    x - lineBase c t s = lineOffset c x := by
  subst ht hs
  rw [lineBase_parts]
  have := lineOffset_le c x
  omega

theorem base_add_offset (c : Config) {t s x : Nat} (ht : lineTag c x = t) (hs : setIndex c x = s) :
    lineBase c t s + lineOffset c x = x := by
  subst ht hs
  rw [lineBase_parts]
  have := lineOffset_le c x
  omega

/-! ### Sets and ways -/

@[simp] theorem CacheSet.line_setLine (cs : CacheSet) (w w' : Way) (l : Line) :
    (cs.setLine w l).line w' = if w' = w then l else cs.line w' := by
  cases w <;> cases w' <;> simp [CacheSet.setLine, CacheSet.line]

@[simp] theorem CacheSet.line_setMru (cs : CacheSet) (w w' : Way) :
    (cs.setMru w).line w' = { cs.line w' with mru := decide (w' = w) } := by
  cases w <;> cases w' <;> simp [CacheSet.setMru, CacheSet.line]

/-- The two ways of a set, by their lines (R122). -/
theorem setOk_iff (c : Config) (b : Memory) (s : Nat) (cs : CacheSet) :
    SetOk c b s cs ↔
      (∀ w w', w ≠ w' → (cs.line w).valid = true → (cs.line w').valid = true → (cs.line w).tag ≠ (cs.line w').tag) ∧
      (∀ w w', (cs.line w).mru = true → (cs.line w').mru = true → w = w') ∧
      ∀ w, LineOk c b s (cs.line w) := by
  unfold SetOk
  constructor
  · rintro ⟨h1, h2, h3⟩
    refine ⟨?_, ?_, h3⟩
    · rintro (_ | _) (_ | _) hne hv hv'
      · exact absurd rfl hne
      · exact h1 hv hv'
      · exact (h1 hv' hv).symm
      · exact absurd rfl hne
    · rintro (_ | _) (_ | _) hm hm'
      · rfl
      · exact absurd ⟨hm, hm'⟩ h2
      · exact absurd ⟨hm', hm⟩ h2
      · rfl
  · rintro ⟨h1, h2, h3⟩
    refine ⟨fun hv hv' => h1 .w0 .w1 (by decide) hv hv', fun ⟨hm, hm'⟩ => ?_, h3⟩
    exact absurd (h2 .w0 .w1 hm hm') (by decide)

theorem Line.matches_iff (l : Line) (t : Nat) : l.matches t = true ↔ l.valid = true ∧ l.tag = t := by
  simp [Line.matches]

/-- In a good set, a lookup hits the way whose line has the tag. -/
theorem CacheSet.hit_eq_some {c : Config} {b : Memory} {s : Nat} {cs : CacheSet} (h : SetOk c b s cs) (t : Nat)
    (w : Way) : cs.hit t = some w ↔ (cs.line w).matches t = true := by
  have hd := h.1
  simp only [CacheSet.hit]
  by_cases h0 : cs.way0.matches t = true
  · cases w
    · simp [h0, CacheSet.line]
    · simp only [h0, if_true, CacheSet.line]
      constructor
      · intro h; cases h
      · intro h1
        rw [Line.matches_iff] at h0 h1
        exact absurd (h0.2.trans h1.2.symm) (hd h0.1 h1.1)
  · cases w <;> simp [h0, CacheSet.line]

theorem CacheSet.hit_eq_none (cs : CacheSet) (t : Nat) :
    cs.hit t = none ↔ ∀ w, (cs.line w).matches t = false := by
  simp only [CacheSet.hit]
  constructor
  · intro h
    rintro (_ | _) <;> simp only [CacheSet.line] <;> grind
  · intro h
    have h0 := h .w0
    have h1 := h .w1
    simp only [CacheSet.line] at h0 h1
    simp [h0, h1]

theorem SetCache.getSet_putSet {k : SetCache} (h : tableWf CacheSet.empty k.sets = true) (s : Nat) (cs : CacheSet)
    (s' : Nat) : (k.putSet s cs).getSet s' = if s' = s then cs else k.getSet s' := tableGet_put h s cs s'

theorem SetCache.wf_putSet {k : SetCache} (h : tableWf CacheSet.empty k.sets = true) (s : Nat) (cs : CacheSet) :
    tableWf CacheSet.empty (k.putSet s cs).sets = true := tableWf_put h s cs

/-! ### The image (R131) -/

/-- The image at an offset whose line is in the cache. -/
theorem cacheByte_hit {c : Config} {m : Mem} (h : CacheInv c m) {x : Nat} {w : Way}
    (hw : ((m.cache.getSet (setIndex c x)).line w).matches (lineTag c x) = true) :
    cacheByte c m x = ((m.cache.getSet (setIndex c x)).line w).data.getD (lineOffset c x) 0 := by
  have := (CacheSet.hit_eq_some (h.sets_ok _ (setIndex_lt c x)) (lineTag c x) w).2 hw
  simp [cacheByte, this]

/-- The image at an offset whose line is not in the cache. -/
theorem cacheByte_miss {c : Config} {m : Mem} {x : Nat}
    (hw : ∀ w, ((m.cache.getSet (setIndex c x)).line w).matches (lineTag c x) = false) :
    cacheByte c m x = m.backing.get x := by
  have := (CacheSet.hit_eq_none _ (lineTag c x)).2 hw
  simp [cacheByte, this]

/-! ### Storage operations -/

theorem bsRead_spec {m m' : Mem} {a n : Nat} {bytes : List Byte} (h : bsRead m a n = .ok (bytes, m')) :
    bytes = m.backing.getN a n ∧ m' = { m with io := (ioNext m.io).2 } ∧ (ioNext m.io).1 = false := by
  unfold bsRead at h
  split at h
  · cases h
  · next hio => cases h; exact ⟨rfl, by rw [hio], by rw [hio]⟩

theorem bsWrite_spec {m m' : Mem} {a : Nat} {bytes : List Byte} (h : bsWrite m a bytes = .ok m') :
    m' = { m with backing := m.backing.putN a bytes, io := (ioNext m.io).2 } ∧ (ioNext m.io).1 = false := by
  unfold bsWrite at h
  split at h
  · cases h
  · next hio => cases h; exact ⟨by rw [hio], by rw [hio]⟩

theorem bsRead_error {m : Mem} {a n : Nat} {f : Fault} (h : bsRead m a n = .error f) :
    f = .storageFault .read a ∧ (ioNext m.io).1 = true := by
  unfold bsRead at h
  split at h
  · next hio => cases h; exact ⟨rfl, by rw [hio]⟩
  · cases h

theorem bsWrite_error {m : Mem} {a : Nat} {bytes : List Byte} {f : Fault} (h : bsWrite m a bytes = .error f) :
    f = .storageFault .write a ∧ (ioNext m.io).1 = true := by
  unfold bsWrite at h
  split at h
  · next hio => cases h; exact ⟨rfl, by rw [hio]⟩
  · cases h

/-- Of the coming storage outcomes `io` some were used, none of them a failure, and `io'` are left. -/
def Spent (io io' : List Bool) : Prop := ∃ used, io = used ++ io' ∧ true ∉ used

theorem Spent.refl (io : List Bool) : Spent io io := ⟨[], rfl, List.not_mem_nil⟩

theorem Spent.trans {a b c : List Bool} (h : Spent a b) (h' : Spent b c) : Spent a c := by
  obtain ⟨u, rfl, hu⟩ := h
  obtain ⟨v, rfl, hv⟩ := h'
  exact ⟨u ++ v, by rw [List.append_assoc], by simp [hu, hv]⟩

/-- An operation that succeeds uses one outcome, or none if none is listed. -/
theorem Spent.next {io : List Bool} (h : (ioNext io).1 = false) : Spent io (ioNext io).2 := by
  cases io with
  | nil => exact .refl _
  | cons b io =>
    obtain rfl : b = false := h
    exact ⟨[false], rfl, by simp⟩

theorem Spent.subset {io io' : List Bool} (h : Spent io io') : ∀ b ∈ io', b ∈ io := by
  obtain ⟨u, rfl, -⟩ := h
  exact fun b hb => List.mem_append_right _ hb

theorem NoFailure.next {m : Mem} (h : NoFailure m) : (ioNext m.io).1 = false := by
  unfold NoFailure at h
  cases hio : m.io with
  | nil => rfl
  | cons a io => exact h a (by simp [hio])

theorem NoFailure.rest {m : Mem} (h : NoFailure m) : ∀ b ∈ (ioNext m.io).2, b = false :=
  fun b hb => h b ((Spent.next h.next).subset b hb)

/-! ### Resolve (R123 to R127) -/

/-- What a resolve does to the hierarchy: the invariants and the image are kept, the line of `o` is in the way
returned, the block cache is untouched, and no storage outcome used was a failure. -/
structure Resolved (c : Config) (m : Mem) (o : Nat) (w : Way) (m' : Mem) : Prop where
  inv : CacheInv c m'
  image : ∀ x, cacheByte c m' x = cacheByte c m x
  holds : ((m'.cache.getSet (setIndex c o)).line w).matches (lineTag c o) = true
  blocks : m'.blocks = m.blocks
  io : Spent m.io m'.io
  one_count : m'.cache.hits + m'.cache.misses = m.cache.hits + m.cache.misses + 1

/-- The write-back of a victim (R126): where the line was dirty, the backing store now holds its bytes; everywhere
else it is unchanged. -/
theorem writeBack_spec {c : Config} {m m' : Mem} {s : Nat} {l : Line} (hs : s < c.numSets)
    (hwf : m.backing.wf = true) (hl : LineOk c m.backing s l) (h : writeBack c m s l = .ok m') :
    m' = { m with backing := m'.backing, io := m'.io } ∧ m'.backing.wf = true ∧ Spent m.io m'.io ∧
    (∀ x, m'.backing.get x =
      if l.valid = true ∧ l.dirty = true ∧ lineTag c x = l.tag ∧ setIndex c x = s then
        l.data.getD (lineOffset c x) 0
      else m.backing.get x) := by
  unfold writeBack at h
  split at h
  · next hvd =>
    simp only [Bool.and_eq_true] at hvd
    obtain ⟨rfl, hio⟩ := bsWrite_spec h
    refine ⟨rfl, Memory.wf_putN hwf _ _, .next hio, fun x => ?_⟩
    rw [Memory.get_putN hwf, (hl hvd.1).1]
    simp only [mem_line_iff c hs x, hvd.1, hvd.2, true_and]
    split
    · next hx => rw [offset_in_line c hx.1 hx.2]
    · rfl
  · next hvd =>
    simp only [Bool.and_eq_true] at hvd
    cases h
    refine ⟨rfl, hwf, .refl _, fun x => ?_⟩
    rw [if_neg]
    tauto

theorem getD_congr {a b : List Byte} (h : a = b) (k : Nat) : a.getD k 0 = b.getD k 0 := by rw [h]

/-- A miss (R125). -/
theorem cacheMiss_spec {c : Config} {m m' : Mem} {o : Nat} {w : Way} (h : CacheInv c m)
    (hmiss : ∀ w, ((m.cache.getSet (setIndex c o)).line w).matches (lineTag c o) = false)
    (hr : cacheMiss c m o = .ok (w, m')) :
    CacheInv c m' ∧ (∀ x, cacheByte c m' x = cacheByte c m x) ∧
    ((m'.cache.getSet (setIndex c o)).line w).matches (lineTag c o) = true ∧
    m'.blocks = m.blocks ∧ Spent m.io m'.io ∧
    m'.cache.hits = m.cache.hits ∧ m'.cache.misses = m.cache.misses := by
  have hs := setIndex_lt c o
  have hok := h.sets_ok _ hs
  unfold cacheMiss at hr
  dsimp only at hr
  generalize hset : m.cache.getSet (setIndex c o) = cs at *
  generalize hvic : cs.victim = v at *
  split at hr
  · cases hr
  next m1 hwb =>
  obtain ⟨hm1, hwf1, hio1, hget1⟩ := writeBack_spec hs h.backing_wf (hok.2.2 v) hwb
  split at hr
  · cases hr
  next bytes m2 hrd =>
  obtain ⟨hbytes, hm2, hio2⟩ := bsRead_spec hrd
  simp only [Except.ok.injEq, Prod.mk.injEq] at hr
  obtain ⟨hvw, hm'⟩ := hr
  subst hvw hbytes hm2
  have hcache : m1.cache = m.cache := by rw [hm1]
  have hblocks : m1.blocks = m.blocks := by rw [hm1]
  have hsets : tableWf CacheSet.empty m1.cache.sets = true := by rw [hcache]; exact h.sets_wf
  have hline := (setOk_iff _ _ _ _).1 hok
  -- the new set, way by way
  generalize hnew : (cs.setLine v ⟨lineTag c o, true, false, (cs.line v).mru,
    m1.backing.getN (o - lineOffset c o) c.lineSize⟩).setMru v = cs' at hm'
  have hm'' : m' = { m1 with cache := m1.cache.putSet (setIndex c o) cs', io := (ioNext m1.io).2 } := hm'.symm
  clear hm'
  subst hm''
  have hnv : cs'.line v = ⟨lineTag c o, true, false, true, m1.backing.getN (o - lineOffset c o) c.lineSize⟩ := by
    rw [← hnew]; simp
  have hnu : ∀ u, u ≠ v → cs'.line u = { cs.line u with mru := false } := by
    intro u hu; rw [← hnew]; simp [hu]
  have hmatch : ∀ u t, u ≠ v → (cs'.line u).matches t = (cs.line u).matches t := by
    intro u t hu; rw [hnu u hu]; rfl
  have hvt : (cs.line v).valid = true → (cs.line v).tag ≠ lineTag c o := by
    intro hv ht
    have := hmiss v
    simp [Line.matches, hv, ht] at this
  have hinv : CacheInv c { m1 with cache := m1.cache.putSet (setIndex c o) cs', io := (ioNext m1.io).2 } := by
    refine ⟨hwf1, SetCache.wf_putSet hsets _ _, fun s' hs' => ?_⟩
    show SetOk c m1.backing s' ((m1.cache.putSet (setIndex c o) cs').getSet s')
    rw [SetCache.getSet_putSet hsets]
    -- a clean line elsewhere keeps its bytes
    have hkeep : ∀ t, (s' ≠ setIndex c o ∨ ((cs.line v).valid = true → t ≠ (cs.line v).tag)) →
        m1.backing.getN (lineBase c t s') c.lineSize = m.backing.getN (lineBase c t s') c.lineSize := by
      intro t hne
      refine Memory.getN_congr fun k hk => ?_
      rw [hget1, if_neg]
      rintro ⟨hv, -, ht, hi⟩
      have hx := (mem_line_iff c hs' (lineBase c t s' + k)).1 ⟨Nat.le_add_right _ _, Nat.add_lt_add_left hk _⟩
      rcases hne with hne | hne
      · exact hne (hx.2.symm.trans hi)
      · exact hne hv (hx.1.symm.trans ht)
    split
    · next he =>
      subst he
      refine (setOk_iff _ _ _ _).2 ⟨?_, ?_, ?_⟩
      · intro a b hab hva hvb
        by_cases ha : a = v
        · subst ha
          rw [hnv] at *
          have hb : b ≠ a := Ne.symm hab
          rw [hnu b hb] at hvb ⊢
          intro ht
          have := hmiss b
          simp only [Line.matches, Bool.and_eq_false_iff] at this
          rcases this with h' | h'
          · rw [h'] at hvb; cases hvb
          · exact absurd ht.symm (by simpa using h')
        · by_cases hb : b = v
          · subst hb
            rw [hnv] at *
            rw [hnu a ha] at hva ⊢
            intro ht
            have := hmiss a
            simp only [Line.matches, Bool.and_eq_false_iff] at this
            rcases this with h' | h'
            · rw [h'] at hva; cases hva
            · exact absurd ht (by simpa using h')
          · rw [hnu a ha] at hva ⊢
            rw [hnu b hb] at hvb ⊢
            exact hline.1 a b hab hva hvb
      · intro a b ha hb
        by_cases hav : a = v
        · by_cases hbv : b = v
          · rw [hav, hbv]
          · rw [hnu b hbv] at hb; exact absurd hb (by simp)
        · rw [hnu a hav] at ha; exact absurd ha (by simp)
      · intro u
        by_cases hu : u = v
        · subst hu
          rw [hnv]
          intro _
          refine ⟨Memory.length_getN _ _ _, fun _ => ?_⟩
          show _ = m1.backing.getN (lineBase c (lineTag c o) (setIndex c o)) c.lineSize
          rw [lineBase_parts]
        · rw [hnu u hu]
          intro hv
          obtain ⟨hlen, hcl⟩ := hline.2.2 u hv
          refine ⟨hlen, fun hd => ?_⟩
          show (cs.line u).data = m1.backing.getN (lineBase c (cs.line u).tag (setIndex c o)) c.lineSize
          rw [hkeep _ (.inr fun hvv => hline.1 u v hu hv hvv)]
          exact hcl hd
    · next he =>
      have ho := h.sets_ok _ hs'
      rw [hcache]
      refine ⟨ho.1, ho.2.1, fun u hv => ?_⟩
      obtain ⟨hlen, hcl⟩ := ho.2.2 u hv
      refine ⟨hlen, fun hd => ?_⟩
      rw [hkeep _ (.inl he)]
      exact hcl hd
  have hgs : ∀ s', (m1.cache.putSet (setIndex c o) cs').getSet s' =
      if s' = setIndex c o then cs' else m.cache.getSet s' := by
    intro s'; rw [SetCache.getSet_putSet hsets, hcache]
  refine ⟨hinv, fun x => ?_, ?_, hblocks, hio1.trans (.next hio2), ?_, ?_⟩
  · by_cases hx : setIndex c x = setIndex c o
    · have hold : m.cache.getSet (setIndex c x) = cs := by rw [hx, hset]
      have hnewx : (m1.cache.putSet (setIndex c o) cs').getSet (setIndex c x) = cs' := by rw [hgs, if_pos hx]
      by_cases ht : lineTag c x = lineTag c o
      · -- the filled line
        have e1 : cacheByte c { m1 with cache := m1.cache.putSet (setIndex c o) cs', io := (ioNext m1.io).2 } x =
            m1.backing.get x := by
          rw [cacheByte_hit hinv (w := v)]
          · show ((((m1.cache.putSet (setIndex c o) cs').getSet (setIndex c x)).line v).data).getD _ 0 = _
            rw [hnewx, hnv]
            show (m1.backing.getN (o - lineOffset c o) c.lineSize).getD (lineOffset c x) 0 = _
            rw [Memory.getD_getN _ _ _ _ (lineOffset_lt c x), ← lineBase_parts, base_add_offset c ht hx]
          · show (((m1.cache.putSet (setIndex c o) cs').getSet (setIndex c x)).line v).matches _ = true
            rw [hnewx, hnv]; simp [Line.matches, ht]
        rw [e1, cacheByte_miss (m := m) (by rw [hold, ht]; exact hmiss), hget1, if_neg]
        rintro ⟨hv, -, h1, -⟩
        exact hvt hv (h1.symm.trans ht)
      · by_cases hany : ∃ u, (cs.line u).matches (lineTag c x) = true
        · obtain ⟨u, hu⟩ := hany
          by_cases huv : u = v
          · -- the evicted line: now in the backing store
            subst huv
            have e1 : cacheByte c { m1 with cache := m1.cache.putSet (setIndex c o) cs', io := (ioNext m1.io).2 } x =
                m1.backing.get x := by
              refine cacheByte_miss fun w => ?_
              show (((m1.cache.putSet (setIndex c o) cs').getSet (setIndex c x)).line w).matches _ = false
              rw [hnewx]
              by_cases hw : w = u
              · subst hw; rw [hnv]; simp [Line.matches, Ne.symm ht]
              · rw [hmatch w _ hw]
                rw [Line.matches_iff] at hu
                have := hline.1 w u hw
                cases hb : (cs.line w).matches (lineTag c x)
                · rfl
                · rw [Line.matches_iff] at hb
                  exact absurd (hb.2.trans hu.2.symm) (this hb.1 hu.1)
            rw [e1, cacheByte_hit h (w := u) (by rw [hold]; exact hu), hold, hget1]
            rw [Line.matches_iff] at hu
            obtain ⟨hlen, hcl⟩ := hline.2.2 u hu.1
            by_cases hd : (cs.line u).dirty = true
            · rw [if_pos ⟨hu.1, hd, hu.2.symm, hx⟩]
            · rw [if_neg (by tauto)]
              rw [hcl (by simpa using hd), Memory.getD_getN _ _ _ _ (lineOffset_lt c x),
                base_add_offset c hu.2.symm hx]
          · rw [cacheByte_hit hinv (w := u), cacheByte_hit h (w := u) (by rw [hold]; exact hu), hold]
            · show ((((m1.cache.putSet (setIndex c o) cs').getSet (setIndex c x)).line u).data).getD _ 0 = _
              rw [hnewx, hnu u huv]
            · show (((m1.cache.putSet (setIndex c o) cs').getSet (setIndex c x)).line u).matches _ = true
              rw [hnewx, hmatch u _ huv]; exact hu
        · have hnone : ∀ u, (cs.line u).matches (lineTag c x) = false := by
            intro u
            cases hb : (cs.line u).matches (lineTag c x)
            · rfl
            · exact absurd ⟨u, hb⟩ hany
          rw [cacheByte_miss (m := m) (by rw [hold]; exact hnone)]
          rw [cacheByte_miss]
          · show m1.backing.get x = _
            rw [hget1, if_neg]
            rintro ⟨hv, -, h1, -⟩
            have := hnone v
            simp [Line.matches, hv, h1] at this
          · intro w
            show (((m1.cache.putSet (setIndex c o) cs').getSet (setIndex c x)).line w).matches _ = false
            rw [hnewx]
            by_cases hw : w = v
            · subst hw; rw [hnv]; simp [Line.matches, Ne.symm ht]
            · rw [hmatch w _ hw]; exact hnone w
    · have hsame : (m1.cache.putSet (setIndex c o) cs').getSet (setIndex c x) = m.cache.getSet (setIndex c x) := by
        rw [hgs, if_neg hx]
      have hb : m1.backing.get x = m.backing.get x := by
        rw [hget1, if_neg]
        rintro ⟨-, -, -, hi⟩
        exact hx hi
      simp only [cacheByte, hsame, hb]
  · show (((m1.cache.putSet (setIndex c o) cs').getSet (setIndex c o)).line v).matches _ = true
    rw [hgs, if_pos rfl, hnv]; simp [Line.matches]
  · show m1.cache.hits = _; rw [hcache]
  · show m1.cache.misses = _; rw [hcache]

theorem cacheResolve_spec {c : Config} {m m' : Mem} {o : Nat} {w : Way} (h : CacheInv c m)
    (hr : cacheResolve c m o = .ok (w, m')) : Resolved c m o w m' := by
  unfold cacheResolve at hr
  dsimp only at hr
  have hs := setIndex_lt c o
  have hok := h.sets_ok _ hs
  split at hr
  · next u hu =>
    cases hr
    have hu' := (CacheSet.hit_eq_some hok _ _).1 hu
    have hgs : ∀ s', (m.cache.putSet (setIndex c o) ((m.cache.getSet (setIndex c o)).setMru w)).getSet s' =
        if s' = setIndex c o then (m.cache.getSet (setIndex c o)).setMru w else m.cache.getSet s' :=
      fun s' => SetCache.getSet_putSet h.sets_wf _ _ s'
    have hline := (setOk_iff _ _ _ _).1 hok
    have hinv : CacheInv c { m with cache := { m.cache.putSet (setIndex c o)
        ((m.cache.getSet (setIndex c o)).setMru w) with hits := m.cache.hits + 1 } } := by
      refine ⟨h.backing_wf, SetCache.wf_putSet h.sets_wf _ _, fun s' hs' => ?_⟩
      show SetOk c m.backing s' ((m.cache.putSet _ _).getSet s')
      rw [hgs]
      split
      · next he =>
        subst he
        refine (setOk_iff _ _ _ _).2 ⟨fun a b hab => ?_, fun a b ha hb => ?_, fun a => ?_⟩
        · simpa using hline.1 a b hab
        · simp at ha hb; rw [ha, hb]
        · simpa [LineOk] using hline.2.2 a
      · exact h.sets_ok _ hs'
    refine ⟨hinv, fun x => ?_, ?_, rfl, .refl _, ?_⟩
    · by_cases hx : setIndex c x = setIndex c o
      · have hnewx : (m.cache.putSet (setIndex c o) ((m.cache.getSet (setIndex c o)).setMru w)).getSet (setIndex c x) =
            (m.cache.getSet (setIndex c x)).setMru w := by rw [hgs, if_pos hx, hx]
        by_cases hany : ∃ a, ((m.cache.getSet (setIndex c x)).line a).matches (lineTag c x) = true
        · obtain ⟨a, ha⟩ := hany
          rw [cacheByte_hit h ha, cacheByte_hit hinv (w := a)]
          · show ((((m.cache.putSet _ _).getSet (setIndex c x)).line a).data).getD _ 0 = _
            rw [hnewx]; simp
          · show (((m.cache.putSet _ _).getSet (setIndex c x)).line a).matches _ = true
            rw [hnewx]; simpa [Line.matches] using ha
        · have hnone : ∀ a, ((m.cache.getSet (setIndex c x)).line a).matches (lineTag c x) = false := by
            intro a
            cases hb : ((m.cache.getSet (setIndex c x)).line a).matches (lineTag c x)
            · rfl
            · exact absurd ⟨a, hb⟩ hany
          rw [cacheByte_miss hnone, cacheByte_miss]
          intro a
          show (((m.cache.putSet _ _).getSet (setIndex c x)).line a).matches _ = false
          rw [hnewx]; simpa [Line.matches] using hnone a
      · have hsame : (m.cache.putSet (setIndex c o) ((m.cache.getSet (setIndex c o)).setMru w)).getSet (setIndex c x) =
            m.cache.getSet (setIndex c x) := by rw [hgs, if_neg hx]
        show (match ((m.cache.putSet _ _).getSet (setIndex c x)).hit (lineTag c x) with
          | some w => (((m.cache.putSet _ _).getSet (setIndex c x)).line w).data.getD (lineOffset c x) 0
          | none => m.backing.get x) = _
        rw [hsame]; rfl
    · show (((m.cache.putSet _ _).getSet (setIndex c o)).line w).matches _ = true
      rw [hgs, if_pos rfl]; simpa [Line.matches] using hu'
    · show m.cache.hits + 1 + m.cache.misses = _; omega
  · next hu =>
    have hnone := (CacheSet.hit_eq_none _ _).1 hu
    have hinv : CacheInv c { m with cache := { m.cache with misses := m.cache.misses + 1 } } :=
      ⟨h.backing_wf, h.sets_wf, h.sets_ok⟩
    obtain ⟨h1, h2, h3, h4, h5, h6, h7⟩ := cacheMiss_spec hinv hnone hr
    refine ⟨h1, fun x => (h2 x).trans rfl, h3, h4, h5, ?_⟩
    rw [h6, h7]
    show m.cache.hits + (m.cache.misses + 1) = _
    omega

/-- A resolve stops only on a storage failure (R134), and never when none is coming. -/
theorem cacheResolve_error {c : Config} {m : Mem} {o : Nat} {f : Fault} (hr : cacheResolve c m o = .error f) :
    (∃ op a, f = .storageFault op a) ∧ ¬ NoFailure m := by
  unfold cacheResolve cacheMiss at hr
  dsimp only at hr
  split at hr
  · cases hr
  · split at hr
    · next f' hwb =>
      cases hr
      unfold writeBack at hwb
      split at hwb
      · obtain ⟨rfl, hio⟩ := bsWrite_error hwb
        refine ⟨⟨_, _, rfl⟩, fun hn => ?_⟩
        have := NoFailure.next hn
        simp_all
      · cases hwb
    · next m1 hwb =>
      split at hr
      · next f' hrd =>
        cases hr
        obtain ⟨rfl, hio⟩ := bsRead_error hrd
        refine ⟨⟨_, _, rfl⟩, fun hn => ?_⟩
        have hm1 : NoFailure m1 := by
          unfold writeBack at hwb
          split at hwb
          · obtain ⟨rfl, -⟩ := bsWrite_spec hwb
            exact NoFailure.rest (m := m) hn
          · cases hwb; exact hn
        have := NoFailure.next hm1
        simp_all
      · cases hr

/-! ### Read and write (R128, R129) -/

/-- A read inside one line returns the bytes of the image (R128, R131). -/
theorem cacheRead_spec {c : Config} {m m' : Mem} {o n : Nat} {bytes : List Byte} (h : CacheInv c m)
    (hn : lineOffset c o + n ≤ c.lineSize) (hr : cacheRead c m o n = .ok (bytes, m')) :
    bytes = (List.range n).map (fun k => cacheByte c m (o + k)) ∧ ∃ w, Resolved c m o w m' := by
  unfold cacheRead at hr
  split at hr
  · cases hr
  next w m1 hres =>
  cases hr
  have hR := cacheResolve_spec h hres
  refine ⟨?_, w, hR⟩
  have hok := hR.inv.sets_ok _ (setIndex_lt c o)
  have hm := hR.holds
  have hv := ((Line.matches_iff _ _).1 hm).1
  have hlen := (hok.2.2 w hv).1
  have hsl : (slice (cacheLine c m' o w).data (lineOffset c o) n).length = n :=
    length_slice (by unfold cacheLine; rw [hlen]; exact hn)
  apply List.ext_getElem
  · simp [hsl]
  · intro k h1 h2
    have hk : k < n := by simpa [hsl] using h1
    have hd := getD_slice (cacheLine c m' o w).data (lineOffset c o) n k hk
    rw [List.getElem_map, List.getElem_range]
    rw [show (slice (cacheLine c m' o w).data (lineOffset c o) n)[k] =
      (slice (cacheLine c m' o w).data (lineOffset c o) n).getD k 0 by
        simp [List.getD_eq_getElem?_getD, List.getElem?_eq_getElem h1], hd, ← hR.image]
    have hin := (mem_line_iff c (t := lineTag c o) (setIndex_lt c o) (o + k)).1 (by
      rw [lineBase_parts]
      have := lineOffset_le c o
      omega)
    rw [cacheByte_hit hR.inv (x := o + k) (w := w) (by rw [hin.1, hin.2]; exact hm), hin.2]
    unfold cacheLine
    congr 1
    have h1 := offset_in_line c hin.1 hin.2
    rw [lineBase_parts] at h1
    have := lineOffset_le c o
    omega

/-- A write inside one line changes exactly the bytes it names (R129, R131), keeps the invariants, and touches the
block cache not at all. -/
theorem cacheWrite_spec {c : Config} {m m' : Mem} {o : Nat} {bytes : List Byte} (h : CacheInv c m)
    (hn : lineOffset c o + bytes.length ≤ c.lineSize) (hw : cacheWrite c m o bytes = .ok m') :
    CacheInv c m' ∧
    (∀ x, cacheByte c m' x = if o ≤ x ∧ x < o + bytes.length then bytes.getD (x - o) 0 else cacheByte c m x) ∧
    m'.blocks = m.blocks ∧ Spent m.io m'.io := by
  unfold cacheWrite at hw
  split at hw
  · cases hw
  next w m1 hres =>
  dsimp only at hw
  cases hw
  have hR := cacheResolve_spec h hres
  have hs := setIndex_lt c o
  have hok := hR.inv.sets_ok _ hs
  have hline := (setOk_iff _ _ _ _).1 hok
  have hm := hR.holds
  generalize hcs : m1.cache.getSet (setIndex c o) = cs at *
  obtain ⟨hv, htag⟩ := (Line.matches_iff _ _).1 hm
  have hlen := (hok.2.2 w hv).1
  generalize hl' : ({ cs.line w with data := patch (cs.line w).data (lineOffset c o) bytes, dirty := true } : Line)
    = l' at *
  have hl'v : l'.valid = true := by rw [← hl']; exact hv
  have hl't : l'.tag = lineTag c o := by rw [← hl']; exact htag
  have hl'm : l'.mru = (cs.line w).mru := by rw [← hl']
  have hl'd : l'.data = patch (cs.line w).data (lineOffset c o) bytes := by rw [← hl']
  have hl'dirty : l'.dirty = true := by rw [← hl']
  have hgs : ∀ s', (m1.cache.putSet (setIndex c o) (cs.setLine w l')).getSet s' =
      if s' = setIndex c o then cs.setLine w l' else m1.cache.getSet s' :=
    fun s' => SetCache.getSet_putSet hR.inv.sets_wf _ _ s'
  have hinv : CacheInv c { m1 with cache := m1.cache.putSet (setIndex c o) (cs.setLine w l') } := by
    refine ⟨hR.inv.backing_wf, SetCache.wf_putSet hR.inv.sets_wf _ _, fun s' hs' => ?_⟩
    show SetOk c m1.backing s' ((m1.cache.putSet _ _).getSet s')
    rw [hgs]
    split
    · next he =>
      subst he
      have hsame : ∀ a, ((cs.setLine w l').line a).valid = (cs.line a).valid ∧
          ((cs.setLine w l').line a).tag = (cs.line a).tag ∧ ((cs.setLine w l').line a).mru = (cs.line a).mru := by
        intro a
        rw [CacheSet.line_setLine]
        split
        · next ha => subst ha; exact ⟨hl'v.trans hv.symm, hl't.trans htag.symm, hl'm⟩
        · exact ⟨rfl, rfl, rfl⟩
      refine (setOk_iff _ _ _ _).2 ⟨fun a b hab => ?_, fun a b => ?_, fun a => ?_⟩
      · rw [(hsame a).1, (hsame b).1, (hsame a).2.1, (hsame b).2.1]; exact hline.1 a b hab
      · rw [(hsame a).2.2, (hsame b).2.2]; exact hline.2.1 a b
      · rw [CacheSet.line_setLine]
        split
        · intro _
          refine ⟨?_, fun hd => ?_⟩
          · rw [hl'd, length_patch (by rw [hlen]; exact hn), hlen]
          · rw [hl'dirty] at hd; cases hd
        · exact hline.2.2 a
    · exact hR.inv.sets_ok _ hs'
  refine ⟨hinv, fun x => ?_, hR.blocks, hR.io⟩
  by_cases hin : lineTag c x = lineTag c o ∧ setIndex c x = setIndex c o
  · have hx := (mem_line_iff c (t := lineTag c o) hs x).2 hin
    rw [lineBase_parts] at hx
    have hoff := offset_in_line c hin.1 hin.2
    rw [lineBase_parts] at hoff
    have hle := lineOffset_le c o
    rw [cacheByte_hit hinv (w := w)]
    · show ((((m1.cache.putSet _ _).getSet (setIndex c x)).line w).data).getD _ 0 = _
      rw [hgs, if_pos hin.2, CacheSet.line_setLine, if_pos rfl, hl'd, getD_patch (by rw [hlen]; exact hn)]
      rw [← hR.image x, cacheByte_hit hR.inv (x := x) (w := w) (by rw [hin.1, hin.2, hcs]; exact hm), hin.2, hcs]
      by_cases hr : o ≤ x ∧ x < o + bytes.length
      · rw [if_pos hr, if_pos (by omega)]; congr 1; omega
      · rw [if_neg hr, if_neg (by omega)]
    · show (((m1.cache.putSet _ _).getSet (setIndex c x)).line w).matches _ = true
      rw [hgs, if_pos hin.2, CacheSet.line_setLine, if_pos rfl, Line.matches_iff]
      exact ⟨hl'v, hl't.trans hin.1.symm⟩
  · have hout : ¬ (o ≤ x ∧ x < o + bytes.length) := by
      intro hr
      apply hin
      apply (mem_line_iff c (t := lineTag c o) hs x).1
      rw [lineBase_parts]
      have hle := lineOffset_le c o
      omega
    rw [if_neg hout, ← hR.image x]
    by_cases hx : setIndex c x = setIndex c o
    · have ht : lineTag c x ≠ lineTag c o := fun ht => hin ⟨ht, hx⟩
      have hmatch : ∀ a, ((cs.setLine w l').line a).matches (lineTag c x) = (cs.line a).matches (lineTag c x) := by
        intro a
        rw [CacheSet.line_setLine]
        split
        · next ha =>
          subst ha
          simp [Line.matches, hl't, htag, Ne.symm ht]
        · rfl
      by_cases hany : ∃ a, (cs.line a).matches (lineTag c x) = true
      · obtain ⟨a, ha⟩ := hany
        have haw : a ≠ w := by
          intro he
          rw [he, Line.matches_iff] at ha
          exact ht (ha.2.symm.trans htag)
        rw [cacheByte_hit hinv (w := a), cacheByte_hit hR.inv (w := a) (by rw [hx, hcs]; exact ha)]
        · show ((((m1.cache.putSet _ _).getSet (setIndex c x)).line a).data).getD _ 0 = _
          rw [hgs, if_pos hx, CacheSet.line_setLine, if_neg haw, hx, hcs]
        · show (((m1.cache.putSet _ _).getSet (setIndex c x)).line a).matches _ = true
          rw [hgs, if_pos hx, hmatch]; exact ha
      · have hnone : ∀ a, (cs.line a).matches (lineTag c x) = false := by
          intro a
          cases hb : (cs.line a).matches (lineTag c x)
          · rfl
          · exact absurd ⟨a, hb⟩ hany
        rw [cacheByte_miss, cacheByte_miss (m := m1)]
        · rw [hx, hcs]; exact hnone
        · intro a
          show (((m1.cache.putSet _ _).getSet (setIndex c x)).line a).matches _ = false
          rw [hgs, if_pos hx, hmatch]; exact hnone a
    · have hsame : (m1.cache.putSet (setIndex c o) (cs.setLine w l')).getSet (setIndex c x) =
          m1.cache.getSet (setIndex c x) := by rw [hgs, if_neg hx]
      show (match ((m1.cache.putSet _ _).getSet (setIndex c x)).hit (lineTag c x) with
        | some w => (((m1.cache.putSet _ _).getSet (setIndex c x)).line w).data.getD (lineOffset c x) 0
        | none => m1.backing.get x) = _
      rw [hsame]; rfl

/-- The hierarchy after `reset()`, or at a session's start, is good over any backing store (R132 d, R133). -/
theorem cacheInv_empty (c : Config) (m : Mem) (hwf : m.backing.wf = true) (he : m.cache = SetCache.empty) :
    CacheInv c m := by
  refine ⟨hwf, by rw [he]; rfl, fun s _ => ?_⟩
  rw [he]
  refine ⟨fun h => ?_, fun h => ?_, fun w hv => ?_⟩
  · cases h
  · cases h.1
  · cases w <;> cases hv

end Sys2Proof.Machine
end

