-- ==== Sys2Proof/Laws/BlockCache.lean ====
section
/-! SUPPORT. The laws of the block cache: the binary search finds exactly the covering block (R151), a resolve keeps
the logical image and the invariants (R153, R154, R159), a read returns bytes of the image, a write changes exactly
the bytes it names. -/

namespace Sys2Proof.Machine

/-! ### Blocks and slots -/

theorem Block.covers_iff {c : Config} {b : Block} {o : Nat} :
    b.covers c o = true ↔ b.used = true ∧ b.start ≤ o ∧ o < b.start + c.blockSize := by
  simp [Block.covers, and_assoc]

/-- A block that starts at a multiple of BLOCK_SIZE and covers an offset starts at the offset rounded down. -/
theorem start_of_covers {B s o : Nat} (hs : s % B = 0) (h1 : s ≤ o) (h2 : o < s + B) : s = o - o % B := by
  obtain ⟨q, rfl⟩ := Nat.dvd_of_mod_eq_zero hs
  have hB : 0 < B := by omega
  have : o / B = q := by
    rw [Nat.div_eq_iff hB]
    constructor
    · rw [Nat.mul_comm]; exact h1
    · rw [Nat.mul_comm] at h2; omega
  have h3 := Nat.div_add_mod o B
  rw [this] at h3
  omega

theorem slot_set (b : BlockCache) (k : Nat) (x : Block) (j : Nat) :
    BlockCache.slot { b with slots := b.slots.set k x } j =
      if j = k ∧ k < b.slots.length then x else b.slot j := by
  simp only [BlockCache.slot, List.getD_eq_getElem?_getD, List.getElem?_set]
  split
  · next h => subst h; simp; split <;> simp_all
  · next h => rw [if_neg (by simp [Ne.symm h])]

theorem slot_of_lt {b : BlockCache} {k : Nat} (h : k < b.slots.length) : b.slot k = b.slots[k] := by
  simp [BlockCache.slot, List.getD_eq_getElem?_getD, h]

/-! ### The search (R151) -/

theorem mem_index {c : Config} {m : Mem} (h : BlockInv c m) (k : Nat) :
    k ∈ m.blocks.index ↔ k < m.blocks.slots.length := by
  rw [h.index_perm.mem_iff, List.mem_range]

theorem blockSearch_some {c : Config} {b : BlockCache} {o fuel lo hi k : Nat} (hlen : hi ≤ b.index.length)
    (h : blockSearch c b o fuel lo hi = some k) : k ∈ b.index ∧ (b.slot k).covers c o = true := by
  induction fuel generalizing lo hi with
  | zero => simp [blockSearch] at h
  | succ fuel ih =>
    simp only [blockSearch] at h
    split at h
    · next hlt =>
      have hmid : (lo + hi) / 2 < b.index.length := by omega
      split at h
      · next hc =>
        cases h
        refine ⟨?_, hc⟩
        rw [List.getD_eq_getElem?_getD, List.getElem?_eq_getElem hmid]
        exact List.getElem_mem hmid
      · split at h
        · exact ih (by omega) h
        · exact ih hlen h
    · cases h

theorem blockSearch_finds {c : Config} {m : Mem} (h : BlockInv c m) {o fuel lo hi p : Nat}
    (hp : p < m.blocks.index.length) (hlo : lo ≤ p) (hhi : p < hi) (hlen : hi ≤ m.blocks.index.length)
    (hfuel : hi - lo < fuel) (hc : (m.blocks.slot m.blocks.index[p]).covers c o = true) :
    blockSearch c m.blocks o fuel lo hi = some m.blocks.index[p] := by
  induction fuel generalizing lo hi with
  | zero => omega
  | succ fuel ih =>
    have hmid : (lo + hi) / 2 < m.blocks.index.length := by omega
    have hget : m.blocks.index.getD ((lo + hi) / 2) 0 = m.blocks.index[(lo + hi) / 2] := by
      simp [List.getD_eq_getElem?_getD, hmid]
    simp only [blockSearch, if_pos (show lo < hi by omega), hget]
    have hsort := List.pairwise_iff_getElem.1 h.index_sorted
    have hB := c.blockSize_pos
    have hpc := Block.covers_iff.1 hc
    have hok := h.blocks_ok _ ((mem_index h _).1 (List.getElem_mem hmid))
    have hokp := h.blocks_ok _ ((mem_index h _).1 (List.getElem_mem hp))
    rcases Nat.lt_trichotomy p ((lo + hi) / 2) with hlt | heq | hgt
    · have hs := hsort p ((lo + hi) / 2) hp hmid hlt
      have hnc : (m.blocks.slot m.blocks.index[(lo + hi) / 2]).covers c o ≠ true := by
        intro hm
        have hm := Block.covers_iff.1 hm
        have e1 := start_of_covers hok.2.1 hm.2.1 hm.2.2
        have e2 := start_of_covers hokp.2.1 hpc.2.1 hpc.2.2
        omega
      rw [if_neg hnc]
      have hos : o < (m.blocks.slot m.blocks.index[(lo + hi) / 2]).start := by
        by_contra hle
        have : ¬ o < (m.blocks.slot m.blocks.index[(lo + hi) / 2]).start + c.blockSize := fun hx =>
          hnc (Block.covers_iff.2 ⟨hok.1, by omega, hx⟩)
        omega
      rw [if_pos hos]
      exact ih hlo hlt (by omega) (by omega)
    · subst heq
      rw [if_pos hc]
    · have hs := hsort ((lo + hi) / 2) p hmid hp hgt
      have hnc : (m.blocks.slot m.blocks.index[(lo + hi) / 2]).covers c o ≠ true := by
        intro hm
        have hm := Block.covers_iff.1 hm
        have e1 := start_of_covers hok.2.1 hm.2.1 hm.2.2
        have e2 := start_of_covers hokp.2.1 hpc.2.1 hpc.2.2
        omega
      rw [if_neg hnc, if_neg (by omega)]
      exact ih (by omega) hhi hlen (by omega)

/-- The search finds a slot exactly when the slot's block covers the offset (R151). -/
theorem blockFind_eq_some {c : Config} {m : Mem} (h : BlockInv c m) (o k : Nat) :
    blockFind c m.blocks o = some k ↔ k < m.blocks.slots.length ∧ (m.blocks.slot k).covers c o = true := by
  constructor
  · intro hf
    have := blockSearch_some (Nat.le_refl _) hf
    exact ⟨(mem_index h k).1 this.1, this.2⟩
  · rintro ⟨hk, hc⟩
    obtain ⟨p, hp, hpk⟩ := List.getElem_of_mem ((mem_index h k).2 hk)
    subst hpk
    exact blockSearch_finds h hp (Nat.zero_le p) hp (Nat.le_refl _) (by omega) hc

theorem blockFind_eq_none {c : Config} {m : Mem} (h : BlockInv c m) (o : Nat) :
    blockFind c m.blocks o = none ↔ ∀ k, k < m.blocks.slots.length → (m.blocks.slot k).covers c o = false := by
  constructor
  · intro hn k hk
    cases hb : (m.blocks.slot k).covers c o
    · rfl
    · have := (blockFind_eq_some h o k).2 ⟨hk, hb⟩
      rw [hn] at this
      cases this
  · intro hall
    cases hf : blockFind c m.blocks o with
    | none => rfl
    | some k =>
      have := (blockFind_eq_some h o k).1 hf
      rw [hall k this.1] at this
      cases this.2

/-! ### The image (R159) -/

theorem blockByte_hit {c : Config} {m : Mem} (h : BlockInv c m) {o k : Nat} (hk : k < m.blocks.slots.length)
    (hc : (m.blocks.slot k).covers c o = true) :
    blockByte c m o = (m.blocks.slot k).data.getD (o - (m.blocks.slot k).start) 0 := by
  simp [blockByte, (blockFind_eq_some h o k).2 ⟨hk, hc⟩]

theorem blockByte_miss {c : Config} {m : Mem} (h : BlockInv c m) {o : Nat}
    (hn : ∀ k, k < m.blocks.slots.length → (m.blocks.slot k).covers c o = false) :
    blockByte c m o = m.backing.get o := by
  simp [blockByte, (blockFind_eq_none h o).2 hn]

/-- Two good block caches with the same backing store whose blocks hold the same ranges and data have the same
image. -/
theorem blockByte_congr {c : Config} {m m' : Mem} (h : BlockInv c m) (h' : BlockInv c m')
    (hb : m'.backing = m.backing) (hl : m'.blocks.slots.length = m.blocks.slots.length)
    (hs : ∀ k, k < m.blocks.slots.length → (m'.blocks.slot k).start = (m.blocks.slot k).start ∧
      (m'.blocks.slot k).data = (m.blocks.slot k).data) (o : Nat) : blockByte c m' o = blockByte c m o := by
  have hc : ∀ k, k < m.blocks.slots.length → (m'.blocks.slot k).covers c o = (m.blocks.slot k).covers c o := by
    intro k hk
    have u := (h.blocks_ok k hk).1
    have u' := (h'.blocks_ok k (hl ▸ hk)).1
    simp [Block.covers, (hs k hk).1, u, u']
  by_cases hany : ∃ k, k < m.blocks.slots.length ∧ (m.blocks.slot k).covers c o = true
  · obtain ⟨k, hk, hck⟩ := hany
    rw [blockByte_hit h hk hck, blockByte_hit h' (hl ▸ hk) (by rw [hc k hk]; exact hck), (hs k hk).1, (hs k hk).2]
  · have hn : ∀ k, k < m.blocks.slots.length → (m.blocks.slot k).covers c o = false := by
      intro k hk
      cases hb : (m.blocks.slot k).covers c o
      · rfl
      · exact absurd ⟨k, hk, hb⟩ hany
    rw [blockByte_miss h hn, blockByte_miss h' (fun k hk => by rw [hc k (hl ▸ hk)]; exact hn k (hl ▸ hk)), hb]

/-! ### The index (R154) -/

theorem indexInsert_perm (b : BlockCache) (start k : Nat) (l : List Nat) : (indexInsert b start k l).Perm (k :: l) := by
  induction l with
  | nil => exact .refl _
  | cons j js ih =>
    simp only [indexInsert]
    split
    · exact .refl _
    · exact (List.Perm.cons j ih).trans (.swap k j js)

theorem indexInsert_sorted {b : BlockCache} {start k : Nat} (hk : (b.slot k).start = start) {l : List Nat}
    (hl : l.Pairwise fun j k => (b.slot j).start < (b.slot k).start) (hne : ∀ j ∈ l, (b.slot j).start ≠ start) :
    (indexInsert b start k l).Pairwise fun j k => (b.slot j).start < (b.slot k).start := by
  induction l with
  | nil => simp [indexInsert]
  | cons j js ih =>
    rw [List.pairwise_cons] at hl
    simp only [indexInsert]
    split
    · next hlt =>
      refine List.pairwise_cons.2 ⟨fun i hi => ?_, List.pairwise_cons.2 hl⟩
      rw [hk]
      rcases List.mem_cons.1 hi with rfl | hi
      · exact hlt
      · exact Nat.lt_trans hlt (hl.1 i hi)
    · next hge =>
      refine List.pairwise_cons.2 ⟨fun i hi => ?_, ih hl.2 fun i hi => hne i (List.mem_cons_of_mem j hi)⟩
      have hj := hne j List.mem_cons_self
      rcases List.mem_cons.1 ((indexInsert_perm b start k js).mem_iff.1 hi) with rfl | hi
      · rw [hk]; omega
      · exact hl.1 i hi

/-! ### Stamps (R155) -/

theorem blockStamp_slot (m : Mem) (k j : Nat) (hk : k < m.blocks.slots.length) :
    ((blockStamp m k).blocks.slot j) =
      if j = k then { m.blocks.slot k with stamp := m.blocks.seq + 1 } else m.blocks.slot j := by
  have := slot_set m.blocks k { m.blocks.slot k with stamp := m.blocks.seq + 1 } j
  simpa [blockStamp, BlockCache.slot, hk] using this

theorem blockStamp_spec {c : Config} {m : Mem} (h : BlockInv c m) {k : Nat} (hk : k < m.blocks.slots.length) :
    BlockInv c (blockStamp m k) ∧ (∀ x, blockByte c (blockStamp m k) x = blockByte c m x) := by
  have hlen : (blockStamp m k).blocks.slots.length = m.blocks.slots.length := by simp [blockStamp]
  have hslot : ∀ j, ((blockStamp m k).blocks.slot j).start = (m.blocks.slot j).start ∧
      ((blockStamp m k).blocks.slot j).data = (m.blocks.slot j).data ∧
      ((blockStamp m k).blocks.slot j).used = (m.blocks.slot j).used ∧
      ((blockStamp m k).blocks.slot j).pending = (m.blocks.slot j).pending := by
    intro j
    rw [blockStamp_slot m k j hk]
    split
    · next he => subst he; exact ⟨rfl, rfl, rfl, rfl⟩
    · exact ⟨rfl, rfl, rfl, rfl⟩
  have hinv : BlockInv c (blockStamp m k) := by
    refine ⟨h.backing_wf, by rw [hlen]; exact h.slots_le, fun j hj => ?_, fun i j hi hj he => ?_, ?_, ?_⟩
    · rw [hlen] at hj
      have := h.blocks_ok j hj
      obtain ⟨e1, e2, e3, e4⟩ := hslot j
      unfold BlockOk at this ⊢
      rw [e1, e2, e3, e4]
      exact this
    · rw [hlen] at hi hj
      rw [(hslot i).1, (hslot j).1] at he
      exact h.starts_distinct i j hi hj he
    · rw [hlen]; exact h.index_perm
    · exact h.index_sorted.imp fun {a b} hab => by rw [(hslot a).1, (hslot b).1]; exact hab
  exact ⟨hinv, blockByte_congr h hinv rfl hlen fun j _ => ⟨(hslot j).1, (hslot j).2.1⟩⟩

/-! ### The victim (R152, R157) -/

/-- What taking a slot for a miss does: every other slot is as before, the index lists exactly the others, and the
backing store holds the flushed block's bytes, if it had a pending write, and is unchanged elsewhere. -/
structure VictimTaken (c : Config) (m : Mem) (k : Nat) (m' : Mem) : Prop where
  lt : k < m'.blocks.slots.length
  le : m'.blocks.slots.length ≤ c.nBlocks
  old : ∀ j, j ≠ k → (j < m'.blocks.slots.length ↔ j < m.blocks.slots.length)
  len : m.blocks.slots.length ≤ m'.blocks.slots.length
  same : ∀ j, j ≠ k → m'.blocks.slot j = m.blocks.slot j
  perm : (k :: m'.blocks.index).Perm (List.range m'.blocks.slots.length)
  sorted : m'.blocks.index.Pairwise fun i j => (m.blocks.slot i).start < (m.blocks.slot j).start
  wf : m'.backing.wf = true
  get : ∀ x, m'.backing.get x =
    if k < m.blocks.slots.length ∧ (m.blocks.slot k).pending = true ∧ (m.blocks.slot k).covers c x = true then
      (m.blocks.slot k).data.getD (x - (m.blocks.slot k).start) 0
    else m.backing.get x
  cache : m'.cache = m.cache
  io : Spent m.io m'.io

theorem oldestFrom_lt (l : List Block) (k best : Nat) (stamp : DWord) (n : Nat) (hb : best < n) (hk : k + l.length ≤ n) :
    oldestFrom l k best stamp < n := by
  induction l generalizing k best stamp with
  | nil => exact hb
  | cons b bs ih =>
    simp only [List.length_cons] at hk
    simp only [oldestFrom]
    split
    · exact ih _ _ _ (by omega) (by omega)
    · exact ih _ _ _ hb (by omega)

theorem oldest_lt {b : BlockCache} (h : 0 < b.slots.length) : b.oldest < b.slots.length := by
  unfold BlockCache.oldest
  split
  · next he => rw [he] at h; exact absurd h (by simp)
  · next s rest he => rw [he]; exact oldestFrom_lt rest 1 0 s.stamp _ (by simp) (by simp; omega)

/-- `oldestFrom` over the slots from number `k` on, with `best` the best before `k`, finds a slot with the least stamp. -/
theorem oldestFrom_le (g : Nat → DWord) : ∀ (l : List Block) (k best : Nat) (stamp : DWord),
    (∀ i, i < l.length → g (k + i) = (l.getD i Block.unused).stamp) → g best = stamp → (∀ j, j < k → stamp ≤ g j) →
    ∀ j, j < k + l.length → g (oldestFrom l k best stamp) ≤ g j
  | [], k, best, stamp, _, hb, hle, j, hj => by rw [oldestFrom, hb]; exact hle j hj
  | b :: bs, k, best, stamp, hg, hb, hle, j, hj => by
    have hk : g k = b.stamp := hg 0 (Nat.zero_lt_succ _)
    have hg' : ∀ i, i < bs.length → g (k + 1 + i) = (bs.getD i Block.unused).stamp := fun i hi => by
      rw [Nat.add_assoc, Nat.add_comm 1 i]; exact hg (i + 1) (Nat.succ_lt_succ hi)
    have hj' : j < k + 1 + bs.length := by rw [List.length_cons] at hj; omega
    rw [oldestFrom]
    split
    · next hlt =>
      refine oldestFrom_le g bs (k + 1) k b.stamp hg' hk (fun j hj => ?_) j hj'
      rw [BitVec.lt_def] at hlt
      rw [BitVec.le_def]
      by_cases h : j = k
      · rw [h, hk]
      · have := hle j (by omega); rw [BitVec.le_def] at this; omega
    · next hlt =>
      refine oldestFrom_le g bs (k + 1) best stamp hg' hb (fun j hj => ?_) j hj'
      by_cases h : j = k
      · rw [h, hk, BitVec.le_def]; rw [BitVec.lt_def] at hlt; omega
      · exact hle j (by omega)

/-- The slot `oldest` names has the least stamp (R152). -/
theorem oldest_le (b : BlockCache) {j : Nat} (hj : j < b.slots.length) : (b.slot b.oldest).stamp ≤ (b.slot j).stamp := by
  unfold BlockCache.oldest
  cases hb : b.slots with
  | nil => rw [hb] at hj; cases hj
  | cons s rest =>
    have hs : ∀ k, b.slot k = (s :: rest).getD k Block.unused := fun k => by unfold BlockCache.slot; rw [hb]
    refine oldestFrom_le (fun k => (b.slot k).stamp) rest 1 0 s.stamp (fun i _ => ?_) ?_ (fun j hj => ?_) j ?_
    · show (b.slot (1 + i)).stamp = _; rw [hs, Nat.add_comm]; rfl
    · show (b.slot 0).stamp = _; rw [hs]; rfl
    · obtain rfl : j = 0 := by omega
      show s.stamp ≤ (b.slot 0).stamp; rw [hs]; exact BitVec.le_refl _
    · rw [hb, List.length_cons] at hj; omega

theorem blockVictim_spec {c : Config} {m m' : Mem} {k : Nat} (h : BlockInv c m) (hn : 0 < c.nBlocks)
    (hr : blockVictim c m = .ok (k, m')) : VictimTaken c m k m' := by
  unfold blockVictim at hr
  split at hr
  · next hlt =>
    simp only [Except.ok.injEq, Prod.mk.injEq] at hr
    obtain ⟨rfl, rfl⟩ := hr
    refine ⟨by simp, by simpa using hlt, fun j hj => by simp; omega, by simp, fun j hj => ?_, ?_, h.index_sorted,
      h.backing_wf, fun x => ?_, rfl, .refl _⟩
    · simp only [BlockCache.slot, List.getD_eq_getElem?_getD]
      by_cases hjl : j < m.blocks.slots.length
      · rw [List.getElem?_append_left hjl]
      · rw [List.getElem?_eq_none (by simp; omega), List.getElem?_eq_none (by omega)]
    · show (m.blocks.slots.length :: m.blocks.index).Perm (List.range (m.blocks.slots ++ [Block.unused]).length)
      rw [List.length_append, List.length_singleton, List.range_succ]
      exact (List.Perm.cons _ h.index_perm).trans (List.perm_append_singleton _ _).symm
    · rw [if_neg (by simp)]
  · next hge =>
    have hpos : 0 < m.blocks.slots.length := by omega
    have hlt := oldest_lt hpos
    dsimp only at hr
    generalize hv : m.blocks.oldest = v at *
    split at hr
    · cases hr
    next m1 hfl =>
    simp only [Except.ok.injEq, Prod.mk.injEq] at hr
    obtain ⟨rfl, rfl⟩ := hr
    have hok := h.blocks_ok v hlt
    have hperm : (v :: m.blocks.index.erase v).Perm (List.range m.blocks.slots.length) :=
      (List.perm_cons_erase ((mem_index h v).2 hlt)).symm.trans h.index_perm
    have hsorted : (m.blocks.index.erase v).Pairwise fun i j => (m.blocks.slot i).start < (m.blocks.slot j).start :=
      h.index_sorted.sublist (List.erase_sublist)
    split at hfl
    · next hp =>
      unfold blockFlush at hfl
      dsimp only at hfl
      split at hfl
      · cases hfl
      next m2 hw =>
      obtain ⟨rfl, hio⟩ := bsWrite_spec hw
      cases hfl
      generalize hnb : ({ m.blocks.slot v with pending := false } : Block) = nb at *
      have hslot : ∀ j, j ≠ v → BlockCache.slot { m.blocks with slots := m.blocks.slots.set v nb } j = m.blocks.slot j := by
        intro j hj
        rw [slot_set, if_neg (by tauto)]
      refine ⟨by simpa using hlt, by simpa using h.slots_le, fun j _ => by simp, by simp, fun j hj => hslot j hj, ?_,
        hsorted, Memory.wf_putN h.backing_wf _ _, fun x => ?_, rfl, .next hio⟩
      · simpa using hperm
      · show (m.backing.putN (m.blocks.slot v).start (m.blocks.slot v).data).get x = _
        rw [Memory.get_putN h.backing_wf, hok.2.2.1]
        have hci : (m.blocks.slot v).covers c x = true ↔
            (m.blocks.slot v).start ≤ x ∧ x < (m.blocks.slot v).start + c.blockSize := by
          rw [Block.covers_iff]; simp [hok.1]
        simp only [hlt, hp, true_and, hci]
    · next hp =>
      cases hfl
      refine ⟨hlt, h.slots_le, fun j _ => Iff.rfl, Nat.le_refl _, fun j _ => rfl, hperm, hsorted, h.backing_wf,
        fun x => ?_, rfl, .refl _⟩
      rw [if_neg (by tauto)]

/-- A miss (R152). -/
theorem blockMiss_spec {c : Config} {m m' : Mem} {o k : Nat} (h : BlockInv c m) (hn : 0 < c.nBlocks)
    (hmiss : ∀ k, k < m.blocks.slots.length → (m.blocks.slot k).covers c o = false)
    (hr : blockMiss c m o = .ok (k, m')) :
    BlockInv c m' ∧ (∀ x, blockByte c m' x = blockByte c m x) ∧ k < m'.blocks.slots.length ∧
    (m'.blocks.slot k).covers c o = true ∧ m'.cache = m.cache ∧ Spent m.io m'.io := by
  unfold blockMiss at hr
  split at hr
  · cases hr
  next v m1 hvic =>
  have V := blockVictim_spec h hn hvic
  dsimp only at hr
  split at hr
  · cases hr
  next bytes m2 hrd =>
  obtain ⟨rfl, rfl, hio2⟩ := bsRead_spec hrd
  simp only [Except.ok.injEq, Prod.mk.injEq] at hr
  obtain ⟨hvk, hm'⟩ := hr
  subst hvk
  have hB := c.blockSize_pos
  have hst : (o - o % c.blockSize) % c.blockSize = 0 := Nat.sub_mod_eq_zero_of_mod_eq (Nat.mod_mod _ _).symm
  have hcov : ∀ x, o - o % c.blockSize ≤ x → x < o - o % c.blockSize + c.blockSize →
      ∀ j, j < m.blocks.slots.length → (m.blocks.slot j).covers c x = false := by
    intro x hx1 hx2 j hj
    cases hb : (m.blocks.slot j).covers c x
    · rfl
    · have hj' := h.blocks_ok j hj
      have hb := Block.covers_iff.1 hb
      have e1 := start_of_covers hj'.2.1 hb.2.1 hb.2.2
      have e2 := start_of_covers hst hx1 hx2
      have := hmiss j hj
      have hc : (m.blocks.slot j).covers c o = true := by
        rw [Block.covers_iff]
        have := Nat.mod_lt o hB
        exact ⟨hj'.1, by omega, by omega⟩
      rw [this] at hc
      cases hc
  generalize hst0 : o - o % c.blockSize = st at *
  generalize hnb : (⟨st, (m1.blocks.slot v).stamp, false, true, m1.backing.getN st c.blockSize⟩ : Block) = nb at hm'
  have hnbs : nb.start = st := by rw [← hnb]
  have hnbd : nb.data = m1.backing.getN st c.blockSize := by rw [← hnb]
  have hnbu : nb.used = true := by rw [← hnb]
  have hslot : ∀ j, m'.blocks.slot j = if j = v then nb else m.blocks.slot j := by
    intro j
    rw [← hm']
    show BlockCache.slot { m1.blocks with slots := m1.blocks.slots.set v nb } j = _
    rw [slot_set]
    by_cases hj : j = v
    · rw [if_pos ⟨hj, V.lt⟩, if_pos hj]
    · rw [if_neg (by tauto), if_neg hj, V.same j hj]
  have hlen : m'.blocks.slots.length = m1.blocks.slots.length := by rw [← hm']; simp
  have hback : m'.backing = m1.backing := by rw [← hm']
  have hindex : m'.blocks.index = indexInsert { m1.blocks with slots := m1.blocks.slots.set v nb } st v m1.blocks.index := by
    rw [← hm']
  have hslot' : ∀ j, BlockCache.slot { m1.blocks with slots := m1.blocks.slots.set v nb } j = m'.blocks.slot j := by
    intro j; rw [← hm']; rfl
  have hmemi : ∀ j ∈ m1.blocks.index, j ≠ v ∧ j < m.blocks.slots.length := by
    intro j hj
    have hnd : (v :: m1.blocks.index).Nodup := V.perm.nodup_iff.2 List.nodup_range
    have hjv : j ≠ v := fun he => (List.nodup_cons.1 hnd).1 (he ▸ hj)
    refine ⟨hjv, (V.old j hjv).1 ?_⟩
    have := V.perm.mem_iff.1 (List.mem_cons_of_mem v hj)
    exact List.mem_range.1 this
  have hnostart : ∀ j, j < m.blocks.slots.length → (m.blocks.slot j).start ≠ st := by
    intro j hj he
    have := hmiss j hj
    have hc : (m.blocks.slot j).covers c o = true := by
      rw [Block.covers_iff]
      have := Nat.mod_lt o hB
      have hle := Nat.mod_le o c.blockSize
      exact ⟨(h.blocks_ok j hj).1, by omega, by omega⟩
    rw [this] at hc
    cases hc
  have hother : ∀ j, j < m'.blocks.slots.length → j ≠ v → j < m.blocks.slots.length := by
    intro j hj hjv; rw [hlen] at hj; exact (V.old j hjv).1 hj
  have hinv : BlockInv c m' := by
    refine ⟨by rw [hback]; exact V.wf, by rw [hlen]; exact V.le, fun j hj => ?_, fun i j hi hj he => ?_, ?_, ?_⟩
    · rw [hslot]
      split
      · exact ⟨hnbu, by rw [hnbs]; exact hst, by rw [hnbd]; exact Memory.length_getN _ _ _,
          fun _ => by rw [hnbd, hnbs, hback]⟩
      · next hjv =>
        have hj' := hother j hj hjv
        obtain ⟨u, s0, l, cl⟩ := h.blocks_ok j hj'
        refine ⟨u, s0, l, fun hp => ?_⟩
        rw [cl hp]
        refine Memory.getN_congr fun i hi => ?_
        rw [hback, V.get, if_neg]
        rintro ⟨hv, -, hc⟩
        have hc := Block.covers_iff.1 hc
        have e1 := start_of_covers (h.blocks_ok v hv).2.1 hc.2.1 hc.2.2
        have e2 := start_of_covers s0 (Nat.le_add_right _ i) (Nat.add_lt_add_left hi _)
        exact hjv (h.starts_distinct j v hj' hv (e2.trans e1.symm))
    · rw [hslot, hslot] at he
      split at he
      · next hiv =>
        split at he
        · next hjv => rw [hiv, hjv]
        · next hjv => exact absurd (he.symm.trans hnbs) (hnostart j (hother j hj hjv))
      · next hiv =>
        split at he
        · next hjv => exact absurd (he.trans hnbs) (hnostart i (hother i hi hiv))
        · next hjv => exact h.starts_distinct i j (hother i hi hiv) (hother j hj hjv) he
    · rw [hindex, hlen]
      exact (indexInsert_perm _ _ _ _).trans V.perm
    · have hs := indexInsert_sorted (b := { m1.blocks with slots := m1.blocks.slots.set v nb }) (start := st) (k := v)
        (by rw [hslot', hslot, if_pos rfl, hnbs]) (l := m1.blocks.index) ?_ ?_
      · rw [hindex]
        exact hs.imp fun {a b} hab => by rw [hslot', hslot'] at hab; exact hab
      · refine V.sorted.imp_of_mem fun {a b} ha hb hab => ?_
        rw [hslot', hslot', hslot, hslot, if_neg (hmemi a ha).1, if_neg (hmemi b hb).1]
        exact hab
      · intro j hj
        rw [hslot', hslot, if_neg (hmemi j hj).1]
        exact hnostart j (hmemi j hj).2
  have hvlt : v < m'.blocks.slots.length := by rw [hlen]; exact V.lt
  refine ⟨hinv, fun x => ?_, hvlt, ?_, ?_, ?_⟩
  · by_cases hin : st ≤ x ∧ x < st + c.blockSize
    · have hnc := hcov x hin.1 hin.2
      rw [blockByte_miss h hnc, blockByte_hit hinv hvlt]
      · rw [hslot, if_pos rfl, hnbd, hnbs, Memory.getD_getN _ _ _ _ (by omega), show st + (x - st) = x by omega, V.get,
          if_neg]
        rintro ⟨hv, -, hc⟩
        rw [hnc v hv] at hc
        cases hc
      · rw [hslot, if_pos rfl, Block.covers_iff, hnbs]; exact ⟨hnbu, hin⟩
    · have hnv : (m'.blocks.slot v).covers c x = false := by
        rw [hslot, if_pos rfl]
        cases hb : nb.covers c x
        · rfl
        · rw [Block.covers_iff, hnbs] at hb; exact absurd hb.2 hin
      by_cases hany : ∃ j, j < m.blocks.slots.length ∧ (m.blocks.slot j).covers c x = true
      · obtain ⟨j, hj, hc⟩ := hany
        rw [blockByte_hit h hj hc]
        by_cases hjv : j = v
        · subst hjv
          rw [blockByte_miss hinv, hback, V.get]
          · by_cases hp : (m.blocks.slot j).pending = true
            · rw [if_pos ⟨hj, hp, hc⟩]
            · rw [if_neg (by tauto)]
              have hcc := Block.covers_iff.1 hc
              rw [(h.blocks_ok j hj).2.2.2 (by simpa using hp), Memory.getD_getN _ _ _ _ (by omega)]
              congr 1; omega
          · intro i hi
            by_cases hij : i = j
            · rw [hij]; exact hnv
            · have hi' := hother i hi hij
              rw [hslot, if_neg hij]
              cases hb : (m.blocks.slot i).covers c x
              · rfl
              · have hb := Block.covers_iff.1 hb
                have hc := Block.covers_iff.1 hc
                have e1 := start_of_covers (h.blocks_ok i hi').2.1 hb.2.1 hb.2.2
                have e2 := start_of_covers (h.blocks_ok j hj).2.1 hc.2.1 hc.2.2
                exact absurd (h.starts_distinct i j hi' hj (e1.trans e2.symm)) hij
        · rw [blockByte_hit hinv (k := j)]
          · rw [hslot, if_neg hjv]
          · rw [hlen]; exact Nat.lt_of_lt_of_le hj V.len
          · rw [hslot, if_neg hjv]; exact hc
      · have hnone : ∀ j, j < m.blocks.slots.length → (m.blocks.slot j).covers c x = false := by
          intro j hj
          cases hb : (m.blocks.slot j).covers c x
          · rfl
          · exact absurd ⟨j, hj, hb⟩ hany
        rw [blockByte_miss h hnone, blockByte_miss hinv, hback, V.get, if_neg]
        · rintro ⟨hv, -, hc⟩
          rw [hnone v hv] at hc
          cases hc
        · intro i hi
          by_cases hiv : i = v
          · rw [hiv]; exact hnv
          · rw [hslot, if_neg hiv]; exact hnone i (hother i hi hiv)
  · rw [hslot, if_pos rfl, Block.covers_iff, hnbs, ← hst0]
    have := Nat.mod_lt o hB
    have := Nat.mod_le o c.blockSize
    exact ⟨hnbu, by omega, by omega⟩
  · rw [← hm']; exact V.cache
  · rw [← hm']; exact V.io.trans (.next hio2)

/-! ### Resolve (R151, R152, R155) -/

/-- What a resolve does to the hierarchy. -/
structure BlockResolved (c : Config) (m : Mem) (o k : Nat) (m' : Mem) : Prop where
  inv : BlockInv c m'
  image : ∀ x, blockByte c m' x = blockByte c m x
  lt : k < m'.blocks.slots.length
  holds : (m'.blocks.slot k).covers c o = true
  cache : m'.cache = m.cache
  io : Spent m.io m'.io

theorem blockStamp_resolved {c : Config} {m m1 : Mem} {o k : Nat} (h : BlockInv c m1)
    (himg : ∀ x, blockByte c m1 x = blockByte c m x) (hk : k < m1.blocks.slots.length)
    (hc : (m1.blocks.slot k).covers c o = true) (hcache : m1.cache = m.cache) (hio : Spent m.io m1.io) :
    BlockResolved c m o k (blockStamp m1 k) := by
  obtain ⟨hi, hb⟩ := blockStamp_spec h hk
  refine ⟨hi, fun x => (hb x).trans (himg x), by simpa [blockStamp] using hk, ?_, hcache, hio⟩
  rw [blockStamp_slot m1 k k hk, if_pos rfl]
  exact hc

theorem blockResolve_spec {c : Config} {m m' : Mem} {o k : Nat} (h : BlockInv c m) (hn : 0 < c.nBlocks)
    (hr : blockResolve c m o = .ok (k, m')) : BlockResolved c m o k m' := by
  unfold blockResolve at hr
  split at hr
  · next j hf =>
    cases hr
    have := (blockFind_eq_some h o _).1 hf
    exact blockStamp_resolved h (fun _ => rfl) this.1 this.2 rfl (.refl _)
  · next hf =>
    split at hr
    · cases hr
    next j m1 hm =>
    cases hr
    obtain ⟨h1, h2, h3, h4, h5, h6⟩ := blockMiss_spec h hn ((blockFind_eq_none h o).1 hf) hm
    exact blockStamp_resolved h1 h2 h3 h4 h5 h6

/-- A resolve stops only on a storage failure (R158), and never when none is coming. -/
theorem blockResolve_error {c : Config} {m : Mem} {o : Nat} {f : Fault} (hr : blockResolve c m o = .error f) :
    (∃ op a, f = .storageFault op a) ∧ ¬ NoFailure m := by
  unfold blockResolve at hr
  split at hr
  · cases hr
  split at hr
  · next f' hm =>
    cases hr
    unfold blockMiss at hm
    split at hm
    · next f' hv =>
      cases hm
      unfold blockVictim at hv
      split at hv
      · cases hv
      · dsimp only at hv
        split at hv
        · next f' hfl =>
          cases hv
          split at hfl
          · unfold blockFlush at hfl
            dsimp only at hfl
            split at hfl
            · next f' hw =>
              cases hfl
              obtain ⟨rfl, hio⟩ := bsWrite_error hw
              exact ⟨⟨_, _, rfl⟩, fun hn => by have := NoFailure.next hn; simp_all⟩
            · cases hfl
          · cases hfl
        · cases hv
    · next v m1 hv =>
      dsimp only at hm
      split at hm
      · next f' hrd =>
        cases hm
        obtain ⟨rfl, hio⟩ := bsRead_error hrd
        refine ⟨⟨_, _, rfl⟩, fun hn => ?_⟩
        have hm1 : NoFailure m1 := by
          unfold blockVictim at hv
          split at hv
          · cases hv; exact hn
          · dsimp only at hv
            split at hv
            · cases hv
            · next m2 hfl =>
              cases hv
              split at hfl
              · unfold blockFlush at hfl
                dsimp only at hfl
                split at hfl
                · cases hfl
                · next m3 hw =>
                  obtain ⟨rfl, -⟩ := bsWrite_spec hw
                  cases hfl
                  exact NoFailure.rest (m := m) hn
              · cases hfl; exact hn
        have := NoFailure.next hm1
        simp_all
      · cases hm
  · cases hr

/-! ### Read and write (R156) -/

/-- A read inside one block returns the bytes of the image (R156, R159). -/
theorem blockRead_spec {c : Config} {m m' : Mem} {o n : Nat} {bytes : List Byte} (h : BlockInv c m) (hb : 0 < c.nBlocks)
    (hn : o % c.blockSize + n ≤ c.blockSize) (hr : blockRead c m o n = .ok (bytes, m')) :
    bytes = (List.range n).map (fun k => blockByte c m (o + k)) ∧ ∃ k, BlockResolved c m o k m' := by
  unfold blockRead at hr
  split at hr
  · cases hr
  next j m1 hres =>
  cases hr
  have hR := blockResolve_spec h hb hres
  refine ⟨?_, j, hR⟩
  have hok := hR.inv.blocks_ok _ hR.lt
  have hc := Block.covers_iff.1 hR.holds
  have hs := start_of_covers hok.2.1 hc.2.1 hc.2.2
  have hle := Nat.mod_le o c.blockSize
  have hsl : (slice (m'.blocks.slot j).data (o - (m'.blocks.slot j).start) n).length = n :=
    length_slice (by rw [hok.2.2.1]; omega)
  apply List.ext_getElem
  · simp [hsl]
  · intro k h1 h2
    have hk : k < n := by simpa [hsl] using h1
    have hd := getD_slice (m'.blocks.slot j).data (o - (m'.blocks.slot j).start) n k hk
    rw [List.getElem_map, List.getElem_range]
    rw [show (slice (m'.blocks.slot j).data (o - (m'.blocks.slot j).start) n)[k] =
      (slice (m'.blocks.slot j).data (o - (m'.blocks.slot j).start) n).getD k 0 by
        simp [List.getD_eq_getElem?_getD, List.getElem?_eq_getElem h1], hd, ← hR.image]
    rw [blockByte_hit hR.inv hR.lt (o := o + k) (Block.covers_iff.2 ⟨hok.1, by omega, by omega⟩)]
    congr 1
    omega

/-- A write inside one block changes exactly the bytes it names (R156, R159). -/
theorem blockWrite_spec {c : Config} {m m' : Mem} {o : Nat} {bytes : List Byte} (h : BlockInv c m) (hb : 0 < c.nBlocks)
    (hn : o % c.blockSize + bytes.length ≤ c.blockSize) (hw : blockWrite c m o bytes = .ok m') :
    BlockInv c m' ∧
    (∀ x, blockByte c m' x = if o ≤ x ∧ x < o + bytes.length then bytes.getD (x - o) 0 else blockByte c m x) ∧
    m'.cache = m.cache ∧ Spent m.io m'.io := by
  unfold blockWrite at hw
  split at hw
  · cases hw
  next k m1 hres =>
  dsimp only at hw
  simp only [Except.ok.injEq] at hw
  have hR := blockResolve_spec h hb hres
  have hok := hR.inv.blocks_ok _ hR.lt
  have hc := Block.covers_iff.1 hR.holds
  have hs := start_of_covers hok.2.1 hc.2.1 hc.2.2
  have hle := Nat.mod_le o c.blockSize
  have hfit : o - (m1.blocks.slot k).start + bytes.length ≤ (m1.blocks.slot k).data.length := by
    rw [hok.2.2.1]; omega
  generalize hnb : (⟨(m1.blocks.slot k).start, (m1.blocks.slot k).stamp, true, (m1.blocks.slot k).used,
    patch (m1.blocks.slot k).data (o - (m1.blocks.slot k).start) bytes⟩ : Block) = nb at hw
  have hslot : ∀ j, m'.blocks.slot j = if j = k then nb else m1.blocks.slot j := by
    intro j
    rw [← hw]
    show BlockCache.slot { m1.blocks with slots := m1.blocks.slots.set k nb } j = _
    rw [slot_set]
    by_cases hj : j = k
    · rw [if_pos ⟨hj, hR.lt⟩, if_pos hj]
    · rw [if_neg (by tauto), if_neg hj]
  have hlen : m'.blocks.slots.length = m1.blocks.slots.length := by rw [← hw]; simp
  have hback : m'.backing = m1.backing := by rw [← hw]
  have hidx : m'.blocks.index = m1.blocks.index := by rw [← hw]
  have hstart : ∀ j, (m'.blocks.slot j).start = (m1.blocks.slot j).start := by
    intro j; rw [hslot]; split
    · next hj => rw [← hnb, hj]
    · rfl
  have hused : ∀ j, (m'.blocks.slot j).used = (m1.blocks.slot j).used := by
    intro j; rw [hslot]; split
    · next hj => rw [← hnb, hj]
    · rfl
  have hcov : ∀ j x, (m'.blocks.slot j).covers c x = (m1.blocks.slot j).covers c x := by
    intro j x; simp only [Block.covers, hstart, hused]
  have hinv : BlockInv c m' := by
    refine ⟨by rw [hback]; exact hR.inv.backing_wf, by rw [hlen]; exact hR.inv.slots_le, fun j hj => ?_,
      fun i j hi hj he => ?_, ?_, ?_⟩
    · rw [hlen] at hj
      rw [hslot, hback]
      split
      · refine ⟨?_, ?_, ?_, fun hp => ?_⟩
        · rw [← hnb]; exact hok.1
        · rw [← hnb]; exact hok.2.1
        · rw [← hnb]; show (patch _ _ _).length = _; rw [length_patch hfit, hok.2.2.1]
        · rw [← hnb] at hp; cases hp
      · exact hR.inv.blocks_ok j hj
    · rw [hlen] at hi hj
      rw [hstart, hstart] at he
      exact hR.inv.starts_distinct i j hi hj he
    · rw [hidx, hlen]; exact hR.inv.index_perm
    · rw [hidx]; exact hR.inv.index_sorted.imp fun {a b} hab => by rw [hstart, hstart]; exact hab
  refine ⟨hinv, fun x => ?_, by rw [← hw]; exact hR.cache, by rw [← hw]; exact hR.io⟩
  by_cases hany : ∃ j, j < m1.blocks.slots.length ∧ (m1.blocks.slot j).covers c x = true
  · obtain ⟨j, hj, hcj⟩ := hany
    rw [blockByte_hit hinv (k := j) (by rw [hlen]; exact hj) (by rw [hcov]; exact hcj), ← hR.image x,
      blockByte_hit hR.inv hj hcj, hstart]
    have hcx := Block.covers_iff.1 hcj
    by_cases hjk : j = k
    · subst hjk
      rw [hslot, if_pos rfl, ← hnb]
      show (patch _ _ _).getD _ 0 = _
      rw [getD_patch hfit]
      by_cases hr : o ≤ x ∧ x < o + bytes.length
      · rw [if_pos hr, if_pos (by omega)]; congr 1; omega
      · rw [if_neg hr, if_neg (by omega)]
    · rw [hslot, if_neg hjk, if_neg]
      intro hr
      have hx := start_of_covers hok.2.1 (o := x) (by omega) (by omega)
      have hy := start_of_covers (hR.inv.blocks_ok j hj).2.1 hcx.2.1 hcx.2.2
      exact hjk (hR.inv.starts_distinct j k hj hR.lt (hy.trans hx.symm))
  · have hnone : ∀ j, j < m1.blocks.slots.length → (m1.blocks.slot j).covers c x = false := by
      intro j hj
      cases hb : (m1.blocks.slot j).covers c x
      · rfl
      · exact absurd ⟨j, hj, hb⟩ hany
    rw [blockByte_miss hinv (fun j hj => by rw [hcov]; exact hnone j (hlen ▸ hj)), ← hR.image x,
      blockByte_miss hR.inv hnone, hback, if_neg]
    intro hr
    have := hnone k hR.lt
    have hx : (m1.blocks.slot k).covers c x = true := Block.covers_iff.2 ⟨hok.1, by omega, by omega⟩
    rw [this] at hx
    cases hx

/-- The block cache at a session's start is good over any backing store (R159). -/
theorem blockInv_empty (c : Config) (m : Mem) (hwf : m.backing.wf = true) (he : m.blocks = BlockCache.empty) :
    BlockInv c m := by
  refine ⟨hwf, ?_, ?_, ?_, ?_, ?_⟩ <;> rw [he] <;> simp [BlockCache.empty]

end Sys2Proof.Machine
end

