-- ==== Sys2Proof/Laws/Hierarchy.lean ====
section
/-! SUPPORT. The laws of RAM access (`20_memory.md` R113, R116, R120, R131): what a read and a write of the hierarchy
in use do to the image and to the invariants, when they stop, and the byte order. -/

namespace Sys2Proof.Machine

/-! ### Byte order (R113) -/

theorem length_leBytes (n : Nat) (v : Word) : (leBytes n v).length = n := by
  induction n generalizing v with
  | zero => rfl
  | succ n ih => simp [leBytes, ih]

theorem getD_leBytes (n : Nat) (v : Word) (k : Nat) (h : k < n) : (leBytes n v).getD k 0 = (v >>> (8 * k)).setWidth 8 := by
  induction n generalizing v k with
  | zero => omega
  | succ n ih =>
    cases k with
    | zero => simp [leBytes]
    | succ k =>
      simp only [leBytes, List.getD_cons_succ]
      rw [ih _ _ (by omega), ← BitVec.shiftRight_add, show 8 + 8 * k = 8 * (k + 1) by omega]

/-- The bit of a little-endian value: bit `i % 8` of byte `i / 8`. -/
theorem getLsbD_leWord (bs : List Byte) (i : Nat) (hi : i < 32) :
    (leWord bs).getLsbD i = (bs.getD (i / 8) 0).getLsbD (i % 8) := by
  induction bs generalizing i with
  | nil => simp [leWord]
  | cons b bs ih =>
    simp only [leWord, BitVec.getLsbD_or, BitVec.getLsbD_setWidth, BitVec.getLsbD_shiftLeft]
    by_cases h8 : i < 8
    · rw [Nat.div_eq_of_lt h8, Nat.mod_eq_of_lt h8]
      simp [hi, h8]
    · rw [show i / 8 = (i - 8) / 8 + 1 by omega, List.getD_cons_succ, show i % 8 = (i - 8) % 8 by omega,
        ← ih (i - 8) (by omega), BitVec.getLsbD_of_ge b i (by omega)]
      simp [hi, h8]

/-- Reading back the bytes of a word gives the word cut to their width. -/
theorem leWord_leBytes (n : Nat) (v : Word) : leWord (leBytes n v) = (v.setWidth (8 * n)).setWidth 32 := by
  ext i hi
  simp only [← BitVec.getLsbD_eq_getElem]
  rw [getLsbD_leWord _ _ hi]
  by_cases h : i / 8 < n
  · rw [getD_leBytes _ _ _ h]
    simp only [BitVec.getLsbD_setWidth, BitVec.getLsbD_ushiftRight]
    rw [show 8 * (i / 8) + i % 8 = i by omega]
    simp [hi, show i < 8 * n by omega, show i % 8 < 8 by omega]
  · rw [List.getD_eq_default _ _ (by rw [length_leBytes]; omega)]
    simp [show ¬ i < 8 * n by omega]

/-! ### The hierarchy in use -/

/-- What an access that does not stop keeps or does: the invariants, and the image as `byte'` says. -/
structure Accessed (c : Config) (m : Mem) (m' : Mem) (image : Nat → Byte) : Prop where
  inv : MemInv c m'
  byte : ∀ x, m'.byte c x = image x
  io : Spent m.io m'.io

/-- The value of `n` bytes the image holds, when they are those of `v` (a read after a write gives the value written,
cut to the width). -/
theorem Mem.value_of_bytes {c : Config} {m : Mem} {o n : Nat} {v : Word}
    (h : ∀ x, o ≤ x → x < o + n → m.byte c x = (v >>> (8 * (x - o))).setWidth 8) :
    m.value c o n = (v.setWidth (8 * n)).setWidth 32 := by
  rw [← leWord_leBytes, Mem.value]
  congr 1
  apply List.ext_getElem
  · simp [length_leBytes]
  · intro k h1 h2
    have hk : k < n := by simpa using h1
    rw [List.getElem_map, List.getElem_range, h _ (by omega) (by omega)]
    rw [show (leBytes n v)[k] = (leBytes n v).getD k 0 by
      simp [List.getD_eq_getElem?_getD, List.getElem?_eq_getElem h2], getD_leBytes _ _ _ hk]
    congr 3
    omega

theorem crosses_eq_false {c : Config} {o n : Nat} : crosses c o n = false ↔ o % c.unitSize + n ≤ c.unitSize := by
  simp [crosses]

/-- A read of RAM (R120, R128, R131, R156): the value of the image, which it keeps. -/
theorem Mem.read_spec {c : Config} {m m' : Mem} {o n : Nat} {v : Word} (h : MemInv c m) (hb : 0 < c.nBlocks)
    (hr : m.read c o n = .ok (v, m')) : v = m.value c o n ∧ Accessed c m m' (m.byte c) := by
  unfold Mem.read at hr
  split at hr
  · cases hr
  next hx =>
  have hx := crosses_eq_false.1 (by simpa using hx)
  cases hv : c.variant with
  | setAssoc =>
    simp only [hv] at hr
    simp only [Config.unitSize, hv] at hx
    simp only [MemInv, hv] at h
    split at hr
    · cases hr
    next bytes m1 hc =>
    cases hr
    obtain ⟨hbytes, w, R⟩ := cacheRead_spec h hx hc
    refine ⟨?_, ?_, fun x => ?_, R.io⟩
    · simp only [Mem.value, Mem.byte, hv, hbytes]
    · simp only [MemInv, hv]; exact R.inv
    · simp only [Mem.byte, hv]; exact R.image x
  | blockCache =>
    simp only [hv] at hr
    simp only [Config.unitSize, hv] at hx
    simp only [MemInv, hv] at h
    split at hr
    · cases hr
    next bytes m1 hc =>
    cases hr
    obtain ⟨hbytes, w, R⟩ := blockRead_spec h hb hx hc
    refine ⟨?_, ?_, fun x => ?_, R.io⟩
    · simp only [Mem.value, Mem.byte, hv, hbytes]
    · simp only [MemInv, hv]; exact R.inv
    · simp only [Mem.byte, hv]; exact R.image x

/-- A write of RAM (R120, R129, R131, R156): the image changes at the `n` named bytes and nowhere else. -/
theorem Mem.write_spec {c : Config} {m m' : Mem} {o n : Nat} {v : Word} (h : MemInv c m) (hb : 0 < c.nBlocks)
    (hw : m.write c o n v = .ok m') :
    Accessed c m m' fun x => if o ≤ x ∧ x < o + n then (v >>> (8 * (x - o))).setWidth 8 else m.byte c x := by
  unfold Mem.write at hw
  split at hw
  · cases hw
  next hx =>
  have hx := crosses_eq_false.1 (by simpa using hx)
  have himg : ∀ (x : Nat) (old : Byte), (if o ≤ x ∧ x < o + (leBytes n v).length then (leBytes n v).getD (x - o) 0
      else old) = if o ≤ x ∧ x < o + n then (v >>> (8 * (x - o))).setWidth 8 else old := by
    intro x old
    rw [length_leBytes]
    split
    · rw [getD_leBytes _ _ _ (by omega)]
    · rfl
  cases hv : c.variant with
  | setAssoc =>
    simp only [hv] at hw
    simp only [Config.unitSize, hv] at hx
    simp only [MemInv, hv] at h
    obtain ⟨hi, himage, -, hio⟩ := cacheWrite_spec h (by rw [length_leBytes]; exact hx) hw
    refine ⟨by simp only [MemInv, hv]; exact hi, fun x => ?_, hio⟩
    simp only [Mem.byte, hv]
    rw [himage x, himg]
  | blockCache =>
    simp only [hv] at hw
    simp only [Config.unitSize, hv] at hx
    simp only [MemInv, hv] at h
    obtain ⟨hi, himage, -, hio⟩ := blockWrite_spec h hb (by rw [length_leBytes]; exact hx) hw
    refine ⟨by simp only [MemInv, hv]; exact hi, fun x => ?_, hio⟩
    simp only [Mem.byte, hv]
    rw [himage x, himg]

/-- Why a read stops: it crosses a line or block (R116), or a storage operation fails (R134, R158). -/
theorem Mem.read_error {c : Config} {m : Mem} {o n : Nat} {f : Fault} (hr : m.read c o n = .error f) :
    (crosses c o n = true ∧ f = .lineCross) ∨ (¬ NoFailure m ∧ ∃ op a, f = .storageFault op a) := by
  unfold Mem.read at hr
  split at hr
  · next hx => cases hr; exact .inl ⟨hx, rfl⟩
  · split at hr
    · next f' he =>
      cases hr
      right
      cases hv : c.variant with
      | setAssoc =>
        simp only [hv, cacheRead] at he
        split at he
        · next f'' hc => cases he; exact (cacheResolve_error hc).symm
        · cases he
      | blockCache =>
        simp only [hv, blockRead] at he
        split at he
        · next f'' hc => cases he; exact (blockResolve_error hc).symm
        · cases he
    · cases hr

/-- Why a write stops: as a read. -/
theorem Mem.write_error {c : Config} {m : Mem} {o n : Nat} {v : Word} {f : Fault} (hr : m.write c o n v = .error f) :
    (crosses c o n = true ∧ f = .lineCross) ∨ (¬ NoFailure m ∧ ∃ op a, f = .storageFault op a) := by
  unfold Mem.write at hr
  split at hr
  · next hx => cases hr; exact .inl ⟨hx, rfl⟩
  · right
    cases hv : c.variant with
    | setAssoc =>
      simp only [hv, cacheWrite] at hr
      split at hr
      · next f'' hc => cases hr; exact (cacheResolve_error hc).symm
      · cases hr
    | blockCache =>
      simp only [hv, blockWrite] at hr
      split at hr
      · next f'' hc => cases hr; exact (blockResolve_error hc).symm
      · cases hr

/-- A read inside one line or block, with no failure coming, completes. -/
theorem Mem.read_completes {c : Config} {m : Mem} {o n : Nat} (hx : crosses c o n = false) (hn : NoFailure m) :
    ∃ v m', m.read c o n = .ok (v, m') := by
  cases hr : m.read c o n with
  | ok p => exact ⟨p.1, p.2, rfl⟩
  | error f =>
    rcases Mem.read_error hr with ⟨h, -⟩ | ⟨h, -⟩
    · rw [hx] at h; cases h
    · exact absurd hn h

/-- A write inside one line or block, with no failure coming, completes. -/
theorem Mem.write_completes {c : Config} {m : Mem} {o n : Nat} {v : Word} (hx : crosses c o n = false) (hn : NoFailure m) :
    ∃ m', m.write c o n v = .ok m' := by
  cases hr : m.write c o n v with
  | ok p => exact ⟨p, rfl⟩
  | error f =>
    rcases Mem.write_error hr with ⟨h, -⟩ | ⟨h, -⟩
    · rw [hx] at h; cases h
    · exact absurd hn h

theorem NoFailure.of_io {m m' : Mem} (h : NoFailure m) (hio : Spent m.io m'.io) : NoFailure m' :=
  fun b hb => h b (hio.subset b hb)

/-- The hierarchy right after reset or a reload is good over any canonical backing store (R133, R159). -/
theorem memInv_empty (c : Config) (m : Mem) (hwf : m.backing.wf = true) (hc : m.cache = SetCache.empty)
    (hb : m.blocks = BlockCache.empty) : MemInv c m := by
  unfold MemInv
  split
  · exact cacheInv_empty c m hwf hc
  · exact blockInv_empty c m hwf hb

end Sys2Proof.Machine
end

