-- ==== Sys2Proof/Laws/State.lean ====
section
/-! SUPPORT. The small lemmas of the state: what a read of a register gives after a write (`10_state.md` R31, R33),
and one lemma for each field after each update, so that no later proof unfolds a record update. -/

namespace Sys2Proof.Machine

/-! ### Registers (R31, R33) -/

@[simp] theorem State.readReg_zero (s : State) : s.readReg 0 = 0 := rfl

@[simp] theorem State.writeReg_zero (s : State) (v : Word) : s.writeReg 0 v = s := rfl

/-- A read after a write: the value written at the register written, unless it is x0. -/
theorem State.readReg_writeReg (s : State) (rd : Reg) (v : Word) (r : Reg) :
    (s.writeReg rd v).readReg r = if r = rd ∧ r ≠ 0 then v else s.readReg r := by
  unfold State.writeReg State.readReg
  by_cases hr : r.val = 0
  · have : r = 0 := Fin.ext hr
    simp [this]
  · have hne : r ≠ 0 := fun h => hr (by rw [h]; rfl)
    by_cases hd : rd.val = 0
    · have hdz : rd = 0 := Fin.ext hd
      simp [hr, hdz, hne]
    · by_cases h : r = rd
      · subst h; simp [hr, hne]
      · have : rd.val - 1 ≠ r.val - 1 := fun he => h (Fin.ext (by omega))
        simp [hr, hd, h, this]

/-- Two states with the same register file read the same. -/
theorem State.readReg_congr {s t : State} (h : t.regs = s.regs) (r : Reg) : t.readReg r = s.readReg r := by
  unfold State.readReg; rw [h]

/-! ### `writeReg` -/

@[simp] theorem State.writeReg_cfg (s : State) (r : Reg) (v : Word) : (s.writeReg r v).cfg = s.cfg :=
  by unfold State.writeReg; split <;> rfl
@[simp] theorem State.writeReg_pc (s : State) (r : Reg) (v : Word) : (s.writeReg r v).pc = s.pc :=
  by unfold State.writeReg; split <;> rfl
@[simp] theorem State.writeReg_ef (s : State) (r : Reg) (v : Word) : (s.writeReg r v).ef = s.ef :=
  by unfold State.writeReg; split <;> rfl
@[simp] theorem State.writeReg_cycle (s : State) (r : Reg) (v : Word) : (s.writeReg r v).cycle = s.cycle :=
  by unfold State.writeReg; split <;> rfl
@[simp] theorem State.writeReg_mtime (s : State) (r : Reg) (v : Word) : (s.writeReg r v).mtime = s.mtime :=
  by unfold State.writeReg; split <;> rfl
@[simp] theorem State.writeReg_mtimecmp (s : State) (r : Reg) (v : Word) : (s.writeReg r v).mtimecmp = s.mtimecmp :=
  by unfold State.writeReg; split <;> rfl
@[simp] theorem State.writeReg_csr (s : State) (r : Reg) (v : Word) : (s.writeReg r v).csr = s.csr :=
  by unfold State.writeReg; split <;> rfl
@[simp] theorem State.writeReg_mem (s : State) (r : Reg) (v : Word) : (s.writeReg r v).mem = s.mem :=
  by unfold State.writeReg; split <;> rfl
@[simp] theorem State.writeReg_kb (s : State) (r : Reg) (v : Word) : (s.writeReg r v).kb = s.kb :=
  by unfold State.writeReg; split <;> rfl
@[simp] theorem State.writeReg_con (s : State) (r : Reg) (v : Word) : (s.writeReg r v).con = s.con :=
  by unfold State.writeReg; split <;> rfl
@[simp] theorem State.writeReg_blk (s : State) (r : Reg) (v : Word) : (s.writeReg r v).blk = s.blk :=
  by unfold State.writeReg; split <;> rfl
@[simp] theorem State.writeReg_call (s : State) (r : Reg) (v : Word) : (s.writeReg r v).call = s.call :=
  by unfold State.writeReg; split <;> rfl
@[simp] theorem State.writeReg_calls (s : State) (r : Reg) (v : Word) : (s.writeReg r v).calls = s.calls :=
  by unfold State.writeReg; split <;> rfl
@[simp] theorem State.writeReg_agenda (s : State) (r : Reg) (v : Word) : (s.writeReg r v).agenda = s.agenda :=
  by unfold State.writeReg; split <;> rfl

/-! ### `advance` -/

@[simp] theorem State.advance_cfg (s : State) : (s.advance).cfg = s.cfg := rfl
@[simp] theorem State.advance_regs (s : State) : (s.advance).regs = s.regs := rfl
@[simp] theorem State.advance_pc (s : State) : (s.advance).pc = s.pc + 4 := rfl
@[simp] theorem State.advance_ef (s : State) : (s.advance).ef = s.ef := rfl
@[simp] theorem State.advance_cycle (s : State) : (s.advance).cycle = s.cycle := rfl
@[simp] theorem State.advance_mtime (s : State) : (s.advance).mtime = s.mtime := rfl
@[simp] theorem State.advance_mtimecmp (s : State) : (s.advance).mtimecmp = s.mtimecmp := rfl
@[simp] theorem State.advance_csr (s : State) : (s.advance).csr = s.csr := rfl
@[simp] theorem State.advance_mem (s : State) : (s.advance).mem = s.mem := rfl
@[simp] theorem State.advance_kb (s : State) : (s.advance).kb = s.kb := rfl
@[simp] theorem State.advance_con (s : State) : (s.advance).con = s.con := rfl
@[simp] theorem State.advance_blk (s : State) : (s.advance).blk = s.blk := rfl
@[simp] theorem State.advance_call (s : State) : (s.advance).call = s.call := rfl
@[simp] theorem State.advance_calls (s : State) : (s.advance).calls = s.calls := rfl
@[simp] theorem State.advance_agenda (s : State) : (s.advance).agenda = s.agenda := rfl

/-! ### `finish` -/

@[simp] theorem State.finish_cfg (s : State) (rd : Reg) (v : Word) : (s.finish rd v).cfg = s.cfg :=
  State.writeReg_cfg s rd v
@[simp] theorem State.finish_regs (s : State) (rd : Reg) (v : Word) : (s.finish rd v).regs = (s.writeReg rd v).regs :=
  rfl
@[simp] theorem State.finish_pc (s : State) (rd : Reg) (v : Word) : (s.finish rd v).pc = s.pc + 4 :=
  by rw [← State.writeReg_pc s rd v]; rfl
@[simp] theorem State.finish_ef (s : State) (rd : Reg) (v : Word) : (s.finish rd v).ef = s.ef :=
  State.writeReg_ef s rd v
@[simp] theorem State.finish_cycle (s : State) (rd : Reg) (v : Word) : (s.finish rd v).cycle = s.cycle :=
  State.writeReg_cycle s rd v
@[simp] theorem State.finish_mtime (s : State) (rd : Reg) (v : Word) : (s.finish rd v).mtime = s.mtime :=
  State.writeReg_mtime s rd v
@[simp] theorem State.finish_mtimecmp (s : State) (rd : Reg) (v : Word) : (s.finish rd v).mtimecmp = s.mtimecmp :=
  State.writeReg_mtimecmp s rd v
@[simp] theorem State.finish_csr (s : State) (rd : Reg) (v : Word) : (s.finish rd v).csr = s.csr :=
  State.writeReg_csr s rd v
@[simp] theorem State.finish_mem (s : State) (rd : Reg) (v : Word) : (s.finish rd v).mem = s.mem :=
  State.writeReg_mem s rd v
@[simp] theorem State.finish_kb (s : State) (rd : Reg) (v : Word) : (s.finish rd v).kb = s.kb :=
  State.writeReg_kb s rd v
@[simp] theorem State.finish_con (s : State) (rd : Reg) (v : Word) : (s.finish rd v).con = s.con :=
  State.writeReg_con s rd v
@[simp] theorem State.finish_blk (s : State) (rd : Reg) (v : Word) : (s.finish rd v).blk = s.blk :=
  State.writeReg_blk s rd v
@[simp] theorem State.finish_call (s : State) (rd : Reg) (v : Word) : (s.finish rd v).call = s.call :=
  State.writeReg_call s rd v
@[simp] theorem State.finish_calls (s : State) (rd : Reg) (v : Word) : (s.finish rd v).calls = s.calls :=
  State.writeReg_calls s rd v
@[simp] theorem State.finish_agenda (s : State) (rd : Reg) (v : Word) : (s.finish rd v).agenda = s.agenda :=
  State.writeReg_agenda s rd v

/-! ### `finishAt` -/

@[simp] theorem State.finishAt_cfg (s : State) (rd : Reg) (v npc : Word) : (s.finishAt rd v npc).cfg = s.cfg :=
  State.writeReg_cfg s rd v
@[simp] theorem State.finishAt_regs (s : State) (rd : Reg) (v npc : Word) :
    (s.finishAt rd v npc).regs = (s.writeReg rd v).regs :=
  rfl
@[simp] theorem State.finishAt_pc (s : State) (rd : Reg) (v npc : Word) : (s.finishAt rd v npc).pc = npc := rfl
@[simp] theorem State.finishAt_ef (s : State) (rd : Reg) (v npc : Word) : (s.finishAt rd v npc).ef = s.ef :=
  State.writeReg_ef s rd v
@[simp] theorem State.finishAt_cycle (s : State) (rd : Reg) (v npc : Word) : (s.finishAt rd v npc).cycle = s.cycle :=
  State.writeReg_cycle s rd v
@[simp] theorem State.finishAt_mtime (s : State) (rd : Reg) (v npc : Word) : (s.finishAt rd v npc).mtime = s.mtime :=
  State.writeReg_mtime s rd v
@[simp] theorem State.finishAt_mtimecmp (s : State) (rd : Reg) (v npc : Word) :
    (s.finishAt rd v npc).mtimecmp = s.mtimecmp :=
  State.writeReg_mtimecmp s rd v
@[simp] theorem State.finishAt_csr (s : State) (rd : Reg) (v npc : Word) : (s.finishAt rd v npc).csr = s.csr :=
  State.writeReg_csr s rd v
@[simp] theorem State.finishAt_mem (s : State) (rd : Reg) (v npc : Word) : (s.finishAt rd v npc).mem = s.mem :=
  State.writeReg_mem s rd v
@[simp] theorem State.finishAt_kb (s : State) (rd : Reg) (v npc : Word) : (s.finishAt rd v npc).kb = s.kb :=
  State.writeReg_kb s rd v
@[simp] theorem State.finishAt_con (s : State) (rd : Reg) (v npc : Word) : (s.finishAt rd v npc).con = s.con :=
  State.writeReg_con s rd v
@[simp] theorem State.finishAt_blk (s : State) (rd : Reg) (v npc : Word) : (s.finishAt rd v npc).blk = s.blk :=
  State.writeReg_blk s rd v
@[simp] theorem State.finishAt_call (s : State) (rd : Reg) (v npc : Word) : (s.finishAt rd v npc).call = s.call :=
  State.writeReg_call s rd v
@[simp] theorem State.finishAt_calls (s : State) (rd : Reg) (v npc : Word) : (s.finishAt rd v npc).calls = s.calls :=
  State.writeReg_calls s rd v
@[simp] theorem State.finishAt_agenda (s : State) (rd : Reg) (v npc : Word) :
    (s.finishAt rd v npc).agenda = s.agenda :=
  State.writeReg_agenda s rd v

/-! ### `endCall` -/

@[simp] theorem State.endCall_cfg (s : State) (v : Word) : (s.endCall v).cfg = s.cfg := rfl
@[simp] theorem State.endCall_regs (s : State) (v : Word) : (s.endCall v).regs = s.regs := rfl
@[simp] theorem State.endCall_pc (s : State) (v : Word) : (s.endCall v).pc = s.pc := rfl
@[simp] theorem State.endCall_ef (s : State) (v : Word) : (s.endCall v).ef = s.ef := rfl
@[simp] theorem State.endCall_cycle (s : State) (v : Word) : (s.endCall v).cycle = s.cycle := rfl
@[simp] theorem State.endCall_mtime (s : State) (v : Word) : (s.endCall v).mtime = s.mtime := rfl
@[simp] theorem State.endCall_mtimecmp (s : State) (v : Word) : (s.endCall v).mtimecmp = s.mtimecmp := rfl
@[simp] theorem State.endCall_csr (s : State) (v : Word) : (s.endCall v).csr = s.csr := rfl
@[simp] theorem State.endCall_mem (s : State) (v : Word) : (s.endCall v).mem = s.mem := rfl
@[simp] theorem State.endCall_kb (s : State) (v : Word) : (s.endCall v).kb = s.kb := rfl
@[simp] theorem State.endCall_con (s : State) (v : Word) : (s.endCall v).con = s.con := rfl
@[simp] theorem State.endCall_blk (s : State) (v : Word) : (s.endCall v).blk = s.blk := rfl
@[simp] theorem State.endCall_call (s : State) (v : Word) :
    (s.endCall v).call = { s.call with remaining := 0, outcome := some v } :=
  rfl
@[simp] theorem State.endCall_calls (s : State) (v : Word) : (s.endCall v).calls = s.calls := rfl
@[simp] theorem State.endCall_agenda (s : State) (v : Word) : (s.endCall v).agenda = s.agenda := rfl

/-! ### `endCallCounted` -/

@[simp] theorem State.endCallCounted_cfg (s : State) : (s.endCallCounted).cfg = s.cfg := rfl
@[simp] theorem State.endCallCounted_regs (s : State) : (s.endCallCounted).regs = s.regs := rfl
@[simp] theorem State.endCallCounted_pc (s : State) : (s.endCallCounted).pc = s.pc := rfl
@[simp] theorem State.endCallCounted_ef (s : State) : (s.endCallCounted).ef = s.ef := rfl
@[simp] theorem State.endCallCounted_cycle (s : State) : (s.endCallCounted).cycle = s.call.cyc := rfl
@[simp] theorem State.endCallCounted_mtime (s : State) : (s.endCallCounted).mtime = s.mtime := rfl
@[simp] theorem State.endCallCounted_mtimecmp (s : State) : (s.endCallCounted).mtimecmp = s.mtimecmp := rfl
@[simp] theorem State.endCallCounted_csr (s : State) : (s.endCallCounted).csr = s.csr := rfl
@[simp] theorem State.endCallCounted_mem (s : State) : (s.endCallCounted).mem = s.mem := rfl
@[simp] theorem State.endCallCounted_kb (s : State) : (s.endCallCounted).kb = s.kb := rfl
@[simp] theorem State.endCallCounted_con (s : State) : (s.endCallCounted).con = s.con := rfl
@[simp] theorem State.endCallCounted_blk (s : State) : (s.endCallCounted).blk = s.blk := rfl
@[simp] theorem State.endCallCounted_call (s : State) :
    (s.endCallCounted).call = { s.call with remaining := 0, outcome := some 0 } :=
  rfl
@[simp] theorem State.endCallCounted_calls (s : State) : (s.endCallCounted).calls = s.calls := rfl
@[simp] theorem State.endCallCounted_agenda (s : State) : (s.endCallCounted).agenda = s.agenda := rfl

/-! ### `takeTrap` -/

@[simp] theorem State.takeTrap_cfg (s : State) (cause tval epc : Word) : (s.takeTrap cause tval epc).cfg = s.cfg :=
  rfl
@[simp] theorem State.takeTrap_regs (s : State) (cause tval epc : Word) : (s.takeTrap cause tval epc).regs = s.regs :=
  rfl
@[simp] theorem State.takeTrap_pc (s : State) (cause tval epc : Word) :
    (s.takeTrap cause tval epc).pc = s.csr.mtvec :=
  rfl
@[simp] theorem State.takeTrap_ef (s : State) (cause tval epc : Word) :
    (s.takeTrap cause tval epc).ef = { s.ef with priv := 3#2 } :=
  rfl
@[simp] theorem State.takeTrap_cycle (s : State) (cause tval epc : Word) :
    (s.takeTrap cause tval epc).cycle = s.cycle :=
  rfl
@[simp] theorem State.takeTrap_mtime (s : State) (cause tval epc : Word) :
    (s.takeTrap cause tval epc).mtime = s.mtime :=
  rfl
@[simp] theorem State.takeTrap_mtimecmp (s : State) (cause tval epc : Word) :
    (s.takeTrap cause tval epc).mtimecmp = s.mtimecmp :=
  rfl
@[simp] theorem State.takeTrap_csr (s : State) (cause tval epc : Word) :
    (s.takeTrap cause tval epc).csr = ⟨mkStatus false (mieBit s.csr.mstatus) s.ef.priv, s.csr.mie, s.csr.mip,
      s.csr.mtvec, s.csr.mscratch, epc, cause, tval⟩ :=
  rfl
@[simp] theorem State.takeTrap_mem (s : State) (cause tval epc : Word) : (s.takeTrap cause tval epc).mem = s.mem :=
  rfl
@[simp] theorem State.takeTrap_kb (s : State) (cause tval epc : Word) : (s.takeTrap cause tval epc).kb = s.kb := rfl
@[simp] theorem State.takeTrap_con (s : State) (cause tval epc : Word) : (s.takeTrap cause tval epc).con = s.con :=
  rfl
@[simp] theorem State.takeTrap_blk (s : State) (cause tval epc : Word) : (s.takeTrap cause tval epc).blk = s.blk :=
  rfl
@[simp] theorem State.takeTrap_call (s : State) (cause tval epc : Word) : (s.takeTrap cause tval epc).call = s.call :=
  rfl
@[simp] theorem State.takeTrap_calls (s : State) (cause tval epc : Word) :
    (s.takeTrap cause tval epc).calls = s.calls :=
  rfl
@[simp] theorem State.takeTrap_agenda (s : State) (cause tval epc : Word) :
    (s.takeTrap cause tval epc).agenda = s.agenda :=
  rfl

/-! ### `trapReturn` -/

@[simp] theorem State.trapReturn_cfg (s : State) : (s.trapReturn).cfg = s.cfg := rfl
@[simp] theorem State.trapReturn_regs (s : State) : (s.trapReturn).regs = s.regs := rfl
@[simp] theorem State.trapReturn_pc (s : State) : (s.trapReturn).pc = s.csr.mepc := rfl
@[simp] theorem State.trapReturn_ef (s : State) : (s.trapReturn).ef = { s.ef with priv := mppField s.csr.mstatus } :=
  rfl
@[simp] theorem State.trapReturn_cycle (s : State) : (s.trapReturn).cycle = s.cycle := rfl
@[simp] theorem State.trapReturn_mtime (s : State) : (s.trapReturn).mtime = s.mtime := rfl
@[simp] theorem State.trapReturn_mtimecmp (s : State) : (s.trapReturn).mtimecmp = s.mtimecmp := rfl
@[simp] theorem State.trapReturn_csr (s : State) :
    (s.trapReturn).csr = { s.csr with mstatus := mkStatus (mpieBit s.csr.mstatus) true s.ef.priv } :=
  rfl
@[simp] theorem State.trapReturn_mem (s : State) : (s.trapReturn).mem = s.mem := rfl
@[simp] theorem State.trapReturn_kb (s : State) : (s.trapReturn).kb = s.kb := rfl
@[simp] theorem State.trapReturn_con (s : State) : (s.trapReturn).con = s.con := rfl
@[simp] theorem State.trapReturn_blk (s : State) : (s.trapReturn).blk = s.blk := rfl
@[simp] theorem State.trapReturn_call (s : State) : (s.trapReturn).call = s.call := rfl
@[simp] theorem State.trapReturn_calls (s : State) : (s.trapReturn).calls = s.calls := rfl
@[simp] theorem State.trapReturn_agenda (s : State) : (s.trapReturn).agenda = s.agenda := rfl

/-! ### `advancePos` -/

@[simp] theorem State.advancePos_cfg (s : State) (n : Nat) : (s.advancePos n).cfg = s.cfg := rfl
@[simp] theorem State.advancePos_regs (s : State) (n : Nat) : (s.advancePos n).regs = s.regs := rfl
@[simp] theorem State.advancePos_pc (s : State) (n : Nat) : (s.advancePos n).pc = s.pc := rfl
@[simp] theorem State.advancePos_ef (s : State) (n : Nat) : (s.advancePos n).ef = s.ef := rfl
@[simp] theorem State.advancePos_cycle (s : State) (n : Nat) : (s.advancePos n).cycle = s.cycle := rfl
@[simp] theorem State.advancePos_mtime (s : State) (n : Nat) : (s.advancePos n).mtime = s.mtime := rfl
@[simp] theorem State.advancePos_mtimecmp (s : State) (n : Nat) : (s.advancePos n).mtimecmp = s.mtimecmp := rfl
@[simp] theorem State.advancePos_csr (s : State) (n : Nat) : (s.advancePos n).csr = s.csr := rfl
@[simp] theorem State.advancePos_mem (s : State) (n : Nat) : (s.advancePos n).mem = s.mem := rfl
@[simp] theorem State.advancePos_kb (s : State) (n : Nat) : (s.advancePos n).kb = s.kb := rfl
@[simp] theorem State.advancePos_con (s : State) (n : Nat) : (s.advancePos n).con = s.con := rfl
@[simp] theorem State.advancePos_blk (s : State) (n : Nat) :
    (s.advancePos n).blk = { s.blk with pos := s.blk.pos + BitVec.ofNat 64 n } :=
  rfl
@[simp] theorem State.advancePos_call (s : State) (n : Nat) : (s.advancePos n).call = s.call := rfl
@[simp] theorem State.advancePos_calls (s : State) (n : Nat) : (s.advancePos n).calls = s.calls := rfl
@[simp] theorem State.advancePos_agenda (s : State) (n : Nat) : (s.advancePos n).agenda = s.agenda := rfl

/-! ### `tearSector` -/

@[simp] theorem State.tearSector_cfg (s : State) (n : Nat) : (s.tearSector n).cfg = s.cfg := rfl
@[simp] theorem State.tearSector_regs (s : State) (n : Nat) : (s.tearSector n).regs = s.regs := rfl
@[simp] theorem State.tearSector_pc (s : State) (n : Nat) : (s.tearSector n).pc = s.pc := rfl
@[simp] theorem State.tearSector_ef (s : State) (n : Nat) : (s.tearSector n).ef = s.ef := rfl
@[simp] theorem State.tearSector_cycle (s : State) (n : Nat) : (s.tearSector n).cycle = s.cycle := rfl
@[simp] theorem State.tearSector_mtime (s : State) (n : Nat) : (s.tearSector n).mtime = s.mtime := rfl
@[simp] theorem State.tearSector_mtimecmp (s : State) (n : Nat) : (s.tearSector n).mtimecmp = s.mtimecmp := rfl
@[simp] theorem State.tearSector_csr (s : State) (n : Nat) : (s.tearSector n).csr = s.csr := rfl
@[simp] theorem State.tearSector_mem (s : State) (n : Nat) : (s.tearSector n).mem = s.mem := rfl
@[simp] theorem State.tearSector_kb (s : State) (n : Nat) : (s.tearSector n).kb = s.kb := rfl
@[simp] theorem State.tearSector_con (s : State) (n : Nat) : (s.tearSector n).con = s.con := rfl
@[simp] theorem State.tearSector_blk (s : State) (n : Nat) :
    (s.tearSector n).blk = { s.blk with
      file := s.blk.file.putN s.blk.pos.toNat ((List.range n).map fun k => Config.tornByte (s.blk.torn + k))
      torn := s.blk.torn + n } :=
  rfl
@[simp] theorem State.tearSector_call (s : State) (n : Nat) : (s.tearSector n).call = s.call := rfl
@[simp] theorem State.tearSector_calls (s : State) (n : Nat) : (s.tearSector n).calls = s.calls := rfl
@[simp] theorem State.tearSector_agenda (s : State) (n : Nat) : (s.tearSector n).agenda = s.agenda := rfl

end Sys2Proof.Machine
end

