-- ==== Sys2Proof/Laws/Ops.lean ====
section
/-! SUPPORT. One lemma for each shared operation, saying once everything it can do: RAM access at the level of the
state (`20_memory.md` R120), a raised trap (`60_exceptions.md` R408), the queues (R440, R441), devices (R109, R110),
the CSR accessors (`45_system.md` R340, R341). -/

namespace Sys2Proof.Machine

/-! ### RAM (R120) -/

/-- A read of RAM gives the value of the image and changes the hierarchy alone. -/
theorem State.memRead_spec {s t : State} {a : Word} {n : Nat} {v : Word} (hi : MemInv s.cfg s.mem)
    (hb : 0 < s.cfg.nBlocks) (hr : s.memRead a n = .ok (v, t)) :
    v = s.ramValue a n ∧ t = { s with mem := t.mem } ∧ Accessed s.cfg s.mem t.mem (s.mem.byte s.cfg) := by
  unfold State.memRead at hr
  split at hr
  · cases hr
  · next v' m' hm =>
    cases hr
    exact ⟨(Mem.read_spec hi hb hm).1, rfl, (Mem.read_spec hi hb hm).2⟩

/-- A write of RAM changes the `n` named bytes of the image, and the hierarchy alone. -/
theorem State.memWrite_spec {s t : State} {a : Word} {n : Nat} {v : Word} (hi : MemInv s.cfg s.mem)
    (hb : 0 < s.cfg.nBlocks) (hr : s.memWrite a n v = .ok t) :
    t = { s with mem := t.mem } ∧ Accessed s.cfg s.mem t.mem fun x =>
      if (ofs s.cfg a).toNat ≤ x ∧ x < (ofs s.cfg a).toNat + n then (v >>> (8 * (x - (ofs s.cfg a).toNat))).setWidth 8
      else s.mem.byte s.cfg x := by
  unfold State.memWrite at hr
  split at hr
  · cases hr
  · next m' hm =>
    cases hr
    exact ⟨rfl, Mem.write_spec hi hb hm⟩

theorem State.memRead_error {s : State} {a : Word} {n : Nat} {f : Fault} (hr : s.memRead a n = .error f) :
    (crosses s.cfg (ofs s.cfg a).toNat n = true ∧ f = .lineCross) ∨
      (¬ NoFailure s.mem ∧ ∃ op o, f = .storageFault op o) := by
  unfold State.memRead at hr
  split at hr
  · next f' hm => cases hr; exact Mem.read_error hm
  · cases hr

theorem State.memWrite_error {s : State} {a : Word} {n : Nat} {v : Word} {f : Fault} (hr : s.memWrite a n v = .error f) :
    (crosses s.cfg (ofs s.cfg a).toNat n = true ∧ f = .lineCross) ∨
      (¬ NoFailure s.mem ∧ ∃ op o, f = .storageFault op o) := by
  unfold State.memWrite at hr
  split at hr
  · next f' hm => cases hr; exact Mem.write_error hm
  · cases hr

theorem State.memRead_completes {s : State} {a : Word} {n : Nat} (hx : crosses s.cfg (ofs s.cfg a).toNat n = false)
    (hn : NoFailure s.mem) : ∃ v t, s.memRead a n = .ok (v, t) := by
  obtain ⟨v, m, h⟩ := Mem.read_completes (c := s.cfg) (m := s.mem) hx hn
  exact ⟨v, _, by unfold State.memRead; rw [h]⟩

theorem State.memWrite_completes {s : State} {a : Word} {n : Nat} (v : Word)
    (hx : crosses s.cfg (ofs s.cfg a).toNat n = false) (hn : NoFailure s.mem) : ∃ t, s.memWrite a n v = .ok t := by
  obtain ⟨m, h⟩ := Mem.write_completes (c := s.cfg) (m := s.mem) (v := v) hx hn
  exact ⟨_, by unfold State.memWrite; rw [h]⟩

/-- An access that crosses a line or block stops with the model fault of R116. -/
theorem State.memRead_crosses {s : State} {a : Word} {n : Nat} (hx : crosses s.cfg (ofs s.cfg a).toNat n = true) :
    s.memRead a n = .error .lineCross := by
  simp [State.memRead, Mem.read, hx]

theorem State.memWrite_crosses {s : State} {a : Word} {n : Nat} (v : Word)
    (hx : crosses s.cfg (ofs s.cfg a).toNat n = true) : s.memWrite a n v = .error .lineCross := by
  simp [State.memWrite, Mem.write, hx]

/-- A power of two at least 4 is a multiple of 4. -/
theorem two_pow_mod_four {k : Nat} (h : 2 ≤ k) : 2 ^ k % 4 = 0 := by
  obtain ⟨j, rfl⟩ := Nat.exists_eq_add_of_le h
  rw [Nat.pow_add]; omega

theorem Config.unit_mod_four {c : Config} (h : c.Wf) : c.unitSize % 4 = 0 ∧ 0 < c.unitSize := by
  unfold Config.unitSize
  split
  · exact ⟨two_pow_mod_four (by have := h.line_min; omega), c.lineSize_pos⟩
  · exact ⟨two_pow_mod_four (by have := h.block_min; omega), c.blockSize_pos⟩

/-- A naturally aligned word never crosses (R112, R116: line and block sizes are multiples of 4). -/
theorem crosses_aligned {c : Config} (h : c.Wf) {o : Nat} (ho : o % 4 = 0) : crosses c o 4 = false := by
  rw [crosses_eq_false]
  obtain ⟨h4, hp⟩ := Config.unit_mod_four h
  have hlt := Nat.mod_lt o hp
  have : (o % c.unitSize) % 4 = 0 := by
    rw [Nat.mod_mod_of_dvd _ (Nat.dvd_of_mod_eq_zero h4)]; exact ho
  omega

/-- A byte never crosses. -/
theorem crosses_byte (c : Config) (o : Nat) : crosses c o 1 = false := by
  rw [crosses_eq_false]
  have hp : 0 < c.unitSize := by
    unfold Config.unitSize
    split
    · exact c.lineSize_pos
    · exact c.blockSize_pos
  have := Nat.mod_lt o hp
  omega

/-! ### Queues (R440, R441) -/

/-- An offer appends the byte, drops it, or, under Wait, first loses the oldest byte; nothing else changes. -/
theorem State.offer_spec (s : State) (b : Byte) :
    s.offer b = { s with con := if s.con.length < s.cfg.consoleCap then s.con ++ [b]
      else match s.cfg.consoleFull with | .drop => s.con | .wait => s.con.tail ++ [b] } := by
  unfold State.offer
  by_cases h : s.con.length < s.cfg.consoleCap
  · simp only [if_pos h]
  · cases hf : s.cfg.consoleFull <;> simp only [if_neg h]

/-- A try-remove takes the oldest byte, or answers -1 from an empty queue; nothing but the queue changes. -/
theorem State.takeKey_spec (s : State) :
    s.takeKey = ((match s.kb with | [] => 0xFFFFFFFF#32 | b :: _ => b.setWidth 32), { s with kb := s.kb.tail }) := by
  unfold State.takeKey
  cases h : s.kb with
  | nil => simp only [List.tail_nil]; rw [← h]
  | cons b rest => rfl

/-! ### Devices (R109) -/

/-- A device read changes at most the keyboard queue, and that only at UART_DATA. -/
theorem State.mmioRead_spec (s : State) (a : Word) :
    (s.mmioRead a).2 = if a = s.cfg.uartData then { s with kb := s.kb.tail } else s := by
  unfold State.mmioRead
  split
  · rw [State.takeKey_spec]
  · split
    · rfl
    · split
      · rfl
      · split <;> rfl

/-! ### CSR accessors (R340, R341) -/

/-- A property of both branches of a conditional holds of the conditional. -/
theorem ite_both {α : Type} {P : α → Prop} {c : Prop} [Decidable c] {a b : α} (ha : P a) (hb : P b) :
    P (if c then a else b) := by
  by_cases h : c
  · rw [if_pos h]; exact ha
  · rw [if_neg h]; exact hb

/-- A CSR read changes at most the keyboard queue, and that only at CSR_CONSOLE_IN. -/
theorem State.csrRead_spec (s : State) (n : CsrNum) :
    (s.csrRead n).2 = s ∨ (s.csrRead n).2 = { s with kb := s.kb.tail } := by
  unfold State.csrRead
  iterate 11 refine ite_both (P := fun r : Word × State => r.2 = s ∨ r.2 = { s with kb := s.kb.tail }) (.inl rfl) ?_
  refine ite_both (P := fun r : Word × State => r.2 = s ∨ r.2 = { s with kb := s.kb.tail })
    (.inr (by rw [State.takeKey_spec])) ?_
  iterate 2 refine ite_both (P := fun r : Word × State => r.2 = s ∨ r.2 = { s with kb := s.kb.tail }) (.inl rfl) ?_
  exact .inl rfl

/-- What a CSR write that completes leaves: the same state with one CSR, the output queue or a block-device register
changed, or what the seek or the transfer leaves. -/
inductive CsrWritten (s : State) (v : Word) (t : State) : Prop where
  | csr (c : CsrFile) (h : t = { s with csr := c })
  | offered (h : t = s.offer (v.setWidth 8))
  | ptr (h : t = { s with blk.ptr := v })
  | len (h : t = { s with blk.len := v })
  | seek (h : t = s.blkSeek v)
  | transfer (h : s.blkTransfer v = .ok t)

theorem State.csrWrite_spec {s t : State} {n : CsrNum} {v : Word} (h : s.csrWrite n v = .ok t) : CsrWritten s v t := by
  revert h
  have hc : ∀ c : CsrFile, (Except.ok (ε := Stop) { s with csr := c }) = .ok t → CsrWritten s v t := by
    intro c h; cases h; exact .csr c rfl
  unfold State.csrWrite
  iterate 8 refine ite_both (P := fun r : Except Stop State => r = .ok t → CsrWritten s v t) (hc _) ?_
  refine ite_both (P := fun r : Except Stop State => r = .ok t → CsrWritten s v t) (hc s.csr) ?_
  refine ite_both (P := fun r : Except Stop State => r = .ok t → CsrWritten s v t) (fun h => by cases h; exact .offered rfl) ?_
  refine ite_both (P := fun r : Except Stop State => r = .ok t → CsrWritten s v t) (fun h => by cases h; exact .ptr rfl) ?_
  refine ite_both (P := fun r : Except Stop State => r = .ok t → CsrWritten s v t) (fun h => by cases h; exact .seek rfl) ?_
  refine ite_both (P := fun r : Except Stop State => r = .ok t → CsrWritten s v t) (fun h => by cases h; exact .len rfl) ?_
  exact ite_both (P := fun r : Except Stop State => r = .ok t → CsrWritten s v t) .transfer (hc s.csr)

/-- A CSR write stops only at CSR_BLK_GO (R342). -/
theorem State.csrWrite_completes {s : State} {n : CsrNum} (v : Word) (h : n ≠ s.cfg.csrBlkGo) :
    ∃ t, s.csrWrite n v = .ok t := by
  unfold State.csrWrite
  rw [if_neg h]
  iterate 13 refine ite_both (P := fun r : Except Stop State => ∃ t, r = Except.ok t) ⟨_, rfl⟩ ?_
  exact ⟨_, rfl⟩

end Sys2Proof.Machine
end

