-- ==== Sys2Proof/Laws/Claims.lean ====
section
/-! SUPPORT. From the terms of claims (`Safety`) to the operations of the machine: address classes, values of the RAM
image, and what the shared shapes of instructions do in those terms. -/

namespace Sys2Proof.Machine

/-! ### Address classes (`20_memory.md` R103, R104, R116) -/

theorem ramOffset_eq (s : State) (a : Word) : ramOffset s a = (ofs s.cfg a).toNat := rfl

theorem inRamData_iff (s : State) (a : Word) : inRamData s.cfg a = true ↔ IsRam s a :=
  decide_eq_true_iff

theorem inRamData_eq_false (s : State) (a : Word) : inRamData s.cfg a = false ↔ ¬ IsRam s a := by
  rw [← inRamData_iff]; simp

theorem crosses_iff (s : State) (a : Word) (n : Nat) : crosses s.cfg (ofs s.cfg a).toNat n = false ↔ FitsUnit s a n :=
  crosses_eq_false

theorem classify_ram {s : State} {a : Word} (h : IsRam s a) : classify s.cfg a = .ram := by
  simp [classify, (inRamData_iff s a).2 h]

theorem classify_mmio {s : State} {a : Word} (h : IsMmio s a) : classify s.cfg a = .mmio := by
  have h1 := (inRamData_eq_false s a).2 h.1
  simp [classify, h1, BitVec.le_def, BitVec.lt_def, h.2.1, h.2.2]

theorem classify_unpopulated {s : State} {a : Word} (h : IsUnpopulated s a) : classify s.cfg a = .unpopulated := by
  have h1 := (inRamData_eq_false s a).2 h.1
  have h2 := h.2
  simp only [classify, h1, Bool.false_eq_true, if_false, BitVec.le_def, BitVec.lt_def]
  rw [if_neg h2]

/-- The class of an address, in the terms of claims. -/
theorem classify_cases (s : State) (a : Word) :
    (classify s.cfg a = .ram ∧ IsRam s a) ∨ (classify s.cfg a = .mmio ∧ IsMmio s a) ∨
      (classify s.cfg a = .unpopulated ∧ IsUnpopulated s a) := by
  by_cases h : IsRam s a
  · exact .inl ⟨classify_ram h, h⟩
  · by_cases hm : s.cfg.mmioLo.toNat ≤ a.toNat ∧ a.toNat < s.cfg.mmioHi.toNat
    · exact .inr (.inl ⟨classify_mmio ⟨h, hm⟩, h, hm⟩)
    · exact .inr (.inr ⟨classify_unpopulated ⟨h, hm⟩, h, hm⟩)

/-! ### Values of the image (R113) -/

theorem ramValue_byte (s : State) (a : Word) : s.ramValue a 1 = (s.ram (ramOffset s a)).setWidth 32 := by
  show leWord [s.ram (ramOffset s a + 0)] = _
  simp [leWord]

theorem ramValue_half (s : State) (a : Word) :
    s.ramValue a 2 = (s.ram (ramOffset s a + 1) ++ s.ram (ramOffset s a)).setWidth 32 := by
  show leWord [s.ram (ramOffset s a + 0), s.ram (ramOffset s a + 1)] = _
  ext i hi
  simp only [← BitVec.getLsbD_eq_getElem]
  rw [getLsbD_leWord _ _ hi, BitVec.getLsbD_setWidth, BitVec.getLsbD_append]
  by_cases h0 : i < 8
  · simp [Nat.div_eq_of_lt h0, Nat.mod_eq_of_lt h0, h0, hi]
  by_cases h1 : i < 16
  · rw [show i / 8 = 1 by omega, show i % 8 = i - 8 by omega]
    simp [h0, hi]
  · obtain ⟨j, hj⟩ : ∃ j, i / 8 = j + 2 := ⟨i / 8 - 2, by omega⟩
    have : BitVec.getLsbD (s.ram (ramOffset s a + 1)) (i - 8) = false := BitVec.getLsbD_of_ge _ _ (by omega)
    rw [hj]
    simp [h0, this]

theorem ramValue_word (s : State) (a : Word) : s.ramValue a 4 = ramWord s (ramOffset s a) := by
  show leWord [s.ram (ramOffset s a + 0), s.ram (ramOffset s a + 1), s.ram (ramOffset s a + 2),
    s.ram (ramOffset s a + 3)] = _
  ext i hi
  simp only [← BitVec.getLsbD_eq_getElem]
  unfold ramWord
  rw [getLsbD_leWord _ _ hi, BitVec.getLsbD_append, BitVec.getLsbD_append, BitVec.getLsbD_append]
  by_cases h0 : i < 8
  · simp [Nat.div_eq_of_lt h0, Nat.mod_eq_of_lt h0, h0]
  by_cases h1 : i < 16
  · rw [show i / 8 = 1 by omega, show i % 8 = i - 8 by omega]
    simp [h0, show i - 8 < 8 by omega]
  by_cases h2 : i < 24
  · rw [show i / 8 = 2 by omega, show i % 8 = i - 8 - 8 by omega]
    simp [h0, show ¬ i - 8 < 8 by omega, show i - 8 - 8 < 8 by omega]
  · rw [show i / 8 = 3 by omega, show i % 8 = i - 8 - 8 - 8 by omega]
    simp [h0, show ¬ i - 8 < 8 by omega, show ¬ i - 8 - 8 < 8 by omega]

/-! ### Shapes of instructions -/

theorem SystemKept.rfl' {s : State} : SystemKept s s := by constructor <;> rfl

/-- An instruction that ends in `finish` writes rd and advances pc, and keeps all else. -/
theorem finish_kept (s : State) (rd : Reg) (v : Word) :
    RegWritten s (s.finish rd v) rd v ∧ (s.finish rd v).pc = s.pc + 4 ∧ (s.finish rd v).mem = s.mem ∧
      SystemKept s (s.finish rd v) :=
  ⟨fun r => State.readReg_writeReg s rd v r, State.finish_pc .., State.finish_mem .., by constructor <;> simp⟩

theorem completes_finish {i : Instr} {s : State} {rd : Reg} {v w : Word} (h : exec i s = .next (s.finish rd v))
    (hv : v = w) : Completes i s s rd w := by
  subst hv
  exact ⟨_, h, finish_kept s rd v⟩

/-- As `completes_finish`, where the instruction first makes `s` into `s'` and leaves registers and pc as they are. -/
theorem completes_finish_of {i : Instr} {s s' : State} {rd : Reg} {v w : Word} (h : exec i s = .next (s'.finish rd v))
    (hv : v = w) (hr : s'.regs = s.regs) (hp : s'.pc = s.pc) : Completes i s s' rd w := by
  subst hv
  obtain ⟨h1, h2, h3, h4⟩ := finish_kept s' rd v
  refine ⟨_, h, fun r => ?_, h2.trans (by rw [hp]), h3, h4⟩
  rw [h1 r, State.readReg_congr hr]

/-- A memory access changes the hierarchy alone: what it keeps, in the terms of claims. -/
theorem completesRam_finish {i : Instr} {s s' t : State} {rd : Reg} {v w : Word} {image : Nat → Byte}
    (h : exec i s = .next (t.finish rd v)) (hv : v = w) (ht : t = { s' with mem := t.mem }) (hr : s'.regs = s.regs)
    (hp : s'.pc = s.pc) (himg : ∀ x, t.ram x = image x) : CompletesRam i s s' rd w image := by
  subst hv
  obtain ⟨h1, h2, h3, h4⟩ := finish_kept t rd v
  refine ⟨_, h, fun r => ?_, ?_, fun x => ?_, ?_⟩
  · rw [h1 r, State.readReg_congr (s := s) (by rw [ht]; exact hr)]
  · rw [h2, ht]; exact congrArg (· + 4) hp
  · rw [← himg x, State.ram, State.ram, State.finish_mem, State.finish_cfg]
  · rw [ht] at h4 ⊢
    constructor <;> simp

/-- A raised trap in the terms of claims (`60_exceptions.md` R408, R410). -/
theorem raiseTrap_outcome (s : State) (cause tval : Word) : TrapOutcome s (s.raiseTrap cause tval) cause tval := by
  unfold TrapOutcome State.raiseTrap
  cases hf : s.cfg.faultPolicy with
  | fatal => rfl
  | suppress => rfl
  | deliver =>
    refine ⟨⟨fun r => rfl, rfl, rfl, rfl, rfl, ?_, ⟨rfl, rfl, rfl, rfl⟩, rfl, rfl, ⟨rfl, rfl⟩, ⟨rfl, rfl, rfl⟩,
      ⟨rfl, rfl, rfl⟩⟩, rfl, rfl⟩
    show mkStatus false (mieBit s.csr.mstatus) s.ef.priv = _
    generalize s.csr.mstatus = st
    have : (BitVec.ofBool (mieBit st)).setWidth 32 = (st >>> 3) &&& 1 := by
      ext i hi
      cases i with
      | zero => simp [mieBit]
      | succ i => simp
    simp [mkStatus, this]

theorem raises_of {i : Instr} {s : State} {cause tval : Word} (h : exec i s = .next (s.raiseTrap cause tval)) :
    Raises i s cause tval := ⟨_, h, raiseTrap_outcome s cause tval⟩

/-- A read of RAM that completes, in the terms of claims. -/
theorem memRead_ram {s : State} {a : Word} {n : Nat} (hi : MemInv s.cfg s.mem) (hb : 0 < s.cfg.nBlocks)
    (hn : NoFailure s.mem) (hf : FitsUnit s a n) : ∃ t, s.memRead a n = .ok (s.ramValue a n, t) ∧
      t = { s with mem := t.mem } ∧ (∀ x, t.ram x = s.ram x) ∧ MemInv t.cfg t.mem ∧ NoFailure t.mem := by
  obtain ⟨v, t, h⟩ := State.memRead_completes ((crosses_iff s a n).2 hf) hn
  obtain ⟨rfl, ht, hA⟩ := State.memRead_spec hi hb h
  have hc : t.cfg = s.cfg := by rw [ht]
  exact ⟨t, h, ht, fun x => by unfold State.ram; rw [hc]; exact hA.byte x, by rw [hc]; exact hA.inv, hn.of_io hA.io⟩

theorem shift_setWidth_byte (v : Word) (k : Nat) : (v >>> k).setWidth 8 = v.extractLsb' k 8 := by
  ext i hi
  simp

/-- A write of RAM that completes, in the terms of claims. -/
theorem memWrite_ram {s : State} {a : Word} {n : Nat} (v : Word) (hi : MemInv s.cfg s.mem) (hb : 0 < s.cfg.nBlocks)
    (hn : NoFailure s.mem) (hf : FitsUnit s a n) : ∃ t, s.memWrite a n v = .ok t ∧
      t = { s with mem := t.mem } ∧ (∀ x, t.ram x = storedImage s (ramOffset s a) n v x) ∧ MemInv t.cfg t.mem ∧
      NoFailure t.mem := by
  obtain ⟨t, h⟩ := State.memWrite_completes v ((crosses_iff s a n).2 hf) hn
  obtain ⟨ht, hA⟩ := State.memWrite_spec hi hb h
  have hc : t.cfg = s.cfg := by rw [ht]
  refine ⟨t, h, ht, fun x => ?_, by rw [hc]; exact hA.inv, hn.of_io hA.io⟩
  unfold State.ram storedImage
  rw [hc, hA.byte x]
  simp only [ramOffset_eq, shift_setWidth_byte]
  rfl

/-! ### Loads, stores and atomics by address class (R104, R260, R267, R310) -/

theorem load_ram {s : State} {k : LoadWidth} {rd rs1 : Reg} {imm : BitVec 12} (h : IsRam s (s.ea rs1 imm)) :
    s.load k rd rs1 imm = match s.memRead (s.ea rs1 imm) k.bytes with
      | .error f => .fault f
      | .ok (v, t) => .next (t.finish rd (k.extend v)) := by
  unfold State.load
  simp only [classify_ram h] <;> rfl

theorem load_mmio {s : State} {k : LoadWidth} {rd rs1 : Reg} {imm : BitVec 12} (h : IsMmio s (s.ea rs1 imm)) :
    s.load k rd rs1 imm = .next ((s.mmioRead (s.ea rs1 imm)).2.finish rd
      (mmioExtend s.cfg k (s.mmioRead (s.ea rs1 imm)).1)) := by
  unfold State.load
  simp only [classify_mmio h]

theorem load_unpopulated {s : State} {k : LoadWidth} {rd rs1 : Reg} {imm : BitVec 12}
    (h : IsUnpopulated s (s.ea rs1 imm)) : s.load k rd rs1 imm = .next (s.raiseTrap 5 (s.ea rs1 imm)) := by
  unfold State.load
  simp only [classify_unpopulated h]

theorem store_ram {s : State} {k : StoreWidth} {rs1 rs2 : Reg} {imm : BitVec 12} (h : IsRam s (s.ea rs1 imm)) :
    s.store k rs1 rs2 imm = match s.memWrite (s.ea rs1 imm) k.bytes (s.readReg rs2) with
      | .error f => .fault f
      | .ok t => .next t.advance := by
  unfold State.store
  simp only [classify_ram h] <;> rfl

theorem store_mmio {s : State} {k : StoreWidth} {rs1 rs2 : Reg} {imm : BitVec 12} (h : IsMmio s (s.ea rs1 imm)) :
    s.store k rs1 rs2 imm = .next (s.mmioStore (s.ea rs1 imm) (s.readReg rs2)) := by
  unfold State.store
  simp only [classify_mmio h]

theorem store_unpopulated {s : State} {k : StoreWidth} {rs1 rs2 : Reg} {imm : BitVec 12}
    (h : IsUnpopulated s (s.ea rs1 imm)) : s.store k rs1 rs2 imm = .next (s.raiseTrap 7 (s.ea rs1 imm)) := by
  unfold State.store
  simp only [classify_unpopulated h]

theorem atomic_ram {s : State} {rs1 : Reg} {k : Word → State → Result} (h : IsRam s (s.readReg rs1)) :
    s.atomic rs1 k = match s.memRead (s.readReg rs1) 4 with
      | .error f => .fault f
      | .ok (old, t) => k old t := by
  unfold State.atomic
  simp only [(inRamData_iff s _).2 h, if_true] <;> rfl

theorem atomic_outside {s : State} {rs1 : Reg} {k : Word → State → Result} (h : ¬ IsRam s (s.readReg rs1)) :
    s.atomic rs1 k = .next (s.raiseTrap 7 (s.readReg rs1)) := by
  unfold State.atomic
  simp only [(inRamData_eq_false s _).2 h, Bool.false_eq_true, if_false]

/-- A load from RAM completes (R260). -/
theorem load_completes {i : Instr} {s : State} {k : LoadWidth} {rd rs1 : Reg} {imm : BitVec 12} {w : Word}
    (he : exec i s = s.load k rd rs1 imm) (hI : s.Inv) (hN : NoFailure s.mem) (hR : IsRam s (s.ea rs1 imm))
    (hf : FitsUnit s (s.ea rs1 imm) k.bytes) (hw : k.extend (s.ramValue (s.ea rs1 imm) k.bytes) = w) :
    CompletesRam i s s rd w s.ram := by
  obtain ⟨t, h, ht, himg, -, -⟩ := memRead_ram hI.mem_inv hI.cfg_wf.blocks_pos hN hf
  exact completesRam_finish (t := t) (by rw [he, load_ram hR, h]) hw ht rfl rfl himg

/-- A store to RAM completes (R267). -/
theorem store_completes {i : Instr} {s : State} {k : StoreWidth} {rs1 rs2 : Reg} {imm : BitVec 12}
    (he : exec i s = s.store k rs1 rs2 imm) (hI : s.Inv) (hN : NoFailure s.mem) (hR : IsRam s (s.ea rs1 imm))
    (hf : FitsUnit s (s.ea rs1 imm) k.bytes) :
    StoresRam i s (storedImage s (ramOffset s (s.ea rs1 imm)) k.bytes (s.readReg rs2)) := by
  obtain ⟨t, h, ht, himg, -, -⟩ := memWrite_ram (s.readReg rs2) hI.mem_inv hI.cfg_wf.blocks_pos hN hf
  refine ⟨t.advance, by rw [he, store_ram hR, h], fun r => ?_, ?_, fun x => himg x, ?_⟩
  · exact State.readReg_congr (by rw [State.advance_regs, ht]) r
  · rw [State.advance_pc, ht]
  · constructor <;> (simp only [State.advance_cfg, State.advance_ef, State.advance_cycle, State.advance_mtime,
      State.advance_mtimecmp, State.advance_csr, State.advance_kb, State.advance_con, State.advance_blk,
      State.advance_call, State.advance_calls, State.advance_agenda]; rw [ht])

/-- An AMO at a RAM address completes (R314 to R326). -/
theorem amo_completes {i : Instr} {s : State} {rd rs1 rs2 : Reg} {f : Word → Word → Word} {w : Word}
    (he : exec i s = s.amo rd rs1 rs2 f) (hI : s.Inv) (hN : NoFailure s.mem) (hR : IsRam s (s.readReg rs1))
    (hf : FitsUnit s (s.readReg rs1) 4) (hw : f (ramWord s (ramOffset s (s.readReg rs1))) (s.readReg rs2) = w) :
    CompletesRam i s s rd (ramWord s (ramOffset s (s.readReg rs1)))
      (storedImage s (ramOffset s (s.readReg rs1)) 4 w) := by
  obtain ⟨t, h, ht, himg, hi, hn⟩ := memRead_ram hI.mem_inv hI.cfg_wf.blocks_pos hN hf
  have hc : t.cfg = s.cfg := by rw [ht]
  have hf' : FitsUnit t (s.readReg rs1) 4 := by unfold FitsUnit ramOffset; rw [hc]; exact hf
  obtain ⟨u, h2, hu, himg2, -, -⟩ := memWrite_ram w hi (by rw [hc]; exact hI.cfg_wf.blocks_pos) hn hf'
  rw [ramValue_word] at h
  refine completesRam_finish (t := u) (v := ramWord s (ramOffset s (s.readReg rs1))) ?_ rfl ?_ rfl rfl fun x => ?_
  · rw [he, State.amo, atomic_ram hR, h]
    simp only [hw, h2]
  · rw [hu, ht]
  · rw [himg2 x]; unfold storedImage; rw [himg x]; unfold ramOffset; rw [hc]

end Sys2Proof.Machine
end

