-- ==== Sys2Proof/Laws/Block.lean ====
section
/-! SUPPORT. The laws of the block device (`60_exceptions.md` R450 to R456): what a transfer and a CSR write leave alone,
and what a transfer moves, whatever operations fail. -/

namespace Sys2Proof.Machine

/-! ### What a transfer leaves alone (R454) -/

theorem State.storeWords_cons (s : State) (p : Word) (b0 b1 b2 b3 : Byte) (rest : List Byte) :
    s.storeWords p (b0 :: b1 :: b2 :: b3 :: rest) = match s.memWrite p 4 (leWord [b0, b1, b2, b3]) with
      | .error f => .error f
      | .ok s => s.storeWords (p + 4) rest := rfl

/-- Induction over the word stores: what holds of the state before, and is kept by a word store, holds after. -/
theorem State.storeWords_induct {P : State → Prop}
    (hw : ∀ {s t : State} {p v : Word}, P s → s.memWrite p 4 v = .ok t → P t) :
    ∀ (bytes : List Byte) {s t : State} {p : Word}, P s → s.storeWords p bytes = .ok t → P t
  | b0 :: b1 :: b2 :: b3 :: rest, s, t, p, h, hr => by
    rw [State.storeWords_cons] at hr
    split at hr
    · cases hr
    · next u hu => exact State.storeWords_induct hw rest (hw h hu) hr
  | [], _, _, _, h, hr => by cases hr; exact h
  | [_], _, _, _, h, hr => by cases hr; exact h
  | [_, _], _, _, _, h, hr => by cases hr; exact h
  | [_, _, _], _, _, _, h, hr => by cases hr; exact h

theorem State.memWrite_kept {s t : State} {a v : Word} {n : Nat} (h : s.memWrite a n v = .ok t) :
    t = { s with mem := t.mem } := by
  unfold State.memWrite at h
  split at h
  · cases h
  · cases h; rfl

theorem State.memRead_kept {s t : State} {a v : Word} {n : Nat} (h : s.memRead a n = .ok (v, t)) :
    t = { s with mem := t.mem } := by
  unfold State.memRead at h
  split at h
  · cases h
  · cases h; rfl

theorem State.storeWords_kept {bytes : List Byte} {s t : State} {p : Word} (hr : s.storeWords p bytes = .ok t) :
    t = { s with mem := t.mem } :=
  State.storeWords_induct (P := fun t => t = { s with mem := t.mem })
    (fun h hu => by rw [State.memWrite_kept hu, h]) bytes rfl hr

theorem State.loadWords_kept {k : Nat} {s t : State} {p : Word} {bytes : List Byte}
    (hr : s.loadWords p k = .ok (bytes, t)) : t = { s with mem := t.mem } := by
  induction k generalizing s p bytes t with
  | zero => cases hr; rfl
  | succ k ih =>
    unfold State.loadWords at hr
    split at hr
    · cases hr
    next v s1 h1 =>
    split at hr
    · cases hr
    next bs s2 h2 =>
    cases hr
    rw [ih h2, State.memRead_kept h1]

/-- What a transfer may change: the hierarchy, and of the block device the position, the file with its count of free
bytes, and the error. -/
structure Transferred (s t : State) : Prop where
  kept : t = { s with mem := t.mem, blk := t.blk }
  ptr : t.blk.ptr = s.blk.ptr
  off : t.blk.off = s.blk.off
  len : t.blk.len = s.blk.len

theorem Transferred.refl (s : State) : Transferred s s := ⟨rfl, rfl, rfl, rfl⟩

theorem Transferred.trans {s t u : State} (h : Transferred s t) (h' : Transferred t u) : Transferred s u :=
  ⟨by rw [h'.kept, h.kept], h'.ptr.trans h.ptr, h'.off.trans h.off, h'.len.trans h.len⟩

theorem Transferred.of_mem {s t : State} (h : t = { s with mem := t.mem }) : Transferred s t :=
  ⟨by rw [h], by rw [h], by rw [h], by rw [h]⟩

theorem Transferred.advancePos (s : State) (n : Nat) : Transferred s (s.advancePos n) := ⟨rfl, rfl, rfl, rfl⟩

theorem State.readLoop_kept {fuel : Nat} {s t : State} {p : Word} {rem : Nat} {b : Bool}
    (hr : s.readLoop p rem fuel = .ok (b, t)) : Transferred s t := by
  induction fuel generalizing s p rem with
  | zero => cases hr; exact .refl _
  | succ fuel ih =>
    unfold State.readLoop at hr
    split at hr
    · cases hr; exact .refl _
    · dsimp only at hr
      split at hr
      · cases hr
      · cases hr; exact .of_mem rfl
      · next s1 h1 =>
        have h2 : Transferred s s1 := by
          unfold State.sectorRead at h1
          dsimp only at h1
          split at h1
          · cases h1
          · split at h1
            · cases h1
            next s2 h3 =>
            cases h1
            exact .of_mem (by rw [State.storeWords_kept h3]; rfl)
        exact h2.trans ((Transferred.advancePos s1 _).trans (ih hr))

theorem State.writeLoop_kept {fuel : Nat} {s t : State} {p : Word} {rem : Nat} {b : Bool}
    (hr : s.writeLoop p rem fuel = .ok (b, t)) : Transferred s t := by
  induction fuel generalizing s p rem with
  | zero => cases hr; exact .refl _
  | succ fuel ih =>
    have hsec : ∀ {n : Nat} {c : Bool} {s1 : State}, s.sectorWrite p n = .ok (c, s1) → Transferred s s1 := by
      intro n c s1 h1
      unfold State.sectorWrite at h1
      split at h1
      · cases h1
      next bytes s2 h2 =>
      have h3 := Transferred.of_mem (State.loadWords_kept h2)
      dsimp only at h1
      split at h1
      · cases h1; exact h3.trans ⟨rfl, rfl, rfl, rfl⟩
      · cases h1; exact h3.trans ⟨rfl, rfl, rfl, rfl⟩
    unfold State.writeLoop at hr
    split at hr
    · cases hr; exact .refl _
    · dsimp only at hr
      split at hr
      · cases hr
      · next s1 h1 => cases hr; exact hsec h1
      · next s1 h1 => exact (hsec h1).trans ((Transferred.advancePos s1 _).trans (ih hr))

theorem State.blkTransfer_kept {s t : State} {d : Word} (hr : s.blkTransfer d = .ok t) : Transferred s t := by
  unfold State.blkTransfer at hr
  split at hr
  · cases hr
  split at hr
  · cases hr
  next b s1 h1 =>
  cases hr
  refine Transferred.trans (t := s1) ?_ ⟨rfl, rfl, rfl, rfl⟩
  split at h1
  · exact State.readLoop_kept h1
  · exact State.writeLoop_kept h1

/-- What a CSR write that completes leaves alone, whatever the number. -/
structure CsrKept (s t : State) : Prop where
  cfg : t.cfg = s.cfg
  regs : t.regs = s.regs
  pc : t.pc = s.pc
  ef : t.ef = s.ef
  cycle : t.cycle = s.cycle
  mtime : t.mtime = s.mtime
  mtimecmp : t.mtimecmp = s.mtimecmp
  call : t.call = s.call
  calls : t.calls = s.calls
  agenda : t.agenda = s.agenda

theorem State.csrWrite_kept {s t : State} {n : CsrNum} {v : Word} (h : s.csrWrite n v = .ok t) : CsrKept s t := by
  cases State.csrWrite_spec h with
  | csr c he => subst he; constructor <;> rfl
  | offered he => subst he; rw [State.offer_spec]; constructor <;> rfl
  | ptr he => subst he; constructor <;> rfl
  | len he => subst he; constructor <;> rfl
  | seek he => subst he; constructor <;> rfl
  | transfer he => rw [(State.blkTransfer_kept he).kept]; constructor <;> rfl

/-- A CSR instruction that completes: it read, wrote, and finished with the old value. -/
theorem State.csrOp_next {s t : State} {rd : Reg} {n : CsrNum} {f : Word → Word} (h : s.csrOp rd n f = .next t) :
    ∃ u, CsrKept s u ∧ t = u.finish rd (s.csrRead n).1 := by
  unfold State.csrOp at h
  dsimp only at h
  split at h
  · next e _ => cases e <;> cases h
  · next u hu =>
    cases h
    refine ⟨u, ?_, rfl⟩
    have hk := State.csrWrite_kept hu
    rcases State.csrRead_spec s n with he | he <;> rw [he] at hk
    · exact hk
    · exact ⟨hk.cfg, hk.regs, hk.pc, hk.ef, hk.cycle, hk.mtime, hk.mtimecmp, hk.call, hk.calls, hk.agenda⟩

/-! ### What a transfer moves (R454 to R456) -/

theorem ramOffset_add {s : State} {p : Word} {k : Nat} (h : ramOffset s p + k < 2 ^ 32) :
    ramOffset s (p + BitVec.ofNat 32 k) = ramOffset s p + k := by
  unfold ramOffset at *
  rw [BitVec.add_sub_comm, BitVec.toNat_add, BitVec.toNat_ofNat]
  omega

/-- What a transfer step needs of the state and keeps: good parameters and a good hierarchy. -/
structure Ready (s : State) : Prop where
  wf : s.cfg.Wf
  mem : MemInv s.cfg s.mem

/-- The hierarchy's invariants and image do not look at the coming storage outcomes. -/
theorem MemInv.with_io {c : Config} {m : Mem} (h : MemInv c m) (io : List Bool) : MemInv c { m with io := io } := by
  unfold MemInv at *
  split at h
  · exact ⟨h.backing_wf, h.sets_wf, h.sets_ok⟩
  · exact ⟨h.backing_wf, h.slots_le, h.blocks_ok, h.starts_distinct, h.index_perm, h.index_sorted⟩

theorem Mem.byte_with_io (c : Config) (m : Mem) (io : List Bool) (x : Nat) :
    Mem.byte c { m with io := io } x = Mem.byte c m x := by
  unfold Mem.byte
  split <;> rfl

theorem Ready.fileIo {s : State} (h : Ready s) : Ready s.fileIo.2 := ⟨h.wf, h.mem.with_io _⟩

/-- A file operation that fails uses one outcome, a failure. -/
theorem State.fileIo_failed {s : State} (h : s.fileIo.1 = true) : s.mem.io = true :: s.fileIo.2.mem.io := by
  have hf : (ioNext s.mem.io).1 = true := h
  show s.mem.io = true :: (ioNext s.mem.io).2
  cases hio : s.mem.io with
  | nil => rw [hio] at hf; cases hf
  | cons b io => rw [hio] at hf; obtain rfl : b = true := hf; rfl

/-- A file operation that succeeds uses no failure. -/
theorem State.fileIo_spent {s : State} (h : s.fileIo.1 = false) : Spent s.mem.io s.fileIo.2.mem.io :=
  Spent.next (io := s.mem.io) h

theorem fits_aligned {s : State} (h : s.cfg.Wf) {a : Word} (ha : ramOffset s a % 4 = 0) : FitsUnit s a 4 :=
  (crosses_iff s a 4).1 (crosses_aligned h ha)

/-- An operation stops on a storage operation, which a coming failure explains. -/
def StorageStops {α : Type} (s : State) (r : Except Fault α) : Prop :=
  true ∈ s.mem.io ∧ ∃ op o, r = .error (.storageFault op o)

theorem StorageStops.of_spent {α β : Type} {s t : State} {r : Except Fault α} {r' : Except Fault β}
    (h : StorageStops t r) (hs : Spent s.mem.io t.mem.io) (hr : ∀ f, r = .error f → r' = .error f) :
    StorageStops s r' :=
  ⟨hs.subset _ h.1, h.2.imp fun _ ⟨o, he⟩ => ⟨o, hr _ he⟩⟩

theorem true_mem_of_failure {m : Mem} (h : ¬ NoFailure m) : true ∈ m.io := by
  unfold NoFailure at h
  by_contra hn
  exact h fun b hb => by cases b with
    | false => rfl
    | true => exact absurd hb hn

/-- A write of an aligned RAM word, whatever the coming outcomes: it stops, or it stores the word. -/
theorem memWrite_any {s : State} {a : Word} (v : Word) (h : Ready s) (ha : ramOffset s a % 4 = 0) :
    StorageStops s (s.memWrite a 4 v) ∨ ∃ t, s.memWrite a 4 v = .ok t ∧ t = { s with mem := t.mem } ∧ Ready t ∧
      Spent s.mem.io t.mem.io ∧ ∀ x, t.ram x = storedImage s (ramOffset s a) 4 v x := by
  cases hr : s.memWrite a 4 v with
  | error f =>
    rcases State.memWrite_error hr with ⟨hx, -⟩ | ⟨hn, op, o, rfl⟩
    · rw [(crosses_iff s a 4).2 (fits_aligned h.wf ha)] at hx; cases hx
    · exact .inl ⟨true_mem_of_failure hn, op, o, rfl⟩
  | ok t =>
    obtain ⟨ht, hA⟩ := State.memWrite_spec h.mem h.wf.blocks_pos hr
    have hc : t.cfg = s.cfg := by rw [ht]
    refine .inr ⟨t, rfl, ht, ⟨by rw [hc]; exact h.wf, by rw [hc]; exact hA.inv⟩, hA.io, fun x => ?_⟩
    unfold State.ram storedImage
    rw [hc, hA.byte x]
    simp only [ramOffset_eq, shift_setWidth_byte]
    rfl

/-- A read of an aligned RAM word, whatever the coming outcomes: it stops, or it gives the word of the image. -/
theorem memRead_any {s : State} {a : Word} (h : Ready s) (ha : ramOffset s a % 4 = 0) :
    StorageStops s (s.memRead a 4) ∨ ∃ t, s.memRead a 4 = .ok (s.ramValue a 4, t) ∧ t = { s with mem := t.mem } ∧
      Ready t ∧ Spent s.mem.io t.mem.io ∧ ∀ x, t.ram x = s.ram x := by
  cases hr : s.memRead a 4 with
  | error f =>
    rcases State.memRead_error hr with ⟨hx, -⟩ | ⟨hn, op, o, rfl⟩
    · rw [(crosses_iff s a 4).2 (fits_aligned h.wf ha)] at hx; cases hx
    · exact .inl ⟨true_mem_of_failure hn, op, o, rfl⟩
  | ok p =>
    obtain ⟨v, t⟩ := p
    obtain ⟨rfl, ht, hA⟩ := State.memRead_spec h.mem h.wf.blocks_pos hr
    have hc : t.cfg = s.cfg := by rw [ht]
    exact .inr ⟨t, rfl, ht, ⟨by rw [hc]; exact h.wf, by rw [hc]; exact hA.inv⟩, hA.io,
      fun x => by unfold State.ram; rw [hc]; exact hA.byte x⟩

/-- The bytes stored by `storeWords` land at rising offsets, and nothing else changes. -/
theorem State.storeWords_spec : ∀ (bytes : List Byte) {s : State} {p : Word}, Ready s → ramOffset s p % 4 = 0 →
    bytes.length % 4 = 0 → ramOffset s p + bytes.length < 2 ^ 32 →
    StorageStops s (s.storeWords p bytes) ∨ ∃ t, s.storeWords p bytes = .ok t ∧ t = { s with mem := t.mem } ∧ Ready t ∧
      Spent s.mem.io t.mem.io ∧
      ∀ x, t.ram x = if ramOffset s p ≤ x ∧ x < ramOffset s p + bytes.length then bytes.getD (x - ramOffset s p) 0
        else s.ram x
  | [], s, p, h, _, _, _ => .inr ⟨s, rfl, rfl, h, .refl _, fun x => by rw [if_neg (by simp)]⟩
  | [_], _, _, _, _, hl, _ => by simp at hl
  | [_, _], _, _, _, _, hl, _ => by simp at hl
  | [_, _, _], _, _, _, _, hl, _ => by simp at hl
  | b0 :: b1 :: b2 :: b3 :: rest, s, p, h, hp, hl, hw => by
    simp only [List.length_cons] at hl hw
    rw [State.storeWords_cons]
    rcases memWrite_any (leWord [b0, b1, b2, b3]) h hp with hs | ⟨u, h1, hu, hur, hio, himg⟩
    · exact .inl (hs.of_spent (.refl _) fun f he => by rw [he])
    have hc : u.cfg = s.cfg := by rw [hu]
    have ho : ramOffset u (p + 4) = ramOffset s p + 4 := by
      have := ramOffset_add (s := s) (p := p) (k := 4) (by omega)
      unfold ramOffset at *
      rw [hc]; exact this
    rw [h1]
    dsimp only
    rcases State.storeWords_spec rest (s := u) (p := p + 4) hur (by omega) (by omega) (by omega) with
      hs | ⟨t, h2, ht, hr, hio2, himg2⟩
    · exact .inl (hs.of_spent hio fun _ he => he)
    refine .inr ⟨t, h2, by rw [ht, hu], hr, hio.trans hio2, fun x => ?_⟩
    rw [himg2 x, ho, himg x]
    simp only [List.length_cons, storedImage]
    by_cases hx : ramOffset s p ≤ x ∧ x < ramOffset s p + 4
    · rw [if_neg (by omega), if_pos hx, if_pos (by omega)]
      have hb : ∀ (j : Nat), j < 4 → (leWord [b0, b1, b2, b3]).extractLsb' (8 * j) 8 = [b0, b1, b2, b3].getD j 0 := by
        intro j hj
        ext i hi
        simp only [BitVec.getElem_extractLsb']
        rw [getLsbD_leWord _ _ (by omega), show (8 * j + i) / 8 = j by omega, show (8 * j + i) % 8 = i by omega,
          BitVec.getLsbD_eq_getElem hi]
      rw [hb _ (by omega)]
      obtain ⟨j, hj, hj4⟩ : ∃ j, x - ramOffset s p = j ∧ j < 4 := ⟨_, rfl, by omega⟩
      rw [hj]
      match j, hj4 with
      | 0, _ => rfl
      | 1, _ => rfl
      | 2, _ => rfl
      | 3, _ => rfl
    · rw [if_neg hx]
      by_cases hx2 : ramOffset s p + 4 ≤ x ∧ x < ramOffset s p + 4 + rest.length
      · rw [if_pos hx2, if_pos (by omega), show x - ramOffset s p = (x - (ramOffset s p + 4)) + 4 by omega]
        rfl
      · rw [if_neg hx2, if_neg (by omega)]

/-- `loadWords` reads the bytes of the image at rising offsets and leaves the image. -/
theorem State.loadWords_spec {k : Nat} {s : State} {p : Word} (h : Ready s) (hp : ramOffset s p % 4 = 0)
    (hw : ramOffset s p + 4 * k < 2 ^ 32) :
    StorageStops s (s.loadWords p k) ∨ ∃ bytes t, s.loadWords p k = .ok (bytes, t) ∧ t = { s with mem := t.mem } ∧
      Ready t ∧ Spent s.mem.io t.mem.io ∧ (∀ x, t.ram x = s.ram x) ∧
      bytes.length = 4 * k ∧ ∀ j, j < 4 * k → bytes.getD j 0 = s.ram (ramOffset s p + j) := by
  induction k generalizing s p with
  | zero => exact .inr ⟨[], s, rfl, rfl, h, .refl _, fun _ => rfl, rfl, fun j hj => by omega⟩
  | succ k ih =>
    unfold State.loadWords
    rcases memRead_any h hp with hs | ⟨u, h1, hu, hur, hio, himg⟩
    · exact .inl (hs.of_spent (.refl _) fun f he => by rw [he])
    have hc : u.cfg = s.cfg := by rw [hu]
    have ho : ramOffset u (p + 4) = ramOffset s p + 4 := by
      have := ramOffset_add (s := s) (p := p) (k := 4) (by omega)
      unfold ramOffset at *
      rw [hc]; exact this
    rw [h1]
    dsimp only
    rcases ih (s := u) (p := p + 4) hur (by omega) (by omega) with hs | ⟨bytes, t, h2, ht, hr, hio2, himg2, hlen, hget⟩
    · exact .inl (hs.of_spent hio fun f he => by rw [he])
    refine .inr ⟨leBytes 4 (s.ramValue p 4) ++ bytes, t, by simp only [h2], by rw [ht, hu], hr, hio.trans hio2,
      fun x => by rw [himg2, himg], by rw [List.length_append, length_leBytes, hlen]; omega, fun j hj => ?_⟩
    by_cases hj4 : j < 4
    · rw [List.getD_append _ _ _ _ (by rw [length_leBytes]; exact hj4), getD_leBytes _ _ _ hj4]
      have hv : s.ramValue p 4 = leWord ((List.range 4).map fun k => s.ram (ramOffset s p + k)) := rfl
      rw [hv]
      ext i hi
      rw [← BitVec.getLsbD_eq_getElem, ← BitVec.getLsbD_eq_getElem, BitVec.getLsbD_setWidth, BitVec.getLsbD_ushiftRight,
        getLsbD_leWord _ _ (by omega), show (8 * j + i) / 8 = j by omega, show (8 * j + i) % 8 = i by omega]
      simp [List.getD_eq_getElem?_getD, hj4, hi]
    · rw [List.getD_append_right _ _ _ _ (by rw [length_leBytes]; omega), length_leBytes, hget _ (by omega), himg, ho]
      congr 1; omega

/-- How a transfer loop of `rem` bytes ended: `moved` bytes moved, whole sectors if an operation failed and else all,
and the outcomes `used` were spent, a failure among them exactly if it failed. -/
structure LoopEnded (s t : State) (rem moved : Nat) (used : List Bool) (failed : Bool) : Prop where
  ready : Ready t
  io : s.mem.io = used ++ t.mem.io
  failure : failed = true ↔ true ∈ used
  all : failed = false → moved = rem
  some : failed = true → moved < rem ∧ moved % s.cfg.sectorSize = 0

/-- A loop that starts with nothing left. -/
theorem LoopEnded.nothing {s : State} (h : Ready s) : LoopEnded s s 0 0 [] false :=
  ⟨h, rfl, by simp, fun _ => rfl, fun hf => by cases hf⟩

/-- The first sector fails. -/
theorem LoopEnded.failed {s t : State} {rem : Nat} {used : List Bool} (ht : Ready t) (hr : 0 < rem)
    (hio : s.mem.io = used ++ true :: t.mem.io) : LoopEnded s t rem 0 (used ++ [true]) true :=
  ⟨ht, by rw [hio, List.append_assoc]; rfl, by simp, fun hf => by (cases hf), fun _ => ⟨hr, Nat.zero_mod _⟩⟩

/-- A sector moves, and the loop goes on with the rest. -/
theorem LoopEnded.cons {s u t : State} {rem moved : Nat} {used : List Bool} {failed : Bool}
    (h : LoopEnded u t (rem - min s.cfg.sectorSize rem) moved used failed) (hc : u.cfg = s.cfg)
    (hs : Spent s.mem.io u.mem.io) :
    ∃ used', LoopEnded s t rem (min s.cfg.sectorSize rem + moved) used' failed := by
  obtain ⟨first, hf, hn⟩ := hs
  refine ⟨first ++ used, h.ready, by rw [hf, h.io, List.append_assoc], by simp [hn, h.failure], fun hb => ?_, fun hb => ?_⟩
  · have := h.all hb; omega
  · obtain ⟨h1, h2⟩ := h.some hb
    rw [hc] at h2
    rw [show min s.cfg.sectorSize rem = s.cfg.sectorSize by omega]
    exact ⟨by omega, by rw [Nat.add_mod_left]; exact h2⟩

/-- The loop of a read transfer: it stops on a storage operation, or the bytes moved are those of the file, in RAM. -/
theorem State.readLoop_spec {fuel : Nat} {s : State} {p : Word} {rem : Nat} (h : Ready s)
    (hp : ramOffset s p % 4 = 0) (hl : rem % 4 = 0) (hw : ramOffset s p + rem < 2 ^ 32)
    (hpos : s.blk.pos.toNat + rem < 2 ^ 64) (hfuel : rem ≤ fuel * s.cfg.sectorSize) :
    StorageStops s (s.readLoop p rem fuel) ∨
    ∃ failed t moved used, s.readLoop p rem fuel = .ok (failed, t) ∧ LoopEnded s t rem moved used failed ∧
      t = { s with mem := t.mem, blk := { s.blk with pos := BitVec.ofNat 64 (s.blk.pos.toNat + moved) } } ∧
      ∀ x, t.ram x = if ramOffset s p ≤ x ∧ x < ramOffset s p + moved then
        s.blk.file.get (s.blk.pos.toNat + (x - ramOffset s p)) else s.ram x := by
  induction fuel generalizing s p rem with
  | zero =>
    obtain rfl : rem = 0 := by omega
    exact .inr ⟨false, s, 0, [], rfl, .nothing h, by simp, fun x => by rw [if_neg (by omega)]⟩
  | succ fuel ih =>
    unfold State.readLoop
    by_cases hr0 : rem = 0
    · subst hr0
      exact .inr ⟨false, s, 0, [], by simp, .nothing h, by simp, fun x => by rw [if_neg (by omega)]⟩
    rw [if_neg hr0]
    dsimp only
    have hss := h.wf.sector_words
    have hsp := h.wf.sector_pos
    have hrd := h.fileIo
    unfold State.sectorRead
    dsimp only
    cases hf : s.fileIo.1 with
    | true =>
      simp only [if_true]
      refine .inr ⟨true, s.fileIo.2, 0, _, rfl, .failed (used := []) hrd (by omega) (State.fileIo_failed hf), ?_,
        fun x => ?_⟩
      · show s.fileIo.2 = _; simp [State.fileIo]
      · rw [if_neg (by omega)]; exact Mem.byte_with_io _ _ _ _
    | false =>
    simp only [Bool.false_eq_true, if_false]
    rw [show s.fileIo.2.blk = s.blk from rfl]
    have hio0 := State.fileIo_spent hf
    have hend := fun {u t : State} {moved used failed} => @LoopEnded.cons s u t rem moved used failed
    generalize hn : min s.cfg.sectorSize rem = n at hend ⊢
    have hlen : (s.blk.file.getN s.blk.pos.toNat n).length = n := Memory.length_getN _ _ _
    rcases State.storeWords_spec (s.blk.file.getN s.blk.pos.toNat n) (s := s.fileIo.2) (p := p)
      hrd hp (by rw [hlen]; omega) (by rw [hlen]; show ramOffset s p + n < _; omega) with
      hs | ⟨u, h1, hu, hur, hio1, himg⟩
    · exact .inl (hs.of_spent hio0 fun f he => by rw [he])
    rw [h1]
    dsimp only
    have hcu : u.cfg = s.cfg := by rw [hu]; rfl
    have hbu : u.blk = s.blk := by rw [hu]; rfl
    have hou : ∀ a, ramOffset (u.advancePos n) a = ramOffset s a := by
      intro a; unfold ramOffset; rw [State.advancePos_cfg, hcu]
    have hpos' : (u.advancePos n).blk.pos.toNat = s.blk.pos.toNat + n := by
      rw [State.advancePos_blk, hbu, BitVec.toNat_add, BitVec.toNat_ofNat]
      omega
    have hop : ramOffset s (p + BitVec.ofNat 32 n) = ramOffset s p + n := ramOffset_add (by omega)
    have hio : Spent s.mem.io (u.advancePos n).mem.io := hio0.trans hio1
    rcases ih (s := u.advancePos n) (p := p + BitVec.ofNat 32 n) (rem := rem - n)
      ⟨hur.wf, hur.mem⟩ (by rw [hou, hop]; omega) (by omega) (by rw [hou, hop]; omega) (by rw [hpos']; omega)
      (by
        rw [State.advancePos_cfg, hcu]
        have : (fuel + 1) * s.cfg.sectorSize = fuel * s.cfg.sectorSize + s.cfg.sectorSize := by ring
        omega) with hs | ⟨failed, t, moved, used, h2, hE, ht, himg2⟩
    · exact .inl (hs.of_spent hio fun _ he => he)
    obtain ⟨used', hE'⟩ := hend hE hcu hio
    refine .inr ⟨failed, t, n + moved, used', h2, hE', ?_, fun x => ?_⟩
    · rw [ht, hpos', Nat.add_assoc]
      have : u.advancePos n = { s with mem := u.mem, blk := { s.blk with pos := s.blk.pos + BitVec.ofNat 64 n } } := by
        unfold State.advancePos; rw [hu]; rfl
      rw [this]
    · rw [himg2 x, hou, hop, hpos']
      have hfile : (u.advancePos n).blk.file = s.blk.file := by rw [State.advancePos_blk, hbu]
      rw [hfile]
      have hb : (u.advancePos n).ram x = u.ram x := rfl
      rw [hb, himg x, hlen]
      have hos : ramOffset s.fileIo.2 p = ramOffset s p := rfl
      have hsr : s.fileIo.2.ram x = s.ram x := Mem.byte_with_io _ _ _ _
      rw [hos, hsr]
      by_cases hx1 : ramOffset s p + n ≤ x ∧ x < ramOffset s p + n + moved
      · rw [if_pos hx1, if_pos (by omega)]
        congr 1; omega
      · rw [if_neg hx1]
        by_cases hx2 : ramOffset s p ≤ x ∧ x < ramOffset s p + n
        · rw [if_pos hx2, if_pos (by omega), Memory.getD_getN _ _ _ _ (by omega)]
        · rw [if_neg hx2, if_neg (by omega)]

/-- The loop of a write transfer: it stops on a storage operation, or the bytes moved are those of RAM, in the file, whose
other bytes are as before but for those of a failing sector. -/
theorem State.writeLoop_spec {fuel : Nat} {s : State} {p : Word} {rem : Nat} (h : Ready s)
    (hfile : s.blk.file.wf = true) (hp : ramOffset s p % 4 = 0) (hl : rem % 4 = 0)
    (hw : ramOffset s p + rem < 2 ^ 32) (hpos : s.blk.pos.toNat + rem < 2 ^ 64)
    (hfuel : rem ≤ fuel * s.cfg.sectorSize) :
    StorageStops s (s.writeLoop p rem fuel) ∨
    ∃ failed t moved used, s.writeLoop p rem fuel = .ok (failed, t) ∧ LoopEnded s t rem moved used failed ∧
      t = { s with mem := t.mem, blk := { s.blk with
        pos := BitVec.ofNat 64 (s.blk.pos.toNat + moved), file := t.blk.file
        torn := s.blk.torn + min s.cfg.sectorSize (rem - moved) } } ∧
      (∀ x, t.ram x = s.ram x) ∧
      ∀ y, ¬ (s.blk.pos.toNat + moved ≤ y ∧ y < s.blk.pos.toNat + moved + min s.cfg.sectorSize (rem - moved)) →
        t.blk.file.get y = if s.blk.pos.toNat ≤ y ∧ y < s.blk.pos.toNat + moved then
          s.ram (ramOffset s p + (y - s.blk.pos.toNat)) else s.blk.file.get y := by
  induction fuel generalizing s p rem with
  | zero =>
    obtain rfl : rem = 0 := by omega
    exact .inr ⟨false, s, 0, [], rfl, .nothing h, by simp, fun x => rfl, fun y _ => by rw [if_neg (by omega)]⟩
  | succ fuel ih =>
    unfold State.writeLoop
    by_cases hr0 : rem = 0
    · subst hr0
      exact .inr ⟨false, s, 0, [], by simp, .nothing h, by simp, fun x => rfl, fun y _ => by rw [if_neg (by omega)]⟩
    rw [if_neg hr0]
    dsimp only
    have hss := h.wf.sector_words
    have hsp := h.wf.sector_pos
    have hend := fun {u t : State} {moved used failed} => @LoopEnded.cons s u t rem moved used failed
    generalize hn : min s.cfg.sectorSize rem = n at hend ⊢
    unfold State.sectorWrite
    rcases State.loadWords_spec (k := n / 4) h hp (by omega) with hs | ⟨bytes, u, h1, hu, hur, hio0, himg, hlen, hget⟩
    · exact .inl (hs.of_spent (.refl _) fun f he => by rw [he])
    have hlen' : bytes.length = n := by omega
    rw [h1]
    dsimp only
    have hcu : u.cfg = s.cfg := by rw [hu]
    have hbu : u.fileIo.2.blk = s.blk := by rw [show u.fileIo.2.blk = u.blk from rfl, hu]
    have hmem : u.fileIo.2 = { s with mem := u.fileIo.2.mem } := by
      rw [show u.fileIo.2 = { u with mem := u.fileIo.2.mem } from rfl, hu]
    have hram : ∀ x, u.fileIo.2.ram x = s.ram x := fun x => (Mem.byte_with_io _ _ _ _).trans (himg x)
    cases hf : u.fileIo.1 with
    | true =>
      simp only [if_true]
      obtain ⟨first, hfirst, -⟩ := hio0
      refine .inr ⟨true, _, 0, _, rfl, .failed (used := first) ⟨hur.fileIo.wf, hur.fileIo.mem⟩ (by omega) ?_, ?_, hram,
        fun y hy => ?_⟩
      · rw [hfirst, State.fileIo_failed hf]; rfl
      · rw [Nat.sub_zero, hn]
        unfold State.tearSector
        rw [hmem]
        simp
      · rw [Nat.sub_zero, Nat.add_zero, hn] at hy
        rw [State.tearSector_blk, hbu, if_neg (by omega)]
        dsimp only
        rw [Memory.get_putN hfile, if_neg (by simpa using hy)]
    | false =>
    simp only [Bool.false_eq_true, if_false]
    have hio1 := State.fileIo_spent hf
    generalize hv : ({ u.fileIo.2 with blk.file := u.fileIo.2.blk.file.putN u.fileIo.2.blk.pos.toNat bytes } : State) = v
    have hvs : v = { s with mem := u.fileIo.2.mem, blk := { s.blk with file := s.blk.file.putN s.blk.pos.toNat bytes } } := by
      rw [← hv, hmem]
    have hcv : v.cfg = s.cfg := by rw [hvs]
    have hbv : v.blk = { s.blk with file := s.blk.file.putN s.blk.pos.toNat bytes } := by rw [hvs]
    have hvr : Ready v := by rw [← hv]; exact ⟨hur.fileIo.wf, hur.fileIo.mem⟩
    have hov : ∀ a, ramOffset (v.advancePos n) a = ramOffset s a := by
      intro a; unfold ramOffset; rw [State.advancePos_cfg, hcv]
    have hvram : ∀ x, (v.advancePos n).ram x = s.ram x := by
      intro x; rw [← hram x, ← hv]; rfl
    have hpos' : (v.advancePos n).blk.pos.toNat = s.blk.pos.toNat + n := by
      rw [State.advancePos_blk, hbv]
      show (s.blk.pos + BitVec.ofNat 64 n).toNat = _
      rw [BitVec.toNat_add, BitVec.toNat_ofNat]
      omega
    have hop : ramOffset s (p + BitVec.ofNat 32 n) = ramOffset s p + n := ramOffset_add (by omega)
    have hfv : (v.advancePos n).blk.file = s.blk.file.putN s.blk.pos.toNat bytes := by
      rw [State.advancePos_blk, hbv]
    have htv : (v.advancePos n).blk.torn = s.blk.torn := by rw [State.advancePos_blk, hbv]
    have hio : Spent s.mem.io (v.advancePos n).mem.io := by
      refine hio0.trans ?_
      rw [← hv]; exact hio1
    rcases ih (s := v.advancePos n) (p := p + BitVec.ofNat 32 n) (rem := rem - n)
      ⟨hvr.wf, hvr.mem⟩ (by rw [hfv]; exact Memory.wf_putN hfile _ _) (by rw [hov, hop]; omega) (by omega)
      (by rw [hov, hop]; omega) (by rw [hpos']; omega)
      (by
        rw [State.advancePos_cfg, hcv]
        have : (fuel + 1) * s.cfg.sectorSize = fuel * s.cfg.sectorSize + s.cfg.sectorSize := by ring
        omega) with hs | ⟨failed, t, moved, used, h2, hE, ht, himg2, hfile2⟩
    · exact .inl (hs.of_spent hio fun _ he => he)
    obtain ⟨used', hE'⟩ := hend hE hcv hio
    rw [State.advancePos_cfg, hcv] at ht hfile2
    refine .inr ⟨failed, t, n + moved, used', h2, hE', ?_, fun x => by rw [himg2, hvram], fun y hy => ?_⟩
    · rw [ht, hpos', htv, Nat.add_assoc, Nat.sub_sub]
      have : v.advancePos n = { s with mem := v.mem, blk := { s.blk with
          pos := s.blk.pos + BitVec.ofNat 64 n, file := s.blk.file.putN s.blk.pos.toNat bytes } } := by
        unfold State.advancePos; rw [hvs]
      rw [this]
    · rw [hfile2 y (by rw [hpos', Nat.sub_sub]; omega), hpos', hvram, hov, hop, hfv, Memory.get_putN hfile, hlen']
      by_cases hy1 : s.blk.pos.toNat + n ≤ y ∧ y < s.blk.pos.toNat + n + moved
      · rw [if_pos hy1, if_pos (by omega)]
        congr 1; omega
      · rw [if_neg hy1]
        by_cases hy2 : s.blk.pos.toNat ≤ y ∧ y < s.blk.pos.toNat + n
        · rw [if_pos hy2, if_pos (by omega), hget _ (by omega)]
        · rw [if_neg hy2, if_neg (by omega)]

end Sys2Proof.Machine
end

