-- ==== Sys2Proof/Laws/Exec.lean ====
section
/-! SUPPORT. One equation for each constructor of `Instr`: what `exec` does with it, in terms of the shared shape its
meaning uses, so that no proof unfolds the dispatch. -/

namespace Sys2Proof.Machine

theorem exec_lui (rd : Reg) (imm : BitVec 20) (s : State) :
    exec (.lui rd imm) s = .next (s.finish rd (immUpper imm)) := rfl
theorem exec_auipc (rd : Reg) (imm : BitVec 20) (s : State) :
    exec (.auipc rd imm) s = .next (s.finish rd (s.pc + immUpper imm)) := rfl
theorem exec_jal (rd : Reg) (off : BitVec 21) (s : State) :
    exec (.jal rd off) s = .next (s.finishAt rd (s.pc + 4) (s.pc + offSext off)) := rfl
theorem exec_jalr (rd rs1 : Reg) (imm : BitVec 12) (s : State) :
    exec (.jalr rd rs1 imm) s = .next (s.finishAt rd (s.pc + 4) ((s.readReg rs1 + immSext imm) &&& 0xFFFFFFFE#32))
      := rfl
theorem exec_beq (rs1 rs2 : Reg) (off : BitVec 13) (s : State) :
    exec (.beq rs1 rs2 off) s = s.branch rs1 rs2 off fun a b => a == b := rfl
theorem exec_bne (rs1 rs2 : Reg) (off : BitVec 13) (s : State) :
    exec (.bne rs1 rs2 off) s = s.branch rs1 rs2 off fun a b => a != b := rfl
theorem exec_blt (rs1 rs2 : Reg) (off : BitVec 13) (s : State) :
    exec (.blt rs1 rs2 off) s = s.branch rs1 rs2 off fun a b => a.slt b := rfl
theorem exec_bge (rs1 rs2 : Reg) (off : BitVec 13) (s : State) :
    exec (.bge rs1 rs2 off) s = s.branch rs1 rs2 off fun a b => !a.slt b := rfl
theorem exec_bltu (rs1 rs2 : Reg) (off : BitVec 13) (s : State) :
    exec (.bltu rs1 rs2 off) s = s.branch rs1 rs2 off fun a b => a.ult b := rfl
theorem exec_bgeu (rs1 rs2 : Reg) (off : BitVec 13) (s : State) :
    exec (.bgeu rs1 rs2 off) s = s.branch rs1 rs2 off fun a b => !a.ult b := rfl
theorem exec_lb (rd rs1 : Reg) (imm : BitVec 12) (s : State) :
    exec (.lb rd rs1 imm) s = s.load .b rd rs1 imm := rfl
theorem exec_lh (rd rs1 : Reg) (imm : BitVec 12) (s : State) :
    exec (.lh rd rs1 imm) s = s.load .h rd rs1 imm := rfl
theorem exec_lw (rd rs1 : Reg) (imm : BitVec 12) (s : State) :
    exec (.lw rd rs1 imm) s = s.load .w rd rs1 imm := rfl
theorem exec_lbu (rd rs1 : Reg) (imm : BitVec 12) (s : State) :
    exec (.lbu rd rs1 imm) s = s.load .bu rd rs1 imm := rfl
theorem exec_lhu (rd rs1 : Reg) (imm : BitVec 12) (s : State) :
    exec (.lhu rd rs1 imm) s = s.load .hu rd rs1 imm := rfl
theorem exec_sb (rs1 rs2 : Reg) (imm : BitVec 12) (s : State) :
    exec (.sb rs1 rs2 imm) s = s.store .b rs1 rs2 imm := rfl
theorem exec_sh (rs1 rs2 : Reg) (imm : BitVec 12) (s : State) :
    exec (.sh rs1 rs2 imm) s = s.store .h rs1 rs2 imm := rfl
theorem exec_sw (rs1 rs2 : Reg) (imm : BitVec 12) (s : State) :
    exec (.sw rs1 rs2 imm) s = s.store .w rs1 rs2 imm := rfl
theorem exec_addi (rd rs1 : Reg) (imm : BitVec 12) (s : State) :
    exec (.addi rd rs1 imm) s = s.opImm rd rs1 (immSext imm) fun a b => a + b := rfl
theorem exec_slti (rd rs1 : Reg) (imm : BitVec 12) (s : State) :
    exec (.slti rd rs1 imm) s = s.opImm rd rs1 (immSext imm) fun a b => boolWord (a.slt b) := rfl
theorem exec_sltiu (rd rs1 : Reg) (imm : BitVec 12) (s : State) :
    exec (.sltiu rd rs1 imm) s = s.opImm rd rs1 (immSext imm) fun a b => boolWord (a.ult b) := rfl
theorem exec_xori (rd rs1 : Reg) (imm : BitVec 12) (s : State) :
    exec (.xori rd rs1 imm) s = s.opImm rd rs1 (immSext imm) fun a b => a ^^^ b := rfl
theorem exec_ori (rd rs1 : Reg) (imm : BitVec 12) (s : State) :
    exec (.ori rd rs1 imm) s = s.opImm rd rs1 (immSext imm) fun a b => a ||| b := rfl
theorem exec_andi (rd rs1 : Reg) (imm : BitVec 12) (s : State) :
    exec (.andi rd rs1 imm) s = s.opImm rd rs1 (immSext imm) fun a b => a &&& b := rfl
theorem exec_slli (rd rs1 : Reg) (shamt : BitVec 5) (s : State) :
    exec (.slli rd rs1 shamt) s = s.opImm rd rs1 (uimmZext shamt) fun a b => a <<< b.toNat := rfl
theorem exec_srli (rd rs1 : Reg) (shamt : BitVec 5) (s : State) :
    exec (.srli rd rs1 shamt) s = s.opImm rd rs1 (uimmZext shamt) fun a b => a >>> b.toNat := rfl
theorem exec_srai (rd rs1 : Reg) (shamt : BitVec 5) (s : State) :
    exec (.srai rd rs1 shamt) s = s.opImm rd rs1 (uimmZext shamt) fun a b => a.sshiftRight b.toNat := rfl
theorem exec_add (rd rs1 rs2 : Reg) (s : State) :
    exec (.add rd rs1 rs2) s = s.opReg rd rs1 rs2 fun a b => a + b := rfl
theorem exec_sub (rd rs1 rs2 : Reg) (s : State) :
    exec (.sub rd rs1 rs2) s = s.opReg rd rs1 rs2 fun a b => a - b := rfl
theorem exec_sll (rd rs1 rs2 : Reg) (s : State) :
    exec (.sll rd rs1 rs2) s = s.opReg rd rs1 rs2 fun a b => a <<< shiftAmount b := rfl
theorem exec_slt (rd rs1 rs2 : Reg) (s : State) :
    exec (.slt rd rs1 rs2) s = s.opReg rd rs1 rs2 fun a b => boolWord (a.slt b) := rfl
theorem exec_sltu (rd rs1 rs2 : Reg) (s : State) :
    exec (.sltu rd rs1 rs2) s = s.opReg rd rs1 rs2 fun a b => boolWord (a.ult b) := rfl
theorem exec_xor (rd rs1 rs2 : Reg) (s : State) :
    exec (.xor rd rs1 rs2) s = s.opReg rd rs1 rs2 fun a b => a ^^^ b := rfl
theorem exec_srl (rd rs1 rs2 : Reg) (s : State) :
    exec (.srl rd rs1 rs2) s = s.opReg rd rs1 rs2 fun a b => a >>> shiftAmount b := rfl
theorem exec_sra (rd rs1 rs2 : Reg) (s : State) :
    exec (.sra rd rs1 rs2) s = s.opReg rd rs1 rs2 fun a b => a.sshiftRight (shiftAmount b) := rfl
theorem exec_or (rd rs1 rs2 : Reg) (s : State) :
    exec (.or rd rs1 rs2) s = s.opReg rd rs1 rs2 fun a b => a ||| b := rfl
theorem exec_and (rd rs1 rs2 : Reg) (s : State) :
    exec (.and rd rs1 rs2) s = s.opReg rd rs1 rs2 fun a b => a &&& b := rfl
theorem exec_fence (fm pred succ : BitVec 4) (rs1 rd : Reg) (s : State) :
    exec (.fence fm pred succ rs1 rd) s = .next s.advance := rfl
theorem exec_fenceI (imm : BitVec 12) (rs1 rd : Reg) (s : State) :
    exec (.fenceI imm rs1 rd) s = .next s.advance := rfl
theorem exec_ecall (s : State) :
    exec (.ecall) s = .next (s.raiseTrap (if s.ef.priv = 0#2 then 8 else 11) s.pc) := rfl
theorem exec_ebreak (s : State) :
    exec (.ebreak) s = .next (s.raiseTrap 3 s.pc) := rfl
theorem exec_mret (s : State) :
    exec (.mret) s = .next s.trapReturn := rfl
theorem exec_wfi (s : State) :
    exec (.wfi) s = .next ({ s with csr.mstatus := s.csr.mstatus ||| 0x8#32, ef.wfi := true }.advance.endCall 1) :=
      rfl
theorem exec_csrrw (rd rs1 : Reg) (csr : CsrNum) (s : State) :
    exec (.csrrw rd rs1 csr) s = s.csrOp rd csr fun _ => s.readReg rs1 := rfl
theorem exec_csrrs (rd rs1 : Reg) (csr : CsrNum) (s : State) :
    exec (.csrrs rd rs1 csr) s = s.csrOp rd csr fun old => old ||| s.readReg rs1 := rfl
theorem exec_csrrc (rd rs1 : Reg) (csr : CsrNum) (s : State) :
    exec (.csrrc rd rs1 csr) s = s.csrOp rd csr fun old => old &&& ~~~s.readReg rs1 := rfl
theorem exec_csrrwi (rd : Reg) (uimm : BitVec 5) (csr : CsrNum) (s : State) :
    exec (.csrrwi rd uimm csr) s = s.csrOp rd csr fun _ => uimmZext uimm := rfl
theorem exec_csrrsi (rd : Reg) (uimm : BitVec 5) (csr : CsrNum) (s : State) :
    exec (.csrrsi rd uimm csr) s = s.csrOp rd csr fun old => old ||| uimmZext uimm := rfl
theorem exec_csrrci (rd : Reg) (uimm : BitVec 5) (csr : CsrNum) (s : State) :
    exec (.csrrci rd uimm csr) s = s.csrOp rd csr fun old => old &&& ~~~uimmZext uimm := rfl
theorem exec_mul (rd rs1 rs2 : Reg) (s : State) :
    exec (.mul rd rs1 rs2) s = s.opReg rd rs1 rs2 fun a b => a * b := rfl
theorem exec_mulh (rd rs1 rs2 : Reg) (s : State) :
    exec (.mulh rd rs1 rs2) s = s.opReg rd rs1 rs2 fun a b => mulHigh (a.signExtend 64) (b.signExtend 64) := rfl
theorem exec_mulhsu (rd rs1 rs2 : Reg) (s : State) :
    exec (.mulhsu rd rs1 rs2) s = s.opReg rd rs1 rs2 fun a b => mulHigh (a.signExtend 64) (b.setWidth 64) := rfl
theorem exec_mulhu (rd rs1 rs2 : Reg) (s : State) :
    exec (.mulhu rd rs1 rs2) s = s.opReg rd rs1 rs2 fun a b => mulHigh (a.setWidth 64) (b.setWidth 64) := rfl
theorem exec_div (rd rs1 rs2 : Reg) (s : State) :
    exec (.div rd rs1 rs2) s = s.opReg rd rs1 rs2 divSigned := rfl
theorem exec_divu (rd rs1 rs2 : Reg) (s : State) :
    exec (.divu rd rs1 rs2) s = s.opReg rd rs1 rs2 divUnsigned := rfl
theorem exec_rem (rd rs1 rs2 : Reg) (s : State) :
    exec (.rem rd rs1 rs2) s = s.opReg rd rs1 rs2 remSigned := rfl
theorem exec_remu (rd rs1 rs2 : Reg) (s : State) :
    exec (.remu rd rs1 rs2) s = s.opReg rd rs1 rs2 remUnsigned := rfl
theorem exec_lrW (aq rl : Bool) (rd rs1 : Reg) (s : State) :
    exec (.lrW aq rl rd rs1) s = s.atomic rs1 fun old t => .next ({ t with ef.res := resTag s.cfg (s.readReg rs1)
      }.finish rd old) := rfl
theorem exec_scW (aq rl : Bool) (rd rs1 rs2 : Reg) (s : State) :
    exec (.scW aq rl rd rs1 rs2) s = s.atomic rs1 fun _ t => if t.ef.res = resTag s.cfg (s.readReg rs1) then
      match t.memWrite (s.readReg rs1) 4 (s.readReg rs2) with | .error e => .fault e | .ok t => .next (t.finish rd
      0) else .next (t.finish rd 1) := rfl
theorem exec_amoswapW (aq rl : Bool) (rd rs1 rs2 : Reg) (s : State) :
    exec (.amoswapW aq rl rd rs1 rs2) s = s.amo rd rs1 rs2 fun _ v => v := rfl
theorem exec_amoaddW (aq rl : Bool) (rd rs1 rs2 : Reg) (s : State) :
    exec (.amoaddW aq rl rd rs1 rs2) s = s.amo rd rs1 rs2 fun old v => old + v := rfl
theorem exec_amoxorW (aq rl : Bool) (rd rs1 rs2 : Reg) (s : State) :
    exec (.amoxorW aq rl rd rs1 rs2) s = s.amo rd rs1 rs2 fun old v => old ^^^ v := rfl
theorem exec_amoandW (aq rl : Bool) (rd rs1 rs2 : Reg) (s : State) :
    exec (.amoandW aq rl rd rs1 rs2) s = s.amo rd rs1 rs2 fun old v => old &&& v := rfl
theorem exec_amoorW (aq rl : Bool) (rd rs1 rs2 : Reg) (s : State) :
    exec (.amoorW aq rl rd rs1 rs2) s = s.amo rd rs1 rs2 fun old v => old ||| v := rfl
theorem exec_amominW (aq rl : Bool) (rd rs1 rs2 : Reg) (s : State) :
    exec (.amominW aq rl rd rs1 rs2) s = s.amo rd rs1 rs2 fun old v => if v.slt old then v else old := rfl
theorem exec_amomaxW (aq rl : Bool) (rd rs1 rs2 : Reg) (s : State) :
    exec (.amomaxW aq rl rd rs1 rs2) s = s.amo rd rs1 rs2 fun old v => if old.slt v then v else old := rfl
theorem exec_amominuW (aq rl : Bool) (rd rs1 rs2 : Reg) (s : State) :
    exec (.amominuW aq rl rd rs1 rs2) s = s.amo rd rs1 rs2 fun old v => if v.ult old then v else old := rfl
theorem exec_amomaxuW (aq rl : Bool) (rd rs1 rs2 : Reg) (s : State) :
    exec (.amomaxuW aq rl rd rs1 rs2) s = s.amo rd rs1 rs2 fun old v => if old.ult v then v else old := rfl

/-! ### The shapes of `exec` -/

/-- What `exec i s` can be, one constructor for each shared shape of the meanings. -/
inductive ExecShape (i : Instr) (s : State) : Result → Prop where
  | finish (rd : Reg) (v : Word) : ExecShape i s (.next (s.finish rd v))
  | jump (rd : Reg) (v npc : Word) : ExecShape i s (.next (s.finishAt rd v npc))
  | goto (npc : Word) : ExecShape i s (.next { s with pc := npc })
  | load (k : LoadWidth) (rd rs1 : Reg) (imm : BitVec 12) : ExecShape i s (s.load k rd rs1 imm)
  | store (k : StoreWidth) (rs1 rs2 : Reg) (imm : BitVec 12)
      (h : i = .sb rs1 rs2 imm ∨ i = .sh rs1 rs2 imm ∨ i = .sw rs1 rs2 imm) : ExecShape i s (s.store k rs1 rs2 imm)
  | raise (cause : Word) : ExecShape i s (.next (s.raiseTrap cause s.pc))
  | mret (h : i = .mret) : ExecShape i s (.next s.trapReturn)
  | wfi (h : i = .wfi) : ExecShape i s (execWfi s)
  | csrOp (rd : Reg) (n : CsrNum) (f : Word → Word) : ExecShape i s (s.csrOp rd n f)
  | lr (aq rl : Bool) (rd rs1 : Reg) (h : i = .lrW aq rl rd rs1) : ExecShape i s (execLrW aq rl rd rs1 s)
  | sc (aq rl : Bool) (rd rs1 rs2 : Reg) : ExecShape i s (execScW aq rl rd rs1 rs2 s)
  | amo (rd rs1 rs2 : Reg) (f : Word → Word → Word) : ExecShape i s (s.amo rd rs1 rs2 f)

theorem branch_shape (i : Instr) (s : State) (rs1 rs2 : Reg) (off : BitVec 13) (cond : Word → Word → Bool) :
    ExecShape i s (s.branch rs1 rs2 off cond) := by
  unfold State.branch
  split
  · exact .goto _
  · exact .goto _

/-- Every instruction has one of the shapes. -/
theorem exec_shape (i : Instr) (s : State) : ExecShape i s (exec i s) := by
  cases i with
  | jal => exact .jump _ _ _
  | jalr => exact .jump _ _ _
  | ecall => exact .raise _
  | ebreak => exact .raise 3
  | mret => exact .mret rfl
  | wfi => exact .wfi rfl
  | lrW => exact .lr _ _ _ _ rfl
  | scW aq rl rd rs1 rs2 => exact .sc aq rl rd rs1 rs2
  | beq => rw [exec_beq]; exact branch_shape _ s _ _ _ _
  | bne => rw [exec_bne]; exact branch_shape _ s _ _ _ _
  | blt => rw [exec_blt]; exact branch_shape _ s _ _ _ _
  | bge => rw [exec_bge]; exact branch_shape _ s _ _ _ _
  | bltu => rw [exec_bltu]; exact branch_shape _ s _ _ _ _
  | bgeu => rw [exec_bgeu]; exact branch_shape _ s _ _ _ _
  | lb => rw [exec_lb]; exact .load _ _ _ _
  | lh => rw [exec_lh]; exact .load _ _ _ _
  | lw => rw [exec_lw]; exact .load _ _ _ _
  | lbu => rw [exec_lbu]; exact .load _ _ _ _
  | lhu => rw [exec_lhu]; exact .load _ _ _ _
  | sb => rw [exec_sb]; exact .store _ _ _ _ (.inl rfl)
  | sh => rw [exec_sh]; exact .store _ _ _ _ (.inr (.inl rfl))
  | sw => rw [exec_sw]; exact .store _ _ _ _ (.inr (.inr rfl))
  | addi => rw [exec_addi]; exact .finish _ _
  | slti => rw [exec_slti]; exact .finish _ _
  | sltiu => rw [exec_sltiu]; exact .finish _ _
  | xori => rw [exec_xori]; exact .finish _ _
  | ori => rw [exec_ori]; exact .finish _ _
  | andi => rw [exec_andi]; exact .finish _ _
  | slli => rw [exec_slli]; exact .finish _ _
  | srli => rw [exec_srli]; exact .finish _ _
  | srai => rw [exec_srai]; exact .finish _ _
  | add => rw [exec_add]; exact .finish _ _
  | sub => rw [exec_sub]; exact .finish _ _
  | sll => rw [exec_sll]; exact .finish _ _
  | slt => rw [exec_slt]; exact .finish _ _
  | sltu => rw [exec_sltu]; exact .finish _ _
  | xor => rw [exec_xor]; exact .finish _ _
  | srl => rw [exec_srl]; exact .finish _ _
  | sra => rw [exec_sra]; exact .finish _ _
  | or => rw [exec_or]; exact .finish _ _
  | and => rw [exec_and]; exact .finish _ _
  | mul => rw [exec_mul]; exact .finish _ _
  | mulh => rw [exec_mulh]; exact .finish _ _
  | mulhsu => rw [exec_mulhsu]; exact .finish _ _
  | mulhu => rw [exec_mulhu]; exact .finish _ _
  | div => rw [exec_div]; exact .finish _ _
  | divu => rw [exec_divu]; exact .finish _ _
  | rem => rw [exec_rem]; exact .finish _ _
  | remu => rw [exec_remu]; exact .finish _ _
  | csrrw => rw [exec_csrrw]; exact .csrOp _ _ _
  | csrrs => rw [exec_csrrs]; exact .csrOp _ _ _
  | csrrc => rw [exec_csrrc]; exact .csrOp _ _ _
  | csrrwi => rw [exec_csrrwi]; exact .csrOp _ _ _
  | csrrsi => rw [exec_csrrsi]; exact .csrOp _ _ _
  | csrrci => rw [exec_csrrci]; exact .csrOp _ _ _
  | amoswapW => rw [exec_amoswapW]; exact .amo _ _ _ _
  | amoaddW => rw [exec_amoaddW]; exact .amo _ _ _ _
  | amoxorW => rw [exec_amoxorW]; exact .amo _ _ _ _
  | amoandW => rw [exec_amoandW]; exact .amo _ _ _ _
  | amoorW => rw [exec_amoorW]; exact .amo _ _ _ _
  | amominW => rw [exec_amominW]; exact .amo _ _ _ _
  | amomaxW => rw [exec_amomaxW]; exact .amo _ _ _ _
  | amominuW => rw [exec_amominuW]; exact .amo _ _ _ _
  | amomaxuW => rw [exec_amomaxuW]; exact .amo _ _ _ _
  | fence => exact .goto _
  | fenceI => exact .goto _
  | lui => exact .finish _ _
  | auipc => exact .finish _ _

end Sys2Proof.Machine
end

