-- ==== Sys2Proof/Laws/Csr.lean ====
section
/-! SUPPORT. The laws of the CSR accessors (`45_system.md` R340 to R342): the six instructions as one sequence, and the
custom numbers, which are distinct from each other and from the standard ones (`00_scope.md` R8). -/

namespace Sys2Proof.Machine

/-- Each of the six CSR instructions is the sequence of R342 with its own function of the old value. -/
theorem exec_csrForms {s : State} {rd rs1 : Reg} {uimm : BitVec 5} {n : CsrNum} {q : Instr × (Word → Word)}
    (h : q ∈ csrForms s rd rs1 uimm n) : exec q.1 s = s.csrOp rd n q.2 := by
  simp only [csrForms, List.mem_cons, List.not_mem_nil, or_false] at h
  rcases h with rfl | rfl | rfl | rfl | rfl | rfl <;> rfl

theorem csrOp_completes {s t u : State} {n : CsrNum} {rd : Reg} {f : Word → Word} {old : Word}
    (hr : s.csrRead n = (old, u)) (hw : u.csrWrite n (f old) = .ok t) : s.csrOp rd n f = .next (t.finish rd old) := by
  unfold State.csrOp
  rw [hr]
  simp only [hw]

theorem custom_ne_standard {c : Config} (h : c.Wf) {n m : CsrNum} (hn : n ∈ c.customCsrs) (hm : m ∈ standardCsrs) :
    n ≠ m := by
  have := h.csrs_distinct
  rw [List.nodup_append] at this
  exact this.2.2 n hn m hm

theorem customCsrs_nodup {c : Config} (h : c.Wf) : c.customCsrs.Nodup := by
  have := h.csrs_distinct
  rw [List.nodup_append] at this
  exact this.1

/-- A read of a custom number (R340). -/
theorem csrRead_custom {s : State} (h : s.cfg.Wf) {n : CsrNum} (hn : n ∈ s.cfg.customCsrs) :
    s.csrRead n = if n = s.cfg.csrConsoleIn then s.takeKey
      else if n = s.cfg.csrBlkSize then (BitVec.ofNat 32 s.cfg.blkDevSize, s)
      else if n = s.cfg.csrBlkErr then (s.blk.err, s)
      else (0, s) := by
  unfold State.csrRead
  iterate 11 rw [if_neg (custom_ne_standard h hn (by simp [standardCsrs]))]

/-- A write of a custom number (R341). -/
theorem csrWrite_custom {s : State} (h : s.cfg.Wf) {n : CsrNum} (hn : n ∈ s.cfg.customCsrs) (v : Word) :
    s.csrWrite n v = if n = s.cfg.csrConsoleOut then .ok (s.offer (v.setWidth 8))
      else if n = s.cfg.csrBlkPtr then .ok { s with blk.ptr := v }
      else if n = s.cfg.csrBlkOff then .ok (s.blkSeek v)
      else if n = s.cfg.csrBlkLen then .ok { s with blk.len := v }
      else if n = s.cfg.csrBlkGo then s.blkTransfer v
      else .ok s := by
  unfold State.csrWrite
  iterate 8 rw [if_neg (custom_ne_standard h hn (by simp [standardCsrs]))]
  rw [if_neg]
  rintro (hh | hh | hh) <;> exact custom_ne_standard h hn (by simp [standardCsrs]) hh

theorem csrRead_go {s : State} (h : s.cfg.Wf) : s.csrRead s.cfg.csrBlkGo = (0, s) := by
  have hd := customCsrs_nodup h
  simp only [Config.customCsrs, List.nodup_cons, List.mem_cons, List.not_mem_nil, not_or, or_false] at hd
  rw [csrRead_custom h (by simp [Config.customCsrs]), if_neg (by tauto), if_neg (by tauto), if_neg (by tauto)]

theorem csrWrite_go {s : State} (h : s.cfg.Wf) (v : Word) : s.csrWrite s.cfg.csrBlkGo v = s.blkTransfer v := by
  have hd := customCsrs_nodup h
  simp only [Config.customCsrs, List.nodup_cons, List.mem_cons, List.not_mem_nil, not_or, or_false] at hd
  rw [csrWrite_custom h (by simp [Config.customCsrs]), if_neg (by tauto), if_neg (by tauto), if_neg (by tauto),
    if_neg (by tauto), if_pos rfl]

end Sys2Proof.Machine
end

