-- ==== Sys2Proof/Laws/Encode.lean ====
section
/-! SUPPORT. The fields of the words the encoder makes (`30_encoding.md` R181 to R183): each field function gives back
the operand its format puts there. -/

namespace Sys2Proof

theorem regOf_regBits (r : Reg) : regOf (regBits r) = r := by simp [regOf, regBits]

/-! ### `encR` -/

@[simp] theorem fOpcode_encR (f7 : BitVec 7) (rs2 rs1 : Reg) (f3 : BitVec 3) (rd : Reg) (op : BitVec 7) :
    fOpcode (encR f7 rs2 rs1 f3 rd op) = op := by
  ext i hi; simp [fOpcode, encR]; grind

@[simp] theorem fRd_encR (f7 : BitVec 7) (rs2 rs1 : Reg) (f3 : BitVec 3) (rd : Reg) (op : BitVec 7) :
    fRd (encR f7 rs2 rs1 f3 rd op) = rd := by
  have h : (encR f7 rs2 rs1 f3 rd op).extractLsb' 7 5 = regBits rd := by
    ext i hi; simp [encR]; grind
  rw [fRd, h, regOf_regBits]

@[simp] theorem fFunct3_encR (f7 : BitVec 7) (rs2 rs1 : Reg) (f3 : BitVec 3) (rd : Reg) (op : BitVec 7) :
    fFunct3 (encR f7 rs2 rs1 f3 rd op) = f3 := by
  ext i hi; simp [fFunct3, encR]; grind

@[simp] theorem fRs1_encR (f7 : BitVec 7) (rs2 rs1 : Reg) (f3 : BitVec 3) (rd : Reg) (op : BitVec 7) :
    fRs1 (encR f7 rs2 rs1 f3 rd op) = rs1 := by
  have h : (encR f7 rs2 rs1 f3 rd op).extractLsb' 15 5 = regBits rs1 := by
    ext i hi; simp [encR]; grind
  rw [fRs1, h, regOf_regBits]

@[simp] theorem fRs2_encR (f7 : BitVec 7) (rs2 rs1 : Reg) (f3 : BitVec 3) (rd : Reg) (op : BitVec 7) :
    fRs2 (encR f7 rs2 rs1 f3 rd op) = rs2 := by
  have h : (encR f7 rs2 rs1 f3 rd op).extractLsb' 20 5 = regBits rs2 := by
    ext i hi; simp [encR]; grind
  rw [fRs2, h, regOf_regBits]

/-! ### `encI` -/

@[simp] theorem fOpcode_encI (imm : BitVec 12) (rs1 : Reg) (f3 : BitVec 3) (rd : Reg) (op : BitVec 7) :
    fOpcode (encI imm rs1 f3 rd op) = op := by
  ext i hi; simp [fOpcode, encI]; grind

@[simp] theorem fRd_encI (imm : BitVec 12) (rs1 : Reg) (f3 : BitVec 3) (rd : Reg) (op : BitVec 7) :
    fRd (encI imm rs1 f3 rd op) = rd := by
  have h : (encI imm rs1 f3 rd op).extractLsb' 7 5 = regBits rd := by
    ext i hi; simp [encI]; grind
  rw [fRd, h, regOf_regBits]

@[simp] theorem fFunct3_encI (imm : BitVec 12) (rs1 : Reg) (f3 : BitVec 3) (rd : Reg) (op : BitVec 7) :
    fFunct3 (encI imm rs1 f3 rd op) = f3 := by
  ext i hi; simp [fFunct3, encI]; grind

@[simp] theorem fRs1_encI (imm : BitVec 12) (rs1 : Reg) (f3 : BitVec 3) (rd : Reg) (op : BitVec 7) :
    fRs1 (encI imm rs1 f3 rd op) = rs1 := by
  have h : (encI imm rs1 f3 rd op).extractLsb' 15 5 = regBits rs1 := by
    ext i hi; simp [encI]; grind
  rw [fRs1, h, regOf_regBits]

@[simp] theorem fImmI_encI (imm : BitVec 12) (rs1 : Reg) (f3 : BitVec 3) (rd : Reg) (op : BitVec 7) :
    fImmI (encI imm rs1 f3 rd op) = imm := by
  ext i hi; simp [fImmI, encI]; grind

@[simp] theorem fCsr_encI (imm : BitVec 12) (rs1 : Reg) (f3 : BitVec 3) (rd : Reg) (op : BitVec 7) :
    fCsr (encI imm rs1 f3 rd op) = imm := by
  ext i hi; simp [fCsr, encI]; grind

/-! ### `encShift` -/

@[simp] theorem fOpcode_encShift (f7 : BitVec 7) (shamt : BitVec 5) (rs1 : Reg) (f3 : BitVec 3) (rd : Reg) (op : BitVec 7) :
    fOpcode (encShift f7 shamt rs1 f3 rd op) = op := by
  ext i hi; simp [fOpcode, encShift]; grind

@[simp] theorem fRd_encShift (f7 : BitVec 7) (shamt : BitVec 5) (rs1 : Reg) (f3 : BitVec 3) (rd : Reg) (op : BitVec 7) :
    fRd (encShift f7 shamt rs1 f3 rd op) = rd := by
  have h : (encShift f7 shamt rs1 f3 rd op).extractLsb' 7 5 = regBits rd := by
    ext i hi; simp [encShift]; grind
  rw [fRd, h, regOf_regBits]

@[simp] theorem fFunct3_encShift (f7 : BitVec 7) (shamt : BitVec 5) (rs1 : Reg) (f3 : BitVec 3) (rd : Reg) (op : BitVec 7) :
    fFunct3 (encShift f7 shamt rs1 f3 rd op) = f3 := by
  ext i hi; simp [fFunct3, encShift]; grind

@[simp] theorem fRs1_encShift (f7 : BitVec 7) (shamt : BitVec 5) (rs1 : Reg) (f3 : BitVec 3) (rd : Reg) (op : BitVec 7) :
    fRs1 (encShift f7 shamt rs1 f3 rd op) = rs1 := by
  have h : (encShift f7 shamt rs1 f3 rd op).extractLsb' 15 5 = regBits rs1 := by
    ext i hi; simp [encShift]; grind
  rw [fRs1, h, regOf_regBits]

@[simp] theorem fShamt_encShift (f7 : BitVec 7) (shamt : BitVec 5) (rs1 : Reg) (f3 : BitVec 3) (rd : Reg) (op : BitVec 7) :
    fShamt (encShift f7 shamt rs1 f3 rd op) = shamt := by
  ext i hi; simp [fShamt, encShift]; grind

/-! ### `encCsrI` -/

@[simp] theorem fOpcode_encCsrI (csr : CsrNum) (uimm : BitVec 5) (f3 : BitVec 3) (rd : Reg) (op : BitVec 7) :
    fOpcode (encCsrI csr uimm f3 rd op) = op := by
  ext i hi; simp [fOpcode, encCsrI]; grind

@[simp] theorem fRd_encCsrI (csr : CsrNum) (uimm : BitVec 5) (f3 : BitVec 3) (rd : Reg) (op : BitVec 7) :
    fRd (encCsrI csr uimm f3 rd op) = rd := by
  have h : (encCsrI csr uimm f3 rd op).extractLsb' 7 5 = regBits rd := by
    ext i hi; simp [encCsrI]; grind
  rw [fRd, h, regOf_regBits]

@[simp] theorem fFunct3_encCsrI (csr : CsrNum) (uimm : BitVec 5) (f3 : BitVec 3) (rd : Reg) (op : BitVec 7) :
    fFunct3 (encCsrI csr uimm f3 rd op) = f3 := by
  ext i hi; simp [fFunct3, encCsrI]; grind

@[simp] theorem fUimm_encCsrI (csr : CsrNum) (uimm : BitVec 5) (f3 : BitVec 3) (rd : Reg) (op : BitVec 7) :
    fUimm (encCsrI csr uimm f3 rd op) = uimm := by
  ext i hi; simp [fUimm, encCsrI]; grind

@[simp] theorem fCsr_encCsrI (csr : CsrNum) (uimm : BitVec 5) (f3 : BitVec 3) (rd : Reg) (op : BitVec 7) :
    fCsr (encCsrI csr uimm f3 rd op) = csr := by
  ext i hi; simp [fCsr, encCsrI]; grind

/-! ### `encS` -/

@[simp] theorem fOpcode_encS (imm : BitVec 12) (rs2 rs1 : Reg) (f3 : BitVec 3) (op : BitVec 7) :
    fOpcode (encS imm rs2 rs1 f3 op) = op := by
  ext i hi; simp [fOpcode, encS]; grind

@[simp] theorem fFunct3_encS (imm : BitVec 12) (rs2 rs1 : Reg) (f3 : BitVec 3) (op : BitVec 7) :
    fFunct3 (encS imm rs2 rs1 f3 op) = f3 := by
  ext i hi; simp [fFunct3, encS]; grind

@[simp] theorem fRs1_encS (imm : BitVec 12) (rs2 rs1 : Reg) (f3 : BitVec 3) (op : BitVec 7) :
    fRs1 (encS imm rs2 rs1 f3 op) = rs1 := by
  have h : (encS imm rs2 rs1 f3 op).extractLsb' 15 5 = regBits rs1 := by
    ext i hi; simp [encS]; grind
  rw [fRs1, h, regOf_regBits]

@[simp] theorem fRs2_encS (imm : BitVec 12) (rs2 rs1 : Reg) (f3 : BitVec 3) (op : BitVec 7) :
    fRs2 (encS imm rs2 rs1 f3 op) = rs2 := by
  have h : (encS imm rs2 rs1 f3 op).extractLsb' 20 5 = regBits rs2 := by
    ext i hi; simp [encS]; grind
  rw [fRs2, h, regOf_regBits]

@[simp] theorem fImmS_encS (imm : BitVec 12) (rs2 rs1 : Reg) (f3 : BitVec 3) (op : BitVec 7) :
    fImmS (encS imm rs2 rs1 f3 op) = imm := by
  have hi : (encS imm rs2 rs1 f3 op).extractLsb' 25 7 = imm.extractLsb' 5 7 := by
    ext i hi; simp [encS]; grind
  have lo : (encS imm rs2 rs1 f3 op).extractLsb' 7 5 = imm.extractLsb' 0 5 := by
    ext i hi; simp [encS]; grind
  rw [fImmS, hi, lo]
  ext i hi; simp; grind

/-! ### `encB` -/

@[simp] theorem fOpcode_encB (off : BitVec 13) (rs2 rs1 : Reg) (f3 : BitVec 3) (op : BitVec 7) :
    fOpcode (encB off rs2 rs1 f3 op) = op := by
  ext i hi; simp [fOpcode, encB]; grind

@[simp] theorem fFunct3_encB (off : BitVec 13) (rs2 rs1 : Reg) (f3 : BitVec 3) (op : BitVec 7) :
    fFunct3 (encB off rs2 rs1 f3 op) = f3 := by
  ext i hi; simp [fFunct3, encB]; grind

@[simp] theorem fRs1_encB (off : BitVec 13) (rs2 rs1 : Reg) (f3 : BitVec 3) (op : BitVec 7) :
    fRs1 (encB off rs2 rs1 f3 op) = rs1 := by
  have h : (encB off rs2 rs1 f3 op).extractLsb' 15 5 = regBits rs1 := by
    ext i hi; simp [encB]; grind
  rw [fRs1, h, regOf_regBits]

@[simp] theorem fRs2_encB (off : BitVec 13) (rs2 rs1 : Reg) (f3 : BitVec 3) (op : BitVec 7) :
    fRs2 (encB off rs2 rs1 f3 op) = rs2 := by
  have h : (encB off rs2 rs1 f3 op).extractLsb' 20 5 = regBits rs2 := by
    ext i hi; simp [encB]; grind
  rw [fRs2, h, regOf_regBits]

/-! ### `encU` -/

@[simp] theorem fOpcode_encU (imm : BitVec 20) (rd : Reg) (op : BitVec 7) :
    fOpcode (encU imm rd op) = op := by
  ext i hi; simp [fOpcode, encU]; grind

@[simp] theorem fRd_encU (imm : BitVec 20) (rd : Reg) (op : BitVec 7) :
    fRd (encU imm rd op) = rd := by
  have h : (encU imm rd op).extractLsb' 7 5 = regBits rd := by
    ext i hi; simp [encU]; grind
  rw [fRd, h, regOf_regBits]

@[simp] theorem fImmU_encU (imm : BitVec 20) (rd : Reg) (op : BitVec 7) :
    fImmU (encU imm rd op) = imm := by
  ext i hi; simp [fImmU, encU]; grind

/-! ### `encJ` -/

@[simp] theorem fOpcode_encJ (off : BitVec 21) (rd : Reg) (op : BitVec 7) :
    fOpcode (encJ off rd op) = op := by
  ext i hi; simp [fOpcode, encJ]; grind

@[simp] theorem fRd_encJ (off : BitVec 21) (rd : Reg) (op : BitVec 7) :
    fRd (encJ off rd op) = rd := by
  have h : (encJ off rd op).extractLsb' 7 5 = regBits rd := by
    ext i hi; simp [encJ]; grind
  rw [fRd, h, regOf_regBits]

/-! ### `encAmo` -/

@[simp] theorem fOpcode_encAmo (f5 : BitVec 5) (aq rl : Bool) (rs2 rs1 : Reg) (rd : Reg) :
    fOpcode (encAmo f5 aq rl rs2 rs1 rd) = 0x2F#7 := by
  ext i hi; simp [fOpcode, encAmo]; grind

@[simp] theorem fRd_encAmo (f5 : BitVec 5) (aq rl : Bool) (rs2 rs1 : Reg) (rd : Reg) :
    fRd (encAmo f5 aq rl rs2 rs1 rd) = rd := by
  have h : (encAmo f5 aq rl rs2 rs1 rd).extractLsb' 7 5 = regBits rd := by
    ext i hi; simp [encAmo]; grind
  rw [fRd, h, regOf_regBits]

@[simp] theorem fRs1_encAmo (f5 : BitVec 5) (aq rl : Bool) (rs2 rs1 : Reg) (rd : Reg) :
    fRs1 (encAmo f5 aq rl rs2 rs1 rd) = rs1 := by
  have h : (encAmo f5 aq rl rs2 rs1 rd).extractLsb' 15 5 = regBits rs1 := by
    ext i hi; simp [encAmo]; grind
  rw [fRs1, h, regOf_regBits]

@[simp] theorem fRs2_encAmo (f5 : BitVec 5) (aq rl : Bool) (rs2 rs1 : Reg) (rd : Reg) :
    fRs2 (encAmo f5 aq rl rs2 rs1 rd) = rs2 := by
  have h : (encAmo f5 aq rl rs2 rs1 rd).extractLsb' 20 5 = regBits rs2 := by
    ext i hi; simp [encAmo]; grind
  rw [fRs2, h, regOf_regBits]

@[simp] theorem fFunct5_encAmo (f5 : BitVec 5) (aq rl : Bool) (rs2 rs1 : Reg) (rd : Reg) :
    fFunct5 (encAmo f5 aq rl rs2 rs1 rd) = f5 := by
  ext i hi; simp [fFunct5, encAmo]; grind

@[simp] theorem fAq_encAmo (f5 : BitVec 5) (aq rl : Bool) (rs2 rs1 : Reg) (rd : Reg) :
    fAq (encAmo f5 aq rl rs2 rs1 rd) = aq := by
  simp only [fAq, encAmo, BitVec.getLsbD_append]; simp

@[simp] theorem fRl_encAmo (f5 : BitVec 5) (aq rl : Bool) (rs2 rs1 : Reg) (rd : Reg) :
    fRl (encAmo f5 aq rl rs2 rs1 rd) = rl := by
  simp only [fRl, encAmo, BitVec.getLsbD_append]; simp

/-! ### `encFence` -/

@[simp] theorem fOpcode_encFence (fm pred succ : BitVec 4) (rs1 rd : Reg) :
    fOpcode (encFence fm pred succ rs1 rd) = 0x0F#7 := by
  ext i hi; simp [fOpcode, encFence]; grind

@[simp] theorem fRd_encFence (fm pred succ : BitVec 4) (rs1 rd : Reg) :
    fRd (encFence fm pred succ rs1 rd) = rd := by
  have h : (encFence fm pred succ rs1 rd).extractLsb' 7 5 = regBits rd := by
    ext i hi; simp [encFence]; grind
  rw [fRd, h, regOf_regBits]

@[simp] theorem fFunct3_encFence (fm pred succ : BitVec 4) (rs1 rd : Reg) :
    fFunct3 (encFence fm pred succ rs1 rd) = 0#3 := by
  ext i hi; simp [fFunct3, encFence]; grind

@[simp] theorem fRs1_encFence (fm pred succ : BitVec 4) (rs1 rd : Reg) :
    fRs1 (encFence fm pred succ rs1 rd) = rs1 := by
  have h : (encFence fm pred succ rs1 rd).extractLsb' 15 5 = regBits rs1 := by
    ext i hi; simp [encFence]; grind
  rw [fRs1, h, regOf_regBits]

/-! ### The funct7 bits that select (R187) -/

@[simp] theorem bit25_encR (f7 : BitVec 7) (rs2 rs1 : Reg) (f3 : BitVec 3) (rd : Reg) (op : BitVec 7) :
    (encR f7 rs2 rs1 f3 rd op)[25] = f7[0] := by
  rw [← BitVec.getLsbD_eq_getElem]; simp only [encR, BitVec.getLsbD_append]; simp

@[simp] theorem bit30_encR (f7 : BitVec 7) (rs2 rs1 : Reg) (f3 : BitVec 3) (rd : Reg) (op : BitVec 7) :
    (encR f7 rs2 rs1 f3 rd op)[30] = f7[5] := by
  rw [← BitVec.getLsbD_eq_getElem]; simp only [encR, BitVec.getLsbD_append]; simp

@[simp] theorem bit30_encShift (f7 : BitVec 7) (shamt : BitVec 5) (rs1 : Reg) (f3 : BitVec 3) (rd : Reg) (op : BitVec 7) :
    (encShift f7 shamt rs1 f3 rd op)[30] = f7[5] := by
  rw [← BitVec.getLsbD_eq_getElem]; simp only [encShift, BitVec.getLsbD_append]; simp

/-! ### The ordering fields of FENCE (`45_system.md` R345) -/

@[simp] theorem fm_encFence (fm pred succ : BitVec 4) (rs1 rd : Reg) :
    (encFence fm pred succ rs1 rd).extractLsb' 28 4 = fm := by
  ext i hi; simp [encFence]; grind

@[simp] theorem pred_encFence (fm pred succ : BitVec 4) (rs1 rd : Reg) :
    (encFence fm pred succ rs1 rd).extractLsb' 24 4 = pred := by
  ext i hi; simp [encFence]; grind

@[simp] theorem succ_encFence (fm pred succ : BitVec 4) (rs1 rd : Reg) :
    (encFence fm pred succ rs1 rd).extractLsb' 20 4 = succ := by
  ext i hi; simp [encFence]; grind

/-! ### Offsets with the built-in zero bit (R183) -/

theorem fImmB_encB (off : BitVec 13) (rs2 rs1 : Reg) (f3 : BitVec 3) (op : BitVec 7) (h : off.getLsbD 0 = false) :
    fImmB (encB off rs2 rs1 f3 op) = off := by
  have h0 : (encB off rs2 rs1 f3 op).extractLsb' 31 1 = off.extractLsb' 12 1 := by
    ext i hi; simp only [BitVec.getElem_extractLsb', encB, BitVec.getLsbD_append]; simp; grind
  have h1 : (encB off rs2 rs1 f3 op).extractLsb' 7 1 = off.extractLsb' 11 1 := by
    ext i hi; simp only [BitVec.getElem_extractLsb', encB, BitVec.getLsbD_append]; simp; grind
  have h2 : (encB off rs2 rs1 f3 op).extractLsb' 25 6 = off.extractLsb' 5 6 := by
    ext i hi; simp only [BitVec.getElem_extractLsb', encB, BitVec.getLsbD_append]; simp; grind
  have h3 : (encB off rs2 rs1 f3 op).extractLsb' 8 4 = off.extractLsb' 1 4 := by
    ext i hi; simp only [BitVec.getElem_extractLsb', encB, BitVec.getLsbD_append]; simp; grind
  rw [fImmB, h0, h1, h2, h3]
  ext i hi; simp at h ⊢; grind

theorem fImmJ_encJ (off : BitVec 21) (rd : Reg) (op : BitVec 7) (h : off.getLsbD 0 = false) :
    fImmJ (encJ off rd op) = off := by
  have h0 : (encJ off rd op).extractLsb' 31 1 = off.extractLsb' 20 1 := by
    ext i hi; simp only [BitVec.getElem_extractLsb', encJ, BitVec.getLsbD_append]; simp; grind
  have h1 : (encJ off rd op).extractLsb' 12 8 = off.extractLsb' 12 8 := by
    ext i hi; simp only [BitVec.getElem_extractLsb', encJ, BitVec.getLsbD_append]; simp; grind
  have h2 : (encJ off rd op).extractLsb' 20 1 = off.extractLsb' 11 1 := by
    ext i hi; simp only [BitVec.getElem_extractLsb', encJ, BitVec.getLsbD_append]; simp; grind
  have h3 : (encJ off rd op).extractLsb' 21 10 = off.extractLsb' 1 10 := by
    ext i hi; simp only [BitVec.getElem_extractLsb', encJ, BitVec.getLsbD_append]; simp; grind
  rw [fImmJ, h0, h1, h2, h3]
  ext i hi; simp at h ⊢; grind

end Sys2Proof
end

