-- ==== Sys2Proof/Laws/Invariant.lean ====
section
/-! SUPPORT. Every operation of the machine keeps the invariant `State.Inv`: one lemma for each operation that the
meanings, the fetch and the start of a call are made of. -/

namespace Sys2Proof.Machine

/-- The invariant looks at the parameters, the hierarchy, the file, the queues and the call alone. -/
theorem State.Inv.of_parts {s t : State} (h : s.Inv) (hc : t.cfg = s.cfg) (hm : MemInv s.cfg t.mem)
    (hf : t.blk.file.wf = true) (hk : t.kb.length ≤ s.cfg.keyboardCap) (ho : t.con.length ≤ s.cfg.consoleCap)
    (hr : t.call.remaining ≤ t.call.count.toNat) (hx : t.call.remaining ≠ 0 → t.call.outcome = none) : t.Inv :=
  ⟨by rw [hc]; exact h.cfg_wf, by rw [hc]; exact hm, hf, by rw [hc]; exact hk, by rw [hc]; exact ho, hr, hx⟩

/-- A state that differs in none of these keeps the invariant. -/
theorem State.Inv.same {s t : State} (h : s.Inv) (hc : t.cfg = s.cfg) (hm : t.mem = s.mem)
    (hb : t.blk.file = s.blk.file) (hk : t.kb = s.kb) (ho : t.con = s.con) (hl : t.call = s.call) : t.Inv :=
  h.of_parts hc (by rw [hm]; exact h.mem_inv) (by rw [hb]; exact h.file_wf) (by rw [hk]; exact h.kb_cap)
    (by rw [ho]; exact h.con_cap) (by rw [hl]; exact h.remaining_le) (by rw [hl]; exact h.running_open)

theorem State.Inv.finish {s : State} (h : s.Inv) (rd : Reg) (v : Word) : (s.finish rd v).Inv :=
  h.same (by simp) (by simp) (by simp) (by simp) (by simp) (by simp)

theorem State.Inv.finishAt {s : State} (h : s.Inv) (rd : Reg) (v npc : Word) : (s.finishAt rd v npc).Inv :=
  h.same (by simp) (by simp) (by simp) (by simp) (by simp) (by simp)

theorem State.Inv.advance {s : State} (h : s.Inv) : s.advance.Inv := h.same rfl rfl rfl rfl rfl rfl

theorem State.Inv.endCall {s : State} (h : s.Inv) (v : Word) : (s.endCall v).Inv :=
  h.of_parts rfl h.mem_inv h.file_wf h.kb_cap h.con_cap (Nat.zero_le _) fun hx => absurd rfl hx

theorem State.Inv.endCallCounted {s : State} (h : s.Inv) : s.endCallCounted.Inv :=
  (h.endCall 0).same rfl rfl rfl rfl rfl rfl

theorem State.Inv.takeTrap {s : State} (h : s.Inv) (cause tval epc : Word) : (s.takeTrap cause tval epc).Inv :=
  h.same rfl rfl rfl rfl rfl rfl

theorem State.Inv.raiseTrap {s : State} (h : s.Inv) (cause tval : Word) : (s.raiseTrap cause tval).Inv := by
  unfold State.raiseTrap
  split
  · exact h.endCall 3
  · exact h.advance
  · exact h.endCallCounted.takeTrap _ _ _

/-- Replacing the hierarchy by one with its invariants. -/
theorem State.Inv.withMem {s t : State} (h : s.Inv) (ht : t = { s with mem := t.mem }) (hm : MemInv s.cfg t.mem) :
    t.Inv := by
  rw [ht]
  exact h.of_parts rfl hm h.file_wf h.kb_cap h.con_cap h.remaining_le h.running_open

theorem State.Inv.memRead {s t : State} {a : Word} {n : Nat} {v : Word} (h : s.Inv) (hr : s.memRead a n = .ok (v, t)) :
    t.Inv := by
  obtain ⟨-, ht, hA⟩ := State.memRead_spec h.mem_inv h.cfg_wf.blocks_pos hr
  exact h.withMem ht hA.inv

theorem State.Inv.memWrite {s t : State} {a : Word} {n : Nat} {v : Word} (h : s.Inv) (hr : s.memWrite a n v = .ok t) :
    t.Inv := by
  obtain ⟨ht, hA⟩ := State.memWrite_spec h.mem_inv h.cfg_wf.blocks_pos hr
  exact h.withMem ht hA.inv

theorem State.Inv.fileIo {s : State} (h : s.Inv) : s.fileIo.2.Inv :=
  h.withMem rfl (h.mem_inv.with_io _)

theorem State.Inv.offer {s : State} (h : s.Inv) (b : Byte) : (s.offer b).Inv := by
  rw [State.offer_spec]
  refine h.of_parts rfl h.mem_inv h.file_wf h.kb_cap ?_ h.remaining_le h.running_open
  have hcap := h.con_cap
  have hpos := h.cfg_wf.console_pos
  show (if s.con.length < s.cfg.consoleCap then s.con ++ [b]
      else match s.cfg.consoleFull with | .drop => s.con | .wait => s.con.tail ++ [b]).length ≤ _
  split
  · simpa using by omega
  · split
    · exact hcap
    · simp only [List.length_append, List.length_tail, List.length_singleton]; omega

theorem State.Inv.dropKey {s : State} (h : s.Inv) : ({ s with kb := s.kb.tail } : State).Inv :=
  h.of_parts rfl h.mem_inv h.file_wf (by have := h.kb_cap; simp; omega) h.con_cap h.remaining_le h.running_open

theorem State.Inv.mmioRead {s : State} (h : s.Inv) (a : Word) : (s.mmioRead a).2.Inv := by
  rw [State.mmioRead_spec]
  split
  · exact h.dropKey
  · exact h

theorem State.Inv.mmioStore {s : State} (h : s.Inv) (a v : Word) : (s.mmioStore a v).Inv := by
  unfold State.mmioStore
  split
  · exact (h.offer _).advance
  split
  · exact h.same rfl rfl rfl rfl rfl rfl
  split
  · exact h.same rfl rfl rfl rfl rfl rfl
  split
  · exact h.advance.endCall v
  · exact h.advance

theorem State.Inv.csrRead {s : State} (h : s.Inv) (n : CsrNum) : (s.csrRead n).2.Inv := by
  rcases State.csrRead_spec s n with he | he <;> rw [he]
  · exact h
  · exact h.dropKey

theorem State.Inv.blkSeek {s : State} (h : s.Inv) (v : Word) : (s.blkSeek v).Inv :=
  h.fileIo.same rfl rfl rfl rfl rfl rfl

/-! ### The transfer loops (`60_exceptions.md` R454) -/

theorem State.Inv.storeWords {bytes : List Byte} {s t : State} {p : Word} (h : s.Inv)
    (hr : s.storeWords p bytes = .ok t) : t.Inv :=
  State.storeWords_induct (P := State.Inv) (fun h hu => h.memWrite hu) bytes h hr

theorem State.Inv.loadWords {k : Nat} {s t : State} {p : Word} {bytes : List Byte} (h : s.Inv)
    (hr : s.loadWords p k = .ok (bytes, t)) : t.Inv := by
  induction k generalizing s p bytes t with
  | zero => cases hr; exact h
  | succ k ih =>
    unfold State.loadWords at hr
    split at hr
    · cases hr
    next v s1 h1 =>
    split at hr
    · cases hr
    next bs s2 h2 =>
    cases hr
    exact ih (h.memRead h1) h2

theorem State.Inv.sectorRead {s t : State} {p : Word} {n : Nat} (h : s.Inv) (hr : s.sectorRead p n = .ok (some t)) :
    t.Inv := by
  unfold State.sectorRead at hr
  dsimp only at hr
  split at hr
  · cases hr
  · split at hr
    · cases hr
    next s1 h1 =>
    cases hr
    exact State.Inv.storeWords h.fileIo h1

theorem State.Inv.sectorWrite {s t : State} {p : Word} {n : Nat} {b : Bool} (h : s.Inv)
    (hr : s.sectorWrite p n = .ok (b, t)) : t.Inv := by
  unfold State.sectorWrite at hr
  split at hr
  · cases hr
  next bytes s1 h1 =>
  have hi := State.Inv.fileIo (State.Inv.loadWords h h1)
  dsimp only at hr
  have hf : ∀ bytes : List Byte, (s1.fileIo.2.blk.file.putN s1.fileIo.2.blk.pos.toNat bytes).wf = true :=
    fun _ => Memory.wf_putN hi.file_wf _ _
  split at hr <;> cases hr <;>
    exact hi.of_parts rfl hi.mem_inv (hf _) hi.kb_cap hi.con_cap hi.remaining_le hi.running_open

theorem State.Inv.advancePos {s : State} (h : s.Inv) (n : Nat) : (s.advancePos n).Inv :=
  h.same rfl rfl rfl rfl rfl rfl

theorem State.Inv.readLoop {fuel : Nat} {s t : State} {p : Word} {rem : Nat} {b : Bool} (h : s.Inv)
    (hr : s.readLoop p rem fuel = .ok (b, t)) : t.Inv := by
  induction fuel generalizing s p rem with
  | zero => cases hr; exact h
  | succ fuel ih =>
    unfold State.readLoop at hr
    split at hr
    · cases hr; exact h
    · dsimp only at hr
      split at hr
      · cases hr
      · cases hr; exact h.fileIo
      · next s1 h1 => exact ih ((State.Inv.sectorRead h h1).advancePos _) hr

theorem State.Inv.writeLoop {fuel : Nat} {s t : State} {p : Word} {rem : Nat} {b : Bool} (h : s.Inv)
    (hr : s.writeLoop p rem fuel = .ok (b, t)) : t.Inv := by
  induction fuel generalizing s p rem with
  | zero => cases hr; exact h
  | succ fuel ih =>
    unfold State.writeLoop at hr
    split at hr
    · cases hr; exact h
    · dsimp only at hr
      split at hr
      · cases hr
      · next s1 h1 => cases hr; exact State.Inv.sectorWrite h h1
      · next s1 h1 => exact ih ((State.Inv.sectorWrite h h1).advancePos _) hr

theorem State.Inv.blkTransfer {s t : State} {d : Word} (h : s.Inv) (hr : s.blkTransfer d = .ok t) : t.Inv := by
  unfold State.blkTransfer at hr
  split at hr
  · cases hr
  split at hr
  · cases hr
  next b s1 h1 =>
  cases hr
  have hi : s1.Inv := by
    split at h1
    · exact State.Inv.readLoop h h1
    · exact State.Inv.writeLoop h h1
  exact hi.same rfl rfl rfl rfl rfl rfl

theorem State.Inv.csrWrite {s t : State} {n : CsrNum} {v : Word} (h : s.Inv) (hr : s.csrWrite n v = .ok t) : t.Inv := by
  cases State.csrWrite_spec hr with
  | csr c he => subst he; exact h.same rfl rfl rfl rfl rfl rfl
  | offered he => subst he; exact h.offer _
  | ptr he => subst he; exact h.same rfl rfl rfl rfl rfl rfl
  | len he => subst he; exact h.same rfl rfl rfl rfl rfl rfl
  | seek he => subst he; exact h.blkSeek v
  | transfer he => exact State.Inv.blkTransfer h he

/-! ### Shapes of instructions -/

/-- A result that, if it is a next state, is one with the invariant. -/
def KeepsInv (r : Result) : Prop := ∀ t, r = .next t → t.Inv

theorem KeepsInv.next {t : State} (h : t.Inv) : KeepsInv (.next t) := fun u hu => by cases hu; exact h

theorem KeepsInv.fault (f : Fault) : KeepsInv (.fault f) := fun u hu => by cases hu

theorem KeepsInv.refused (r : Refusal) : KeepsInv (.refused r) := fun u hu => by cases hu

theorem keepsInv_csrOp {s : State} (h : s.Inv) (rd : Reg) (n : CsrNum) (f : Word → Word) : KeepsInv (s.csrOp rd n f) := by
  unfold State.csrOp
  dsimp only
  split
  · next e _ => cases e <;> intro t ht <;> cases ht
  · next t ht => exact .next ((State.Inv.csrWrite (h.csrRead n) ht).finish _ _)

theorem keepsInv_load {s : State} (h : s.Inv) (k : LoadWidth) (rd rs1 : Reg) (imm : BitVec 12) :
    KeepsInv (s.load k rd rs1 imm) := by
  unfold State.load
  dsimp only
  split
  · exact .next (h.raiseTrap _ _)
  · exact .next ((h.mmioRead _).finish _ _)
  · split
    · exact .fault _
    · next v t ht => exact .next ((h.memRead ht).finish _ _)

theorem keepsInv_store {s : State} (h : s.Inv) (k : StoreWidth) (rs1 rs2 : Reg) (imm : BitVec 12) :
    KeepsInv (s.store k rs1 rs2 imm) := by
  unfold State.store
  dsimp only
  split
  · exact .next (h.raiseTrap _ _)
  · exact .next (h.mmioStore _ _)
  · split
    · exact .fault _
    · next t ht => exact .next (h.memWrite ht).advance

theorem keepsInv_atomic {s : State} (h : s.Inv) {rs1 : Reg} {k : Word → State → Result}
    (hk : ∀ old t, t.Inv → KeepsInv (k old t)) : KeepsInv (s.atomic rs1 k) := by
  unfold State.atomic
  dsimp only
  split
  · split
    · exact .fault _
    · next old t ht => exact hk old t (h.memRead ht)
  · exact .next (h.raiseTrap _ _)

theorem keepsInv_amo {s : State} (h : s.Inv) (rd rs1 rs2 : Reg) (f : Word → Word → Word) :
    KeepsInv (s.amo rd rs1 rs2 f) := by
  refine keepsInv_atomic h fun old t ht => ?_
  split
  · exact .fault _
  · next u hu => exact .next ((ht.memWrite hu).finish _ _)

theorem keepsInv_branch {s : State} (h : s.Inv) (rs1 rs2 : Reg) (off : BitVec 13) (cond : Word → Word → Bool) :
    KeepsInv (s.branch rs1 rs2 off cond) := by
  unfold State.branch
  split
  · exact .next (h.same rfl rfl rfl rfl rfl rfl)
  · exact .next h.advance

theorem keepsInv_lr {s : State} (h : s.Inv) (aq rl : Bool) (rd rs1 : Reg) : KeepsInv (execLrW aq rl rd rs1 s) :=
  keepsInv_atomic h fun _ t ht => .next <| ht.same (s := t) (by simp) (by simp) (by simp) (by simp) (by simp) (by simp)

theorem keepsInv_sc {s : State} (h : s.Inv) (aq rl : Bool) (rd rs1 rs2 : Reg) :
    KeepsInv (execScW aq rl rd rs1 rs2 s) := by
  refine keepsInv_atomic h fun _ t ht => ?_
  split
  · split
    · exact .fault _
    · next u hu => exact .next ((ht.memWrite hu).finish _ _)
  · exact .next (ht.finish _ _)

theorem keepsInv_wfi {s : State} (h : s.Inv) : KeepsInv (execWfi s) :=
  .next <| h.of_parts rfl h.mem_inv h.file_wf h.kb_cap h.con_cap (Nat.zero_le _) fun hx => absurd rfl hx

/-- No instruction breaks the invariant. -/
theorem keepsInv_exec {s : State} (h : s.Inv) (i : Instr) : KeepsInv (exec i s) := by
  have hs := exec_shape i s
  generalize exec i s = r at hs ⊢
  cases hs with
  | finish rd v => exact .next (h.finish rd v)
  | jump rd v npc => exact .next (h.finishAt rd v npc)
  | goto npc => exact .next (h.same rfl rfl rfl rfl rfl rfl)
  | load k rd rs1 imm => exact keepsInv_load h k rd rs1 imm
  | store k rs1 rs2 imm _ => exact keepsInv_store h k rs1 rs2 imm
  | raise cause => exact .next (h.raiseTrap cause _)
  | mret _ => exact .next (h.same rfl rfl rfl rfl rfl rfl)
  | wfi _ => exact keepsInv_wfi h
  | csrOp rd n f => exact keepsInv_csrOp h rd n f
  | lr aq rl rd rs1 _ => exact keepsInv_lr h aq rl rd rs1
  | sc aq rl rd rs1 rs2 => exact keepsInv_sc h aq rl rd rs1 rs2
  | amo rd rs1 rs2 f => exact keepsInv_amo h rd rs1 rs2 f

end Sys2Proof.Machine
end

