-- ==== Sys2Proof/Tests/Slice0.lean ====
section
/-! SUPPORT. Tests of single steps, whose words, states and results are those of the spec (the examples of its rules and
the vectors of `95_test_vectors.md`, V<n>, E<n>), and for every statement a state and operands that meet its
hypotheses. -/

namespace Sys2Proof.Machine.Tests

/-! ### Helpers -/

/-- The outcome is a next state with the property. -/
def yields (r : Result) (p : State → Bool) : Bool :=
  match r with
  | .next t => p t
  | .fault _ => false
  | .refused _ => false

/-- The outcome is this fault. -/
def faults (r : Result) (f : Fault) : Bool :=
  match r with
  | .next _ => false
  | .fault g => g == f
  | .refused _ => false

/-- The outcome is this refusal. -/
def refuses (r : Result) (f : Refusal) : Bool :=
  match r with
  | .next _ => false
  | .fault _ => false
  | .refused g => g == f

/-- The word decodes to the instruction. -/
def reads (w : Word) (i : Instr) : Bool :=
  match decodeWord w with
  | .ok j => j == i
  | .error _ => false

/-- The word is no instruction. -/
def rejects (w : Word) (r : Reject) : Bool :=
  match decodeWord w with
  | .ok _ => false
  | .error q => q == r

/-- Bytes put into RAM. -/
def load (s : State) (bytes : List (Nat × List Byte)) : State :=
  bytes.foldl (fun s p => { s with mem := Mem.pokeN s.cfg s.mem p.1 p.2 }) s

/-- The CSRs of the vectors: mtvec = 0x80000800. -/
def vector : CsrFile := { State.reset.csr with mtvec := 0x80000800 }

/-- The start state of the vectors: pc = 0x80000100, these registers, these bytes of RAM. -/
def start (regs : List (Reg × Word)) (bytes : List (Nat × List Byte)) : State :=
  let s := load { State.reset with pc := 0x80000100, csr := vector } bytes
  regs.foldl (fun s p => s.writeReg p.1 p.2) s

/-- `Step(1, 0)` with this word at pc. -/
def stepOn (s : State) (w : Word) : Result := step (load s [((ofs s.cfg s.pc).toNat, leBytes 4 w)])

/-- The trap of the vectors: taken at pc = 0x80000100, to mtvec, in machine mode (R410). -/
def trapped (t : State) (cause tval : Word) : Bool :=
  t.csr.mcause == cause && t.csr.mepc == 0x80000100 && t.csr.mtval == tval && t.pc == 0x80000800 && t.ef.priv == 3

/-! ### Terms that are ill-formed: an odd jump or branch offset (R183) -/

theorem test_odd_jal : (Instr.jal 1 1).WellFormed = false := by decide
theorem test_odd_beq : (Instr.beq 1 2 0x1FFF).WellFormed = false := by decide
theorem test_odd_bne : (Instr.bne 1 2 1).WellFormed = false := by decide
theorem test_odd_blt : (Instr.blt 1 2 1).WellFormed = false := by decide
theorem test_odd_bge : (Instr.bge 1 2 1).WellFormed = false := by decide
theorem test_odd_bltu : (Instr.bltu 1 2 1).WellFormed = false := by decide
theorem test_odd_bgeu : (Instr.bgeu 1 2 1).WellFormed = false := by decide

/-! ### Decoding: every constructor, its word written from the fields of its encoding -/

/-- `40_integer.md` R200, R201. -/
theorem test_decode_upper :
    reads (0b00010010001101000101#20 ++ 0b01010#5 ++ 0b0110111#7) (.lui 10 0x12345) ∧
    reads (0b00000000000000000001#20 ++ 0b01010#5 ++ 0b0010111#7) (.auipc 10 1) := by
  decide

/-- `41_control.md` R240, R241: J places imm[20|10:1|11|19:12]; offset 16, then -2. -/
theorem test_decode_jumps :
    reads (0b0#1 ++ 0b0000001000#10 ++ 0b0#1 ++ 0b00000000#8 ++ 0b00001#5 ++ 0b1101111#7) (.jal 1 16) ∧
    reads (0b1#1 ++ 0b1111111111#10 ++ 0b1#1 ++ 0b11111111#8 ++ 0b00001#5 ++ 0b1101111#7) (.jal 1 (-2)) ∧
    reads (0b0#1 ++ 0b0000000000#10 ++ 0b1#1 ++ 0b00000001#8 ++ 0b00001#5 ++ 0b1101111#7) (.jal 1 0x1800) ∧
    reads (0b000000001000#12 ++ 0b01011#5 ++ 0b000#3 ++ 0b00001#5 ++ 0b1100111#7) (.jalr 1 11 8) := by
  decide

/-- `41_control.md` R246 to R251: B places imm[12|10:5] and imm[4:1|11]. -/
theorem test_decode_branches :
    reads (0b1#1 ++ 0b111111#6 ++ 0b01011#5 ++ 0b01010#5 ++ 0b000#3 ++ 0b1100#4 ++ 0b1#1 ++ 0b1100011#7) (.beq 10 11 (-8)) ∧
    reads (0b0#1 ++ 0b000000#6 ++ 0b01011#5 ++ 0b01010#5 ++ 0b001#3 ++ 0b0100#4 ++ 0b0#1 ++ 0b1100011#7) (.bne 10 11 8) ∧
    reads (0b0#1 ++ 0b000000#6 ++ 0b01011#5 ++ 0b01010#5 ++ 0b100#3 ++ 0b0000#4 ++ 0b1#1 ++ 0b1100011#7) (.blt 10 11 0x800) ∧
    reads (0b1#1 ++ 0b000000#6 ++ 0b01011#5 ++ 0b01010#5 ++ 0b101#3 ++ 0b0000#4 ++ 0b0#1 ++ 0b1100011#7) (.bge 10 11 (-4096)) ∧
    reads (0b0#1 ++ 0b100000#6 ++ 0b01011#5 ++ 0b01010#5 ++ 0b110#3 ++ 0b0000#4 ++ 0b0#1 ++ 0b1100011#7) (.bltu 10 11 0x400) ∧
    reads (0b0#1 ++ 0b111111#6 ++ 0b01011#5 ++ 0b01010#5 ++ 0b111#3 ++ 0b1111#4 ++ 0b1#1 ++ 0b1100011#7) (.bgeu 10 11 4094) := by
  decide

/-- `42_loadstore.md` R262 to R266. -/
theorem test_decode_loads :
    reads (0b111111111100#12 ++ 0b01011#5 ++ 0b000#3 ++ 0b01010#5 ++ 0b0000011#7) (.lb 10 11 (-4)) ∧
    reads (0b111111111100#12 ++ 0b01011#5 ++ 0b001#3 ++ 0b01010#5 ++ 0b0000011#7) (.lh 10 11 (-4)) ∧
    reads (0b111111111100#12 ++ 0b01011#5 ++ 0b010#3 ++ 0b01010#5 ++ 0b0000011#7) (.lw 10 11 (-4)) ∧
    reads (0b111111111100#12 ++ 0b01011#5 ++ 0b100#3 ++ 0b01010#5 ++ 0b0000011#7) (.lbu 10 11 (-4)) ∧
    reads (0b111111111100#12 ++ 0b01011#5 ++ 0b101#3 ++ 0b01010#5 ++ 0b0000011#7) (.lhu 10 11 (-4)) := by
  decide

/-- `42_loadstore.md` R268 to R270: S places imm[11:5] and imm[4:0]; offset 0x7E1. -/
theorem test_decode_stores :
    reads (0b0111111#7 ++ 0b01100#5 ++ 0b01011#5 ++ 0b000#3 ++ 0b00001#5 ++ 0b0100011#7) (.sb 11 12 0x7E1) ∧
    reads (0b0111111#7 ++ 0b01100#5 ++ 0b01011#5 ++ 0b001#3 ++ 0b00001#5 ++ 0b0100011#7) (.sh 11 12 0x7E1) ∧
    reads (0b0111111#7 ++ 0b01100#5 ++ 0b01011#5 ++ 0b010#3 ++ 0b00001#5 ++ 0b0100011#7) (.sw 11 12 0x7E1) := by
  decide

/-- `40_integer.md` R203 to R208. -/
theorem test_decode_immediates :
    reads (0b111111111111#12 ++ 0b01011#5 ++ 0b000#3 ++ 0b01010#5 ++ 0b0010011#7) (.addi 10 11 (-1)) ∧
    reads (0b111111111111#12 ++ 0b01011#5 ++ 0b010#3 ++ 0b01010#5 ++ 0b0010011#7) (.slti 10 11 (-1)) ∧
    reads (0b111111111111#12 ++ 0b01011#5 ++ 0b011#3 ++ 0b01010#5 ++ 0b0010011#7) (.sltiu 10 11 (-1)) ∧
    reads (0b111111111111#12 ++ 0b01011#5 ++ 0b100#3 ++ 0b01010#5 ++ 0b0010011#7) (.xori 10 11 (-1)) ∧
    reads (0b111111111111#12 ++ 0b01011#5 ++ 0b110#3 ++ 0b01010#5 ++ 0b0010011#7) (.ori 10 11 (-1)) ∧
    reads (0b111111111111#12 ++ 0b01011#5 ++ 0b111#3 ++ 0b01010#5 ++ 0b0010011#7) (.andi 10 11 (-1)) := by
  decide

/-- `40_integer.md` R209 to R211. -/
theorem test_decode_shifts :
    reads (0b0000000#7 ++ 0b00100#5 ++ 0b01011#5 ++ 0b001#3 ++ 0b01010#5 ++ 0b0010011#7) (.slli 10 11 4) ∧
    reads (0b0000000#7 ++ 0b00100#5 ++ 0b01011#5 ++ 0b101#3 ++ 0b01010#5 ++ 0b0010011#7) (.srli 10 11 4) ∧
    reads (0b0100000#7 ++ 0b00100#5 ++ 0b01011#5 ++ 0b101#3 ++ 0b01010#5 ++ 0b0010011#7) (.srai 10 11 4) := by
  decide

/-- `40_integer.md` R213 to R222. -/
theorem test_decode_registers :
    reads (0b0000000#7 ++ 0b01100#5 ++ 0b01011#5 ++ 0b000#3 ++ 0b01010#5 ++ 0b0110011#7) (.add 10 11 12) ∧
    reads (0b0100000#7 ++ 0b01100#5 ++ 0b01011#5 ++ 0b000#3 ++ 0b01010#5 ++ 0b0110011#7) (.sub 10 11 12) ∧
    reads (0b0000000#7 ++ 0b01100#5 ++ 0b01011#5 ++ 0b001#3 ++ 0b01010#5 ++ 0b0110011#7) (.sll 10 11 12) ∧
    reads (0b0000000#7 ++ 0b01100#5 ++ 0b01011#5 ++ 0b010#3 ++ 0b01010#5 ++ 0b0110011#7) (.slt 10 11 12) ∧
    reads (0b0000000#7 ++ 0b01100#5 ++ 0b01011#5 ++ 0b011#3 ++ 0b01010#5 ++ 0b0110011#7) (.sltu 10 11 12) ∧
    reads (0b0000000#7 ++ 0b01100#5 ++ 0b01011#5 ++ 0b100#3 ++ 0b01010#5 ++ 0b0110011#7) (.xor 10 11 12) ∧
    reads (0b0000000#7 ++ 0b01100#5 ++ 0b01011#5 ++ 0b101#3 ++ 0b01010#5 ++ 0b0110011#7) (.srl 10 11 12) ∧
    reads (0b0100000#7 ++ 0b01100#5 ++ 0b01011#5 ++ 0b101#3 ++ 0b01010#5 ++ 0b0110011#7) (.sra 10 11 12) ∧
    reads (0b0000000#7 ++ 0b01100#5 ++ 0b01011#5 ++ 0b110#3 ++ 0b01010#5 ++ 0b0110011#7) (.or 10 11 12) ∧
    reads (0b0000000#7 ++ 0b01100#5 ++ 0b01011#5 ++ 0b111#3 ++ 0b01010#5 ++ 0b0110011#7) (.and 10 11 12) := by
  decide

/-- `43_muldiv.md` R291 to R298. -/
theorem test_decode_muldiv :
    reads (0b0000001#7 ++ 0b01100#5 ++ 0b01011#5 ++ 0b000#3 ++ 0b01010#5 ++ 0b0110011#7) (.mul 10 11 12) ∧
    reads (0b0000001#7 ++ 0b01100#5 ++ 0b01011#5 ++ 0b001#3 ++ 0b01010#5 ++ 0b0110011#7) (.mulh 10 11 12) ∧
    reads (0b0000001#7 ++ 0b01100#5 ++ 0b01011#5 ++ 0b010#3 ++ 0b01010#5 ++ 0b0110011#7) (.mulhsu 10 11 12) ∧
    reads (0b0000001#7 ++ 0b01100#5 ++ 0b01011#5 ++ 0b011#3 ++ 0b01010#5 ++ 0b0110011#7) (.mulhu 10 11 12) ∧
    reads (0b0000001#7 ++ 0b01100#5 ++ 0b01011#5 ++ 0b100#3 ++ 0b01010#5 ++ 0b0110011#7) (.div 10 11 12) ∧
    reads (0b0000001#7 ++ 0b01100#5 ++ 0b01011#5 ++ 0b101#3 ++ 0b01010#5 ++ 0b0110011#7) (.divu 10 11 12) ∧
    reads (0b0000001#7 ++ 0b01100#5 ++ 0b01011#5 ++ 0b110#3 ++ 0b01010#5 ++ 0b0110011#7) (.rem 10 11 12) ∧
    reads (0b0000001#7 ++ 0b01100#5 ++ 0b01011#5 ++ 0b111#3 ++ 0b01010#5 ++ 0b0110011#7) (.remu 10 11 12) := by
  decide

/-- `44_atomic.md` R311 to R326: aq is ir[26], rl is ir[25]. -/
theorem test_decode_atomics :
    reads (0b00010#5 ++ 0b1#1 ++ 0b0#1 ++ 0b00000#5 ++ 0b01011#5 ++ 0b010#3 ++ 0b01010#5 ++ 0b0101111#7) (.lrW true false 10 11) ∧
    reads (0b00011#5 ++ 0b0#1 ++ 0b1#1 ++ 0b01100#5 ++ 0b01011#5 ++ 0b010#3 ++ 0b01010#5 ++ 0b0101111#7) (.scW false true 10 11 12) ∧
    reads (0b00001#5 ++ 0b0#1 ++ 0b1#1 ++ 0b01100#5 ++ 0b01011#5 ++ 0b010#3 ++ 0b01010#5 ++ 0b0101111#7) (.amoswapW false true 10 11 12) ∧
    reads (0b00000#5 ++ 0b0#1 ++ 0b1#1 ++ 0b01100#5 ++ 0b01011#5 ++ 0b010#3 ++ 0b01010#5 ++ 0b0101111#7) (.amoaddW false true 10 11 12) ∧
    reads (0b00100#5 ++ 0b0#1 ++ 0b1#1 ++ 0b01100#5 ++ 0b01011#5 ++ 0b010#3 ++ 0b01010#5 ++ 0b0101111#7) (.amoxorW false true 10 11 12) ∧
    reads (0b01100#5 ++ 0b0#1 ++ 0b1#1 ++ 0b01100#5 ++ 0b01011#5 ++ 0b010#3 ++ 0b01010#5 ++ 0b0101111#7) (.amoandW false true 10 11 12) ∧
    reads (0b01000#5 ++ 0b0#1 ++ 0b1#1 ++ 0b01100#5 ++ 0b01011#5 ++ 0b010#3 ++ 0b01010#5 ++ 0b0101111#7) (.amoorW false true 10 11 12) ∧
    reads (0b10000#5 ++ 0b0#1 ++ 0b1#1 ++ 0b01100#5 ++ 0b01011#5 ++ 0b010#3 ++ 0b01010#5 ++ 0b0101111#7) (.amominW false true 10 11 12) ∧
    reads (0b10100#5 ++ 0b0#1 ++ 0b1#1 ++ 0b01100#5 ++ 0b01011#5 ++ 0b010#3 ++ 0b01010#5 ++ 0b0101111#7) (.amomaxW false true 10 11 12) ∧
    reads (0b11000#5 ++ 0b0#1 ++ 0b1#1 ++ 0b01100#5 ++ 0b01011#5 ++ 0b010#3 ++ 0b01010#5 ++ 0b0101111#7) (.amominuW false true 10 11 12) ∧
    reads (0b11100#5 ++ 0b0#1 ++ 0b1#1 ++ 0b01100#5 ++ 0b01011#5 ++ 0b010#3 ++ 0b01010#5 ++ 0b0101111#7) (.amomaxuW false true 10 11 12) := by
  decide

/-- `45_system.md` R345, R346. -/
theorem test_decode_fences :
    reads (0b0001#4 ++ 0b0010#4 ++ 0b0100#4 ++ 0b00000#5 ++ 0b000#3 ++ 0b00000#5 ++ 0b0001111#7) (.fence 1 2 4 0 0) ∧
    reads (0b000000000000#12 ++ 0b00000#5 ++ 0b001#3 ++ 0b00000#5 ++ 0b0001111#7) (.fenceI 0 0 0) := by
  decide

/-- `45_system.md` R351 to R357; the third MRET word is SRET (R356). -/
theorem test_decode_privileged :
    reads (0b000000000000#12 ++ 0b00000#5 ++ 0b000#3 ++ 0b00000#5 ++ 0b1110011#7) (.ecall) ∧
    reads (0b000000000001#12 ++ 0b00000#5 ++ 0b000#3 ++ 0b00000#5 ++ 0b1110011#7) (.ebreak) ∧
    reads (0b001100000010#12 ++ 0b00000#5 ++ 0b000#3 ++ 0b00000#5 ++ 0b1110011#7) (.mret) ∧
    reads (0b000100000010#12 ++ 0b00000#5 ++ 0b000#3 ++ 0b00000#5 ++ 0b1110011#7) (.mret) ∧
    reads (0b000100000101#12 ++ 0b00000#5 ++ 0b000#3 ++ 0b00000#5 ++ 0b1110011#7) (.wfi) := by
  decide

/-- `45_system.md` R361 to R366. -/
theorem test_decode_csrs :
    reads (0b001101000000#12 ++ 0b01011#5 ++ 0b001#3 ++ 0b01010#5 ++ 0b1110011#7) (.csrrw 10 11 0x340) ∧
    reads (0b001101000000#12 ++ 0b01011#5 ++ 0b010#3 ++ 0b01010#5 ++ 0b1110011#7) (.csrrs 10 11 0x340) ∧
    reads (0b001101000000#12 ++ 0b01011#5 ++ 0b011#3 ++ 0b01010#5 ++ 0b1110011#7) (.csrrc 10 11 0x340) ∧
    reads (0b001101000000#12 ++ 0b01011#5 ++ 0b101#3 ++ 0b01010#5 ++ 0b1110011#7) (.csrrwi 10 11 0x340) ∧
    reads (0b001101000000#12 ++ 0b01011#5 ++ 0b110#3 ++ 0b01010#5 ++ 0b1110011#7) (.csrrsi 10 11 0x340) ∧
    reads (0b001101000000#12 ++ 0b01011#5 ++ 0b111#3 ++ 0b01010#5 ++ 0b1110011#7) (.csrrci 10 11 0x340) := by
  decide

/-! ### Words that are no instruction, and stops -/

/-- R188: the seven kinds, with the words of V41.13, V42.7, V42.24, V44.12, V45.17, V45.18, V45.20 and V45.21. -/
theorem test_rejects :
    rejects 0x00B52463 (.branchFunct3 2) ∧ rejects 0x0005B503 (.loadWidth 3 10 11 0) ∧
    rejects 0x00C5B023 (.storeWidth 3 11 0) ∧ rejects 0x28C5A52F (.amoFunct5 5 11) ∧
    rejects 0x12000073 (.systemFunct12 0x120) ∧ rejects 0x00004073 .systemFunct3 ∧
    rejects 0x00000000 (.majorOpcode 0) ∧ rejects 0x0000000B (.majorOpcode 0x0B) := by decide

/-- R180, R113: fewer than 4 bytes are no instruction; 4 bytes are, the first the least significant. -/
theorem test_bytes :
    decodeBytes [0x37, 0x55, 0x34] = .error .truncated ∧
    decodeBytes [0x37, 0x55, 0x34, 0x12, 0xFF] = .ok (.lui 10 0x12345, [0xFF]) := ⟨rfl, rfl⟩

/-- V42.3. -/
theorem test_line_cross : faults (stepOn (start [(11, 0x80001000)] []) 0x03E5A503) .lineCross := by decide

/-- V42.17. -/
theorem test_mmio_width : refuses (stepOn (start [(11, 0x10000000)] []) 0x0005B503) .mmioLoadWidth := by decide

/-- So it is with MMIO_LOAD_EXTEND = false (R271, D10). -/
theorem test_mmio_width_whole :
    refuses (stepOn { start [(11, 0x10000000)] [] with cfg.mmioLoadExtend := false } 0x0005B503) .mmioLoadWidth := by
  decide

/-- V42.7. -/
theorem test_reserved_ram : yields (stepOn (start [(11, 0x80001000)] []) 0x0005B503)
    (fun t => trapped t 2 0x80000100) := by decide

/-- V42.8. -/
theorem test_reserved_unpopulated : yields (stepOn (start [(11, 0)] []) 0x0005B503) (fun t => trapped t 5 0) := by decide

/-- V44.12. -/
theorem test_unassigned_amo : yields (stepOn (start [(11, 0x80001000)] []) 0x28C5A52F)
    (fun t => trapped t 2 0x80000100) := by decide

/-- V60.1, V60.2: Fatal and Suppress. -/
theorem test_policies :
    yields (stepOn { start [] [] with cfg.faultPolicy := .fatal } 0)
      (fun t => t.call.outcome == some 3 && t.pc == 0x80000100 && t.csr.mcause == 0) ∧
    yields (stepOn { start [] [] with cfg.faultPolicy := .suppress } 0)
      (fun t => t.call.outcome == some 0 && t.pc == 0x80000104 && t.csr.mcause == 0) := by decide

/-- V60.6, its second call: mtime passes mtimecmp and the interrupt is taken from user mode. -/
theorem test_timer_interrupt :
    yields (step { start [] [] with
        ef := ⟨0, false, 0⟩, mtime := 100, mtimecmp := 100, csr := { vector with mstatus := 8, mie := 0x80 }
        calls := [⟨1, 1⟩] })
      (fun t => t.csr.mcause == 0x80000007 && t.csr.mepc == 0x80000100 && t.csr.mtval == 0 && t.csr.mstatus == 0x80 &&
        t.ef.priv == 3 && t.pc == 0x80000800 && t.csr.mip == 0x80 && t.cycle == 0) := by decide

/-- V60.8: a hart asleep with the timer off. -/
theorem test_sleep :
    yields (step { start [] [] with ef := ⟨3, true, 0⟩, mtime := 5, calls := [⟨10, 1000⟩] })
      (fun t => t.call.outcome == some 1 && t.ef.wfi && t.mtime == 1005 && t.pc == 0x80000100) := by decide

/-- V60.14, its second attempt: the fetch at the end of RAM. -/
theorem test_fetch_fault : yields (step { start [] [] with pc := 0x81000000 })
    (fun t => t.csr.mcause == 1 && t.csr.mtval == 0x81000000) := by decide

/-! ### The memory hierarchy -/

/-- The small cache of E2: lines of 16 bytes, 4 sets. -/
def smallCache : Config := { Config.default with lineBits := 4, indexBits := 2 }

/-- The hierarchy after 4-byte reads at these offsets. -/
def readAll (c : Config) (m : Mem) : List Nat → Mem
  | [] => m
  | o :: os =>
    match m.read c o 4 with
    | .ok (_, m) => readAll c m os
    | .error _ => m

/-- E2: after A, B and C the ways of set 0 hold C and B, C the most recent; A then misses. -/
theorem test_eviction :
    let m := readAll smallCache State.reset.mem [0x000, 0x040, 0x080]
    let cs := m.cache.getSet 0
    (cs.way0.tag, cs.way0.mru, cs.way1.tag, cs.way1.mru, m.cache.hits, m.cache.misses) = (2, true, 1, false, 0, 3) ∧
    (readAll smallCache m [0x000]).cache.misses = 4 := by decide

/-- E5: blocks in any order; the index sorts them, and a search finds the covering block or none. -/
theorem test_block_search :
    let c := { Config.default with variant := .blockCache }
    let m := readAll c State.reset.mem [0x3120, 0x1000, 0x5FFC, 0x0004, 0x2ABC]
    (m.blocks.index.map fun k => (m.blocks.slot k).start) = [0x0000, 0x1000, 0x2000, 0x3000, 0x5000] ∧
    ((blockFind c m.blocks 0x2ABC).map fun k => (m.blocks.slot k).start) = some 0x2000 ∧
    ((blockFind c m.blocks 0x5FFF).map fun k => (m.blocks.slot k).start) = some 0x5000 ∧
    blockFind c m.blocks 0x4000 = none ∧ blockFind c m.blocks 0x6000 = none := by decide

/-! ### Instructions -/

/-- R200. -/
theorem test_lui : yields
    (stepOn (start [] []) 0x12345537)
    (fun t => t.readReg 10 == 0x12345000 && t.pc == 0x80000104) := by decide

/-- V40.2. -/
theorem test_auipc : yields
    (stepOn (start [] []) 0xFFFFF517)
    (fun t => t.readReg 10 == 0x7FFFF100 && t.pc == 0x80000104) := by decide

/-- V40.4. -/
theorem test_addi : yields
    (stepOn (start [(11, 0x7FFFFFFF)] []) 0x7FF58513)
    (fun t => t.readReg 10 == 0x800007FE) := by decide

/-- V40.5. -/
theorem test_addi_x0 : yields
    (stepOn (start [(11, 1)] []) 0x00558013)
    (fun t => t.readReg 0 == 0 && t.pc == 0x80000104) := by decide

/-- V40.6. -/
theorem test_slti : yields
    (stepOn (start [(11, 0x80000000)] []) 0x0005A513)
    (fun t => t.readReg 10 == 1) := by decide

/-- V40.8. -/
theorem test_sltiu : yields
    (stepOn (start [(11, 0xFFFFF7FF)] []) 0x8005B513)
    (fun t => t.readReg 10 == 1) := by decide

/-- R206. -/
theorem test_xori : yields
    (stepOn (start [(11, 0x0000F0F0)] []) 0xFFF5C513)
    (fun t => t.readReg 10 == 0xFFFF0F0F) := by decide

/-- V40.10. -/
theorem test_ori : yields
    (stepOn (start [(11, 1)] []) 0x8005E513)
    (fun t => t.readReg 10 == 0xFFFFF801) := by decide

/-- V40.11. -/
theorem test_andi : yields
    (stepOn (start [(11, 0x1234567F)] []) 0xFF05F513)
    (fun t => t.readReg 10 == 0x12345670) := by decide

/-- V40.13, ir[31:25] ignored. -/
theorem test_slli : yields
    (stepOn (start [(11, 3)] []) 0xFE059513)
    (fun t => t.readReg 10 == 3) := by decide

/-- R210. -/
theorem test_srli : yields
    (stepOn (start [(11, 0x80000000)] []) 0x0045D513)
    (fun t => t.readReg 10 == 0x08000000) := by decide

/-- R211. -/
theorem test_srai : yields
    (stepOn (start [(11, 0x80000000)] []) 0x4045D513)
    (fun t => t.readReg 10 == 0xF8000000) := by decide

/-- R213. -/
theorem test_add : yields
    (stepOn (start [(11, 0xFFFFFFFF), (12, 2)] []) 0x00C58533)
    (fun t => t.readReg 10 == 1) := by decide

/-- R214. -/
theorem test_sub : yields
    (stepOn (start [(11, 0), (12, 1)] []) 0x40C58533)
    (fun t => t.readReg 10 == 0xFFFFFFFF) := by decide

/-- V40.22, funct7 ignored. -/
theorem test_sll : yields
    (stepOn (start [(11, 1), (12, 4)] []) 0x40C59533)
    (fun t => t.readReg 10 == 0x10) := by decide

/-- V40.23. -/
theorem test_slt : yields
    (stepOn (start [(11, 0x7FFFFFFF), (12, 0x80000000)] []) 0x00C5A533)
    (fun t => t.readReg 10 == 0) := by decide

/-- R217. -/
theorem test_sltu : yields
    (stepOn (start [(11, 0xFFFFFFFF), (12, 1)] []) 0x00C5B533)
    (fun t => t.readReg 10 == 0) := by decide

/-- R218. -/
theorem test_xor : yields
    (stepOn (start [(11, 0xFF00FF00), (12, 0x0FF00FF0)] []) 0x00C5C533)
    (fun t => t.readReg 10 == 0xF0F0F0F0) := by decide

/-- V40.26. -/
theorem test_srl : yields
    (stepOn (start [(11, 0xF0000000), (12, 36)] []) 0x00C5D533)
    (fun t => t.readReg 10 == 0x0F000000) := by decide

/-- V40.27. -/
theorem test_sra : yields
    (stepOn (start [(11, 0x80000000), (12, 63)] []) 0x40C5D533)
    (fun t => t.readReg 10 == 0xFFFFFFFF) := by decide

/-- R221. -/
theorem test_or : yields
    (stepOn (start [(11, 0x00FF0000), (12, 0x000000FF)] []) 0x00C5E533)
    (fun t => t.readReg 10 == 0x00FF00FF) := by decide

/-- R222. -/
theorem test_and : yields
    (stepOn (start [(11, 0x12345678), (12, 0x0F0F0F0F)] []) 0x00C5F533)
    (fun t => t.readReg 10 == 0x02040608) := by decide

/-- R291. -/
theorem test_mul : yields
    (stepOn (start [(11, 0xFFFFFFF9), (12, 3)] []) 0x02C58533)
    (fun t => t.readReg 10 == 0xFFFFFFEB) := by decide

/-- V43.2. -/
theorem test_mulh : yields
    (stepOn (start [(11, 0x80000000), (12, 0x80000000)] []) 0x02C59533)
    (fun t => t.readReg 10 == 0x40000000) := by decide

/-- V43.5. -/
theorem test_mulhsu : yields
    (stepOn (start [(11, 0x7FFFFFFF), (12, 0xFFFFFFFF)] []) 0x02C5A533)
    (fun t => t.readReg 10 == 0x7FFFFFFE) := by decide

/-- R294. -/
theorem test_mulhu : yields
    (stepOn (start [(11, 0x80000000), (12, 0xFFFFFFFF)] []) 0x02C5B533)
    (fun t => t.readReg 10 == 0x7FFFFFFF) := by decide

/-- V43.9. -/
theorem test_div : yields
    (stepOn (start [(11, 7), (12, 0xFFFFFFFE)] []) 0x02C5C533)
    (fun t => t.readReg 10 == 0xFFFFFFFD) := by decide

/-- V43.8. -/
theorem test_div_overflow : yields
    (stepOn (start [(11, 0x80000000), (12, 0xFFFFFFFF)] []) 0x02C5C533)
    (fun t => t.readReg 10 == 0x80000000) := by decide

/-- R296. -/
theorem test_divu : yields
    (stepOn (start [(11, 0xFFFFFFF9), (12, 3)] []) 0x02C5D533)
    (fun t => t.readReg 10 == 0x55555553) := by decide

/-- V43.10. -/
theorem test_divu_zero : yields
    (stepOn (start [(11, 7), (12, 0)] []) 0x02C5D533)
    (fun t => t.readReg 10 == 0xFFFFFFFF) := by decide

/-- V43.14. -/
theorem test_rem : yields
    (stepOn (start [(11, 0xFFFFFFF9), (12, 0xFFFFFFFE)] []) 0x02C5E533)
    (fun t => t.readReg 10 == 0xFFFFFFFF) := by decide

/-- V43.12. -/
theorem test_rem_zero : yields
    (stepOn (start [(11, 0xFFFFFFF9), (12, 0)] []) 0x02C5E533)
    (fun t => t.readReg 10 == 0xFFFFFFF9) := by decide

/-- V43.16. -/
theorem test_remu : yields
    (stepOn (start [(11, 0xFFFFFFFF), (12, 10)] []) 0x02C5F533)
    (fun t => t.readReg 10 == 5) := by decide

/-- V41.1. -/
theorem test_jal : yields
    (stepOn (start [] []) 0xF01FF0EF)
    (fun t => t.readReg 1 == 0x80000104 && t.pc == 0x80000000) := by decide

/-- V41.4. -/
theorem test_jalr : yields
    (stepOn (start [(1, 0x80000400)] []) 0x000080E7)
    (fun t => t.readReg 1 == 0x80000104 && t.pc == 0x80000400) := by decide

/-- V41.3. -/
theorem test_jalr_odd : yields
    (stepOn (start [(11, 0x80000200)] []) 0x003580E7)
    (fun t => t.readReg 1 == 0x80000104 && t.pc == 0x80000202) := by decide

/-- V41.7. -/
theorem test_beq : yields
    (stepOn (start [(10, 0), (11, 0)] []) 0xF0B500E3)
    (fun t => t.pc == 0x80000000) := by decide

/-- V41.8. -/
theorem test_bne : yields
    (stepOn (start [(10, 3), (11, 3)] []) 0x00B51463)
    (fun t => t.pc == 0x80000104) := by decide

/-- V41.9. -/
theorem test_blt : yields
    (stepOn (start [(10, 0x80000000), (11, 0x7FFFFFFF)] []) 0x00B54463)
    (fun t => t.pc == 0x80000108) := by decide

/-- V41.10. -/
theorem test_bge : yields
    (stepOn (start [(10, 5), (11, 5)] []) 0x00B55463)
    (fun t => t.pc == 0x80000108) := by decide

/-- V41.11. -/
theorem test_bltu : yields
    (stepOn (start [(10, 0x7FFFFFFF), (11, 0x80000000)] []) 0x00B56463)
    (fun t => t.pc == 0x80000108) := by decide

/-- V41.12. -/
theorem test_bgeu : yields
    (stepOn (start [(10, 0), (11, 1)] []) 0x00B57463)
    (fun t => t.pc == 0x80000104) := by decide

/-- R262. -/
theorem test_lb : yields
    (stepOn (start [(11, 0x80001004)] [(0x1000, [0x80])]) 0xFFC58503)
    (fun t => t.readReg 10 == 0xFFFFFF80) := by decide

/-- V42.2. -/
theorem test_lh : yields
    (stepOn (start [(11, 0x80001000)] [(0x1000, [0x00, 0x34, 0x92])]) 0x00159503)
    (fun t => t.readReg 10 == 0xFFFF9234) := by decide

/-- V42.4. -/
theorem test_lw : yields
    (stepOn (start [(11, 0x80FFFFFC)] [(0xFFFFFC, [0x0D, 0xF0, 0xFE, 0xCA])]) 0x0005A503)
    (fun t => t.readReg 10 == 0xCAFEF00D) := by decide

/-- R265. -/
theorem test_lbu : yields
    (stepOn (start [(11, 0x80001000)] [(0x1000, [0x44, 0x33, 0x22, 0x11])]) 0x0035C503)
    (fun t => t.readReg 10 == 0x11) := by decide

/-- R266. -/
theorem test_lhu : yields
    (stepOn (start [(11, 0x80001000)] [(0x1000, [0xFF, 0x7F, 0x01, 0x80])]) 0x0025D503)
    (fun t => t.readReg 10 == 0x8001) := by decide

/-- V42.18. -/
theorem test_sb : yields
    (stepOn (start [(11, 0x80001000), (12, 0x12345678)] [(0x1000, [0xFF, 0xFF, 0xFF, 0xFF])]) 0x00C58023)
    (fun t => t.ramValue 0x80001000 4 == 0xFFFFFF78) := by decide

/-- V42.19. -/
theorem test_sh : yields
    (stepOn (start [(11, 0x80001000), (12, 0x12345678)] []) 0x00C590A3)
    (fun t => t.ramValue 0x80001000 4 == 0x00567800) := by decide

/-- R270. -/
theorem test_sw : yields
    (stepOn (start [(11, 0x80001000), (12, 0x11223344)] []) 0x00C5A223)
    (fun t => t.ramValue 0x80001004 4 == 0x11223344) := by decide

/-- V42.22. -/
theorem test_sb_mtimecmp : yields
    (stepOn (start [(11, 0x11004000), (12, 0x12345678)] []) 0x00C58023)
    (fun t => t.mtimecmp == 0x12345678) := by decide

/-- V42.23. -/
theorem test_sw_syscon : yields
    (stepOn (start [(11, 0x11100000), (12, 0x5555)] []) 0x00C5A023)
    (fun t => t.call.outcome == some 0x5555 && t.pc == 0x80000104 && t.cycle == 0) := by decide

/-- R311. -/
theorem test_lrW : yields
    (stepOn (start [(11, 0x80001000)] [(0x1000, [5])]) 0x1005A52F)
    (fun t => t.readReg 10 == 5 && t.ef.res == 0x1000) := by decide

/-- V44.4. -/
theorem test_scW : yields
    (stepOn { start [(11, 0x80001000), (12, 9)] [] with ef := ⟨3, false, 0x1000⟩ } 0x18C5A52F)
    (fun t => t.readReg 10 == 0 && t.ramValue 0x80001000 4 == 9 && t.ef.res == 0x1000) := by decide

/-- V44.3. -/
theorem test_scW_fails : yields
    (stepOn { start [(11, 0x80001004), (12, 9)] [] with ef := ⟨3, false, 0x1000⟩ } 0x18C5A52F)
    (fun t => t.readReg 10 == 1 && t.ramValue 0x80001004 4 == 0) := by decide

/-- V44.6, rd = rs2. -/
theorem test_amoswapW : yields
    (stepOn (start [(10, 4), (11, 0x80001000)] [(0x1000, [3])]) 0x08A5A52F)
    (fun t => t.readReg 10 == 3 && t.ramValue 0x80001000 4 == 4) := by decide

/-- R315. -/
theorem test_amoaddW : yields
    (stepOn (start [(11, 0x80001000), (12, 0xFFFFFFFE)] [(0x1000, [5])]) 0x00C5A52F)
    (fun t => t.readReg 10 == 5 && t.ramValue 0x80001000 4 == 3) := by decide

/-- R316. -/
theorem test_amoxorW : yields
    (stepOn (start [(11, 0x80001000), (12, 0xFFFFFFFE)] [(0x1000, [5])]) 0x20C5A52F)
    (fun t => t.readReg 10 == 5 && t.ramValue 0x80001000 4 == 0xFFFFFFFB) := by decide

/-- R317. -/
theorem test_amoandW : yields
    (stepOn (start [(11, 0x80001000), (12, 0xFFFFFFFE)] [(0x1000, [5])]) 0x60C5A52F)
    (fun t => t.readReg 10 == 5 && t.ramValue 0x80001000 4 == 4) := by decide

/-- R318. -/
theorem test_amoorW : yields
    (stepOn (start [(11, 0x80001000), (12, 0xFFFFFFFE)] [(0x1000, [5])]) 0x40C5A52F)
    (fun t => t.readReg 10 == 5 && t.ramValue 0x80001000 4 == 0xFFFFFFFF) := by decide

/-- R319. -/
theorem test_amominW : yields
    (stepOn (start [(11, 0x80001000), (12, 0xFFFFFFFE)] [(0x1000, [5])]) 0x80C5A52F)
    (fun t => t.readReg 10 == 5 && t.ramValue 0x80001000 4 == 0xFFFFFFFE) := by decide

/-- R320. -/
theorem test_amomaxW : yields
    (stepOn (start [(11, 0x80001000), (12, 0xFFFFFFFE)] [(0x1000, [5])]) 0xA0C5A52F)
    (fun t => t.readReg 10 == 5 && t.ramValue 0x80001000 4 == 5) := by decide

/-- R321. -/
theorem test_amominuW : yields
    (stepOn (start [(11, 0x80001000), (12, 0xFFFFFFFE)] [(0x1000, [5])]) 0xC0C5A52F)
    (fun t => t.readReg 10 == 5 && t.ramValue 0x80001000 4 == 5) := by decide

/-- R326. -/
theorem test_amomaxuW : yields
    (stepOn (start [(11, 0x80001000), (12, 0xFFFFFFFE)] [(0x1000, [5])]) 0xE0C5A52F)
    (fun t => t.readReg 10 == 5 && t.ramValue 0x80001000 4 == 0xFFFFFFFE) := by decide

/-- V45.19. -/
theorem test_fence : yields
    (stepOn (start [] []) 0x0FF0000F)
    (fun t => t.pc == 0x80000104 && t.readReg 10 == 0) := by decide

/-- R346. -/
theorem test_fenceI : yields
    (stepOn (start [] []) 0x0000100F)
    (fun t => t.pc == 0x80000104) := by decide

/-- V45.11. -/
theorem test_ecall : yields
    (stepOn { start [] [] with ef := ⟨0, false, 0⟩ } 0x00000073)
    (fun t => trapped t 8 0x80000100) := by decide

/-- V60.4. -/
theorem test_ebreak : yields
    (stepOn { start [] [] with ef := ⟨0, false, 0⟩, csr := { vector with mstatus := 8 } } 0x00100073)
    (fun t => trapped t 3 0x80000100 && t.csr.mstatus == 0x80 && t.cycle == 1) := by decide

/-- R355. -/
theorem test_mret : yields
    (stepOn { start [] [] with csr := { vector with mstatus := 0x80, mepc := 0x80000300 } } 0x30200073)
    (fun t => t.csr.mstatus == 0x00001888 && t.ef.priv == 0 && t.pc == 0x80000300) := by decide

/-- V45.15. -/
theorem test_sret_word : yields
    (stepOn { start [] [] with ef := ⟨0, false, 0⟩, csr := { vector with mstatus := 0x80, mepc := 0x80000300 } } 0x10200073)
    (fun t => t.csr.mstatus == 0x88 && t.ef.priv == 0 && t.pc == 0x80000300) := by decide

/-- V45.16. -/
theorem test_wfi : yields
    (stepOn (start [] []) 0x10500073)
    (fun t => t.csr.mstatus == 8 && t.ef.wfi && t.call.outcome == some 1 && t.pc == 0x80000104 && t.cycle == 0) := by decide

/-- R361. -/
theorem test_csrrw : yields
    (stepOn { start [(11, 0xF0)] [] with csr := { vector with mscratch := 0x0F, mstatus := 0x88, mie := 0x80 } } 0x34059573)
    (fun t => t.readReg 10 == 0x0F && t.csr.mscratch == 0xF0) := by decide

/-- V45.5. -/
theorem test_csrrs : yields
    (stepOn { start [] [] with cycle := 41 } 0xC0002573)
    (fun t => t.readReg 10 == 42 && t.cycle == 42) := by decide

/-- R363. -/
theorem test_csrrc : yields
    (stepOn { start [(11, 0x80)] [] with csr := { vector with mscratch := 0x0F, mstatus := 0x88, mie := 0x80 } } 0x3045B573)
    (fun t => t.readReg 10 == 0x80 && t.csr.mie == 0) := by decide

/-- R364. -/
theorem test_csrrwi : yields
    (stepOn { start [] [] with csr := { vector with mscratch := 0x0F, mstatus := 0x88, mie := 0x80 } } 0x3402D573)
    (fun t => t.readReg 10 == 0x0F && t.csr.mscratch == 5) := by decide

/-- R365. -/
theorem test_csrrsi : yields
    (stepOn (start [] []) 0x30046573)
    (fun t => t.readReg 10 == 0 && t.csr.mstatus == 8) := by decide

/-- R366. -/
theorem test_csrrci : yields
    (stepOn { start [] [] with csr := { vector with mscratch := 0x0F, mstatus := 0x88, mie := 0x80 } } 0x30047573)
    (fun t => t.readReg 10 == 0x88 && t.csr.mstatus == 0x80) := by decide

/-- V45.7. -/
theorem test_csr_key : yields
    (stepOn { start [] [] with kb := [0x61] } 0x14002073)
    (fun t => t.kb == [] && t.readReg 10 == 0) := by decide

/-- V45.8. -/
theorem test_csr_console : yields
    (stepOn (start [(11, 0x00000A0D)] []) 0x13959073)
    (fun t => t.con == [0x0D]) := by decide

/-! ### Block device -/

/-- A block file with the bytes of P6 at 512 to 519. -/
def fileP6 : Memory :=
  [(512, 0x03), (513, 0x0A), (514, 0x11), (515, 0x18), (516, 0x1F), (517, 0x26), (518, 0x2D), (519, 0x34)]

/-- A transfer of 8 bytes between RAM at 0x80002000 and the file at 512, ready to go. -/
def transfer : State := { start [] [] with blk := ⟨0x80002000, 512, 8, 0, 512, fileP6, 0⟩ }

/-- `csrrci zero, 0x153, 0` with P6's state (R454, R456). -/
theorem test_block_in : yields (stepOn transfer 0x15307073) (fun t =>
    t.ramValue 0x80002000 4 == 0x18110A03 && t.ramValue 0x80002004 4 == 0x342D261F && t.ramValue 0x80002008 4 == 0 &&
    t.blk.pos == 520 && t.blk.err == 0) := by decide

/-- `csrrwi zero, 0x153, 1`: RAM to the file (R454). -/
theorem test_block_out :
    yields (stepOn (load transfer [(0x2000, [1, 2, 3, 4, 5, 6, 7, 8])]) 0x1530D073) (fun t =>
      (t.blk.file.getN 511 10) == [0, 1, 2, 3, 4, 5, 6, 7, 8, 0] && t.blk.pos == 520) := by decide

/-- With sectors of 4 bytes, the second file read fails (the first outcome is the fetch's fill, the third that of the store):
the first sector has been written, the rest has not, and the error is latched (R454, R455). -/
theorem test_block_in_fails :
    yields (stepOn { transfer with cfg.sectorSize := 4, mem.io := [false, false, false, true] } 0x15307073) (fun t =>
      t.ramValue 0x80002000 4 == 0x18110A03 && t.ramValue 0x80002004 4 == 0 && t.blk.pos == 516 && t.blk.err == 1) := by
  decide

/-- The file write fails after the fills of the fetch and of the first word: the position stays and the error is latched
(R454, R455), and the sector's 8 bytes are free. -/
theorem test_block_out_fails :
    yields (stepOn { transfer with mem.io := [false, false, true] } 0x1530D073) (fun t =>
      t.blk.pos == 512 && t.blk.err == 1 && t.blk.torn == 8 && t.mem.io == []) := by decide

/-! ### States for the witnesses -/

/-- An outcome with a property is a next state. -/
theorem next_of_yields {r : Result} {p : State → Bool} (h : yields r p = true) : ∃ t, r = .next t := by
  cases r with
  | next t => exact ⟨t, rfl⟩
  | fault f => cases h
  | refused f => cases h

/-- The defaults are legal. -/
theorem default_wf : Config.default.Wf where
  base_aligned := by decide
  line_min := by decide
  block_min := by decide
  ram_lines := by decide
  ram_blocks := by decide
  guard_lt := by decide
  ram_no_wrap := by decide
  ram_mmio_apart := by decide
  devices_in_window := by
    intro a ha
    simp only [Config.deviceAddrs, List.mem_cons, List.not_mem_nil, or_false] at ha
    rcases ha with rfl | rfl | rfl | rfl | rfl | rfl | rfl <;> decide
  devices_distinct := by decide
  csrs_distinct := by decide
  blocks_pos := by decide
  console_pos := by decide
  keyboard_pos := by decide
  dev_size := by decide
  err_nonzero := by decide
  dtb_fits := by decide
  sector_pos := by decide
  sector_words := by decide

/-- The defaults with the block cache in front of the store, NBLOCKS slots. -/
def blockConfig (n : Nat) : Config := { Config.default with variant := .blockCache, nBlocks := n }

/-- A state with the caches of session start is good if its other fields are. -/
theorem fresh_inv {s : State} (hc : s.cfg.Wf) (hm : s.mem.backing.wf = true) (he : s.mem.cache = SetCache.empty)
    (hb : s.mem.blocks = BlockCache.empty) (hf : s.blk.file.wf = true) (hk : s.kb = []) (ho : s.con = [])
    (hr : s.call.remaining ≤ s.call.count.toNat) (hx : s.call.remaining ≠ 0 → s.call.outcome = none) : s.Inv :=
  ⟨hc, memInv_empty _ _ hm he hb, hf, by simp [hk], by simp [ho], hr, hx⟩

/-- No storage failure is listed. -/
theorem noFailure_nil {m : Mem} (h : m.io = []) : NoFailure m := by simp [NoFailure, h]

/-- A state inside a call, with the addresses the rules tell apart in registers: x5 inside RAM, x6 the last word of RAM
a data access reaches, x7 the last byte of a line, x8 three bytes before a line's end, x9 and x14 the first and the last
address of the MMIO window, x12 SYSCON_ADDR, x13 the first address of the tail guard, x15 below the window, x16 above,
x17 and x18 the operands of the signed division overflow, x19 RAM_BASE. -/
def probe : State :=
  { start [(5, 0x80001000), (6, 0x80FFFFFC), (7, 0x8000103F), (8, 0x8000103D), (9, 0x10000000), (12, 0x11100000),
      (13, 0x80FFFFFD), (14, 0x11FFFFFF), (15, 0x0FFFFFFF), (16, 0x12000000), (17, 0x80000000), (18, 0xFFFFFFFF),
      (19, 0x80000000)] [] with call := ⟨2, 2, 0, none⟩ }

theorem probe_inv : probe.Inv :=
  fresh_inv default_wf rfl rfl rfl rfl rfl rfl (by decide) (by decide)

theorem probe_noFailure : NoFailure probe.mem := noFailure_nil rfl

/-- The address classes of `probe`'s registers (R103, R104). -/
theorem probe_classes :
    (∀ r ∈ [5, 6, 7, 8, 19], IsRam probe (probe.readReg r)) ∧ (∀ r ∈ [9, 12, 14], IsMmio probe (probe.readReg r)) ∧
    (∀ r ∈ [0, 13, 15, 16], IsUnpopulated probe (probe.readReg r)) := by
  unfold IsRam IsMmio IsUnpopulated IsRam ramOffset; decide

/-- The widths that fit and that do not (R116). -/
theorem probe_widths :
    (∀ r ∈ [5, 6, 19], FitsUnit probe (probe.readReg r) 4) ∧ FitsUnit probe (probe.readReg 8) 2 ∧
    ¬ FitsUnit probe (probe.readReg 7) 2 ∧ ¬ FitsUnit probe (probe.readReg 8) 4 := by
  unfold FitsUnit ramOffset; decide

/-- A zero offset leaves the base. -/
theorem add_zero_offset (a : Word) : a + (0 : BitVec 12).signExtend 32 = a := by simp

/-- A property of each of two words. -/
theorem both {p : Word → Prop} {a b : Word} (ha : p a) (hb : p b) : ∀ w ∈ [a, b], p w := by
  intro w hw
  simp only [List.mem_cons, List.not_mem_nil, or_false] at hw
  rcases hw with rfl | rfl
  · exact ha
  · exact hb

/-! ### Witnesses: the hypotheses of every statement that has some -/

theorem witness_StepKeepsInvariant : State.reset.Inv ∧ ∃ t, step State.reset = .next t :=
  ⟨fresh_inv default_wf rfl rfl rfl rfl rfl rfl (by decide) (by decide),
    next_of_yields (p := fun _ => true) (by decide)⟩

theorem witness_DecodeOfEncode :
    (Instr.jal 1 0x100000).WellFormed ∧ (Instr.beq 10 11 0xFFE).WellFormed ∧ (Instr.lui 31 0xFFFFF).WellFormed := by
  decide

theorem witness_DecodedIsWellFormed : decodeWord 0x800000EF = .ok (.jal 1 0x100000) := rfl

/-- The two words of each clause differ in every ignored bit. -/
theorem witness_IgnoredFields :
    ∀ p ∈ ([(0x00058167, 0x0005F167, 0x00007000), (0x00459513, 0xFE459513, 0xFE000000),
        (0x4045D513, 0xFE45D513, 0xBE000000), (0x02C58533, 0xFEC58533, 0xFC000000),
        (0x00C5D533, 0xBCC5D533, 0xBC000000), (0x00C59533, 0xFCC59533, 0xFC000000),
        (0x30200073, 0x302F8FF3, 0x000F8F80), (0x30200073, 0xC02F8FF3, 0xF00F8F80), (0x08C5A52F, 0x08C5D52F, 0x00007000),
        (0x1005A52F, 0x11F5A52F, 0x01F00000)] : List (Word × Word × Word)),
      (p.1 ^^^ p.2.1) &&& ~~~p.2.2 = 0 ∧ p.1 ^^^ p.2.1 = p.2.2 ∧ (decodeWord p.1).toBool := by
  intro p hp
  simp only [List.mem_cons, List.not_mem_nil, or_false] at hp
  rcases hp with rfl | rfl | rfl | rfl | rfl | rfl | rfl | rfl | rfl | rfl <;> decide

/-- At a RAM address and, second, at the last word of RAM. -/
theorem witness_StepRunsDecodedInstruction :
    let s := probe.withFetchWord 32 0x00150513
    let t := State.withFetchWord { probe with pc := 0x80FFFFFC } 32 0x00150513
    (s.Inv ∧ NoFailure s.mem ∧ s.agenda = [] ∧ s.call.remaining ≠ 0 ∧ ramOffset s s.pc < s.cfg.ramSize ∧
      ramOffset s s.pc % 4 = 0 ∧ decodeWord (ramWord s (ramOffset s s.pc)) = .ok (.addi 10 10 1)) ∧
    (t.Inv ∧ NoFailure t.mem ∧ t.agenda = [] ∧ t.call.remaining ≠ 0 ∧ ramOffset t t.pc < t.cfg.ramSize ∧
      ramOffset t t.pc % 4 = 0 ∧ decodeWord (ramWord t (ramOffset t t.pc)) = .ok (.addi 10 10 1)) :=
  ⟨⟨fresh_inv default_wf rfl rfl rfl rfl rfl rfl (by decide) (by decide), noFailure_nil rfl, rfl, by decide, by decide,
      by decide, rfl⟩,
    ⟨fresh_inv default_wf rfl rfl rfl rfl rfl rfl (by decide) (by decide), noFailure_nil rfl, rfl, by decide, by decide,
      by decide, rfl⟩⟩

/-- Below RAM, just past RAM, and inside RAM at an odd halfword. -/
theorem witness_FetchTraps :
    probe.Inv ∧ probe.agenda = [] ∧ probe.call.remaining ≠ 0 ∧
    (∀ pc ∈ [0x7FFFFFFC#32, 0x81000000#32], probe.cfg.ramSize ≤ ramOffset probe pc) ∧
    (∀ pc ∈ [0x80000002#32, 0x80FFFFFF#32], ramOffset probe pc < probe.cfg.ramSize ∧ pc.toNat % 4 ≠ 0) :=
  ⟨probe_inv, rfl, by decide, both (by decide) (by decide), both (by decide) (by decide)⟩

theorem witness_IllegalWords :
    (0x0000000B#32).extractLsb' 0 7 ∉
      [0x03#7, 0x0F#7, 0x13#7, 0x17#7, 0x23#7, 0x2F#7, 0x33#7, 0x37#7, 0x63#7, 0x67#7, 0x6F#7, 0x73#7] ∧
    ((0x00B52463#32).extractLsb' 0 7 = 0x63#7 ∧ (0x00B52463#32).extractLsb' 12 3 = 2#3) ∧
    ((0x00B53463#32).extractLsb' 0 7 = 0x63#7 ∧ (0x00B53463#32).extractLsb' 12 3 = 3#3) ∧
    ((0x00004073#32).extractLsb' 0 7 = 0x73#7 ∧ (0x00004073#32).extractLsb' 12 3 = 4#3) ∧
    ((0x12000073#32).extractLsb' 0 7 = 0x73#7 ∧ (0x12000073#32).extractLsb' 12 3 = 0#3 ∧
      (0x12000073#32).extractLsb' 20 12 ∉ [0x000#12, 0x001#12, 0x105#12] ∧ (0x12000073#32).extractLsb' 20 8 ≠ 0x02#8) := by
  decide

/-- LOAD funct3 3 and 7 and STORE funct3 3 and 7, with the base x6, x13 and x14. -/
theorem witness_ReservedWidths :
    (∀ w ∈ [0x00033503#32, 0x00037503#32], w.extractLsb' 0 7 = 0x03#7 ∧ w.extractLsb' 12 3 ∈ [3#3, 6#3, 7#3] ∧
      w.extractLsb' 20 12 = 0#12 ∧ fRs1 w = 6) ∧
    (∀ w ∈ [0x00A33023#32, 0x00A37023#32], w.extractLsb' 0 7 = 0x23#7 ∧
      w.extractLsb' 12 3 ∈ [3#3, 4#3, 5#3, 6#3, 7#3] ∧ w.extractLsb' 25 7 ++ w.extractLsb' 7 5 = 0#12 ∧ fRs1 w = 6) ∧
    IsRam probe (probe.readReg 6) ∧ IsUnpopulated probe (probe.readReg 13) ∧ IsMmio probe (probe.readReg 14) ∧
    (let s := { probe with cfg.mmioLoadExtend := false }
     IsMmio s (s.readReg 14) ∧ s.cfg.mmioLoadExtend = false) :=
  ⟨both (by decide) (by decide), both (by decide) (by decide), probe_classes.1 6 (by decide), probe_classes.2.2 13 (by decide),
    probe_classes.2.1 14 (by decide), by unfold IsMmio IsRam ramOffset; decide⟩

theorem witness_UnassignedAmo :
    probe.Inv ∧ NoFailure probe.mem ∧
    (∀ w ∈ [0x28A2A52F#32, 0xF8A2A52F#32], w.extractLsb' 0 7 = 0x2F#7 ∧
      w.extractLsb' 27 5 ∉ [0#5, 1#5, 2#5, 3#5, 4#5, 8#5, 12#5, 16#5, 20#5, 24#5, 28#5] ∧ fRs1 w = 5) ∧
    IsRam probe (probe.readReg 5) ∧ FitsUnit probe (probe.readReg 5) 4 ∧ ¬ IsRam probe (probe.readReg 13) ∧
    (fRs1 0x28A4252F = 8 ∧ IsRam probe (probe.readReg 8) ∧ ¬ FitsUnit probe (probe.readReg 8) 4) :=
  ⟨probe_inv, probe_noFailure, both (by decide) (by decide), probe_classes.1 5 (by decide),
    probe_widths.1 5 (by decide), (probe_classes.2.2 13 (by decide)).1, by decide, probe_classes.1 8 (by decide),
    probe_widths.2.2.2⟩

theorem witness_Divide : probe.readReg 17 = 0x80000000 ∧ probe.readReg 18 = 0xFFFFFFFF ∧ probe.readReg 0 = 0 := by decide

theorem witness_ArithmeticLaws : (1 : Word) ≠ 0 ∧ (0xFFFFFFFF : Word) ≠ 0 := by decide

/-- For `LoadsFromRam`, `StoresToRam`, `LoadReserved`, `StoreConditional` and `AtomicMemoryOperations`: a word in the
middle of RAM, the last one, and a halfword at the end of a line. -/
theorem witness_LoadsFromRam :
    probe.Inv ∧ NoFailure probe.mem ∧
    (∀ r ∈ [5, 6, 19], IsRam probe (probe.readReg r + (0 : BitVec 12).signExtend 32) ∧
      FitsUnit probe (probe.readReg r + (0 : BitVec 12).signExtend 32) 4) ∧
    IsRam probe (probe.readReg 8) ∧ FitsUnit probe (probe.readReg 8) 2 :=
  ⟨probe_inv, probe_noFailure, by
      intro r hr
      rw [add_zero_offset]
      exact ⟨probe_classes.1 r ((by decide : ∀ r ∈ ([5, 6, 19] : List Reg), r ∈ ([5, 6, 7, 8, 19] : List Reg)) r hr),
        probe_widths.1 r hr⟩,
    probe_classes.1 8 (by decide), probe_widths.2.1⟩

/-- As `witness_LoadsFromRam`. -/
theorem witness_StoresToRam :
    probe.Inv ∧ NoFailure probe.mem ∧ IsRam probe (probe.readReg 6) ∧ FitsUnit probe (probe.readReg 6) 2 ∧
    FitsUnit probe (probe.readReg 6) 4 := by
  refine ⟨probe_inv, probe_noFailure, probe_classes.1 6 (by decide), ?_, probe_widths.1 6 (by decide)⟩
  unfold FitsUnit ramOffset; decide

theorem witness_LoadReserved :
    probe.Inv ∧ NoFailure probe.mem ∧ IsRam probe (probe.readReg 6) ∧ FitsUnit probe (probe.readReg 6) 4 :=
  ⟨probe_inv, probe_noFailure, probe_classes.1 6 (by decide), probe_widths.1 6 (by decide)⟩

/-- The tag 0 of reset matches the offset of RAM_BASE (R313 b) and not that of x5. -/
theorem witness_StoreConditional :
    probe.Inv ∧ NoFailure probe.mem ∧
    (IsRam probe (probe.readReg 19) ∧ FitsUnit probe (probe.readReg 19) 4 ∧
      probe.ef.res = (probe.readReg 19 - probe.cfg.ramBase).extractLsb' 0 29) ∧
    (IsRam probe (probe.readReg 5) ∧ FitsUnit probe (probe.readReg 5) 4 ∧
      probe.ef.res ≠ (probe.readReg 5 - probe.cfg.ramBase).extractLsb' 0 29) :=
  ⟨probe_inv, probe_noFailure, ⟨probe_classes.1 19 (by decide), probe_widths.1 19 (by decide), by decide⟩,
    ⟨probe_classes.1 5 (by decide), probe_widths.1 5 (by decide), by decide⟩⟩

theorem witness_AtomicMemoryOperations :
    probe.Inv ∧ NoFailure probe.mem ∧ IsRam probe (probe.readReg 5) ∧ FitsUnit probe (probe.readReg 5) 4 :=
  ⟨probe_inv, probe_noFailure, probe_classes.1 5 (by decide), probe_widths.1 5 (by decide)⟩

/-- The first and the last address of the window, under both values of MMIO_LOAD_EXTEND. -/
theorem witness_DeviceLoads :
    IsMmio probe (probe.readReg 9 + (0 : BitVec 12).signExtend 32) ∧ IsMmio probe (probe.readReg 14) ∧
    probe.cfg.mmioLoadExtend = true ∧
    (let s := { probe with cfg.mmioLoadExtend := false }
     IsMmio s (s.readReg 9) ∧ s.cfg.mmioLoadExtend = false) := by
  refine ⟨by rw [add_zero_offset]; exact probe_classes.2.1 9 (by decide), probe_classes.2.1 14 (by decide), rfl, ?_, rfl⟩
  unfold IsMmio IsRam ramOffset; decide

theorem witness_DeviceStores :
    probe.cfg.Wf ∧ (∀ r ∈ [9, 14], IsMmio probe (probe.readReg r) ∧ probe.readReg r ≠ probe.cfg.sysconAddr) :=
  ⟨default_wf, fun r hr => ⟨probe_classes.2.1 r
    ((by decide : ∀ r ∈ ([9, 14] : List Reg), r ∈ ([9, 12, 14] : List Reg)) r hr),
    (by decide : ∀ r ∈ ([9, 14] : List Reg), probe.readReg r ≠ probe.cfg.sysconAddr) r hr⟩⟩

theorem witness_SysconEndsCall :
    probe.cfg.Wf ∧ probe.readReg 12 + (0 : BitVec 12).signExtend 32 = probe.cfg.sysconAddr :=
  ⟨default_wf, by decide⟩

theorem witness_AccessFaults :
    ∀ r ∈ [0, 13, 15, 16], IsUnpopulated probe (probe.readReg r + (0 : BitVec 12).signExtend 32) := by
  intro r hr; rw [add_zero_offset]; exact probe_classes.2.2 r hr

theorem witness_LineCross :
    (IsRam probe (probe.readReg 7) ∧ ¬ FitsUnit probe (probe.readReg 7) 2) ∧
    (IsRam probe (probe.readReg 8) ∧ ¬ FitsUnit probe (probe.readReg 8) 4) :=
  ⟨⟨probe_classes.1 7 (by decide), probe_widths.2.2.1⟩, ⟨probe_classes.1 8 (by decide), probe_widths.2.2.2⟩⟩

theorem memInv_reset (c : Config) : MemInv c State.reset.mem := memInv_empty _ _ rfl rfl rfl

/-- Both hierarchies, a full word at the end of RAM. -/
theorem witness_CacheTransparency :
    ∀ c ∈ [Config.default, blockConfig 1], MemInv c State.reset.mem ∧ 0 < c.nBlocks ∧
      (∃ v m, State.reset.mem.read c 0xFFFFFC 4 = .ok (v, m)) ∧
      (∃ m, State.reset.mem.write c 0xFFFFFC 4 1 = .ok m) := by
  intro c hc
  have hx : crosses c 0xFFFFFC 4 = false ∧ 0 < c.nBlocks :=
    (by decide : ∀ c ∈ [Config.default, blockConfig 1], crosses c 0xFFFFFC 4 = false ∧ 0 < c.nBlocks) c hc
  exact ⟨memInv_reset c, hx.2, Mem.read_completes hx.1 (noFailure_nil rfl), Mem.write_completes hx.1 (noFailure_nil rfl)⟩

/-- A miss whose victim is dirty: offset 0 is written, then a line of the same set read, then a third one missed. -/
theorem witness_MissWritesBackAndFills :
    ∃ m : Mem, CacheInv Config.default m ∧ (m.cache.getSet (setIndex Config.default 0x80000)).way0.dirty = true ∧
      (m.cache.getSet (setIndex Config.default 0x80000)).hit (lineTag Config.default 0x80000) = none ∧
      ∃ w m', cacheResolve Config.default m 0x80000 = .ok (w, m') := by
  have hw : ∃ m, State.reset.mem.write Config.default 0 4 1 = .ok m := Mem.write_completes (by decide) (noFailure_nil rfl)
  obtain ⟨m, hm⟩ := hw
  have hr : ∃ v m', m.read Config.default 0x40000 4 = .ok (v, m') := by
    have h : State.reset.mem.write Config.default 0 4 1 = .ok (m) := hm
    cases h
    exact Mem.read_completes (by decide) (noFailure_nil rfl)
  obtain ⟨v, m', hm'⟩ := hr
  have hi := (Mem.read_spec (Mem.write_spec (memInv_reset Config.default) (by decide) hm).1 (by decide) hm').2.1
  refine ⟨m', hi, ?_⟩
  cases hm
  cases hm'
  exact ⟨by decide, by decide, _, _, rfl⟩

/-- A block cache of one slot, in use with a pending write, and a miss. -/
theorem witness_BlockMissEvictsOldest :
    ∃ m : Mem, BlockInv (blockConfig 1) m ∧ 0 < (blockConfig 1).nBlocks ∧
      m.blocks.slots.length = (blockConfig 1).nBlocks ∧ blockFind (blockConfig 1) m.blocks 0x1000 = none ∧
      (m.blocks.slot 0).pending = true ∧ ∃ k m', blockResolve (blockConfig 1) m 0x1000 = .ok (k, m') := by
  have hw : ∃ m, State.reset.mem.write (blockConfig 1) 0 4 1 = .ok m :=
    Mem.write_completes (by decide) (noFailure_nil rfl)
  obtain ⟨m, hm⟩ := hw
  have hi := (Mem.write_spec (memInv_reset (blockConfig 1)) (by decide) hm).1
  refine ⟨m, hi, by decide, ?_⟩
  cases hm
  exact ⟨by decide, by decide, by decide, _, _, rfl⟩

/-- A miss at x5 with each hierarchy: without a write-back, and with one, of a dirty line and of a pending block. -/
theorem witness_StorageFailure :
    (∀ s ∈ [{ probe with mem.io := [true] }, { probe with cfg := blockConfig 1, mem.io := [true] }],
      IsRam s (s.readReg 5) ∧ FitsUnit s (s.readReg 5) 4 ∧ Misses s (ramOffset s (s.readReg 5)) ∧
      victimBase s (ramOffset s (s.readReg 5)) = none ∧ s.mem.io = true :: []) ∧
    (∀ io ∈ [[true], [false, true]],
      (let s := { probe with mem.cache.sets := [(0x40, ⟨⟨7, true, true, false, []⟩, Line.empty⟩)], mem.io := io }
       IsRam s (s.readReg 5) ∧ FitsUnit s (s.readReg 5) 4 ∧ Misses s (ramOffset s (s.readReg 5)) ∧
       victimBase s (ramOffset s (s.readReg 5)) = some 0x1C1000) ∧
      (let s := { probe with cfg := blockConfig 1, mem.blocks := ⟨[⟨0, 1, true, true, []⟩], [0], 1⟩, mem.io := io }
       IsRam s (s.readReg 5) ∧ FitsUnit s (s.readReg 5) 4 ∧ Misses s (ramOffset s (s.readReg 5)) ∧
       victimBase s (ramOffset s (s.readReg 5)) = some 0)) := by
  unfold IsRam FitsUnit Misses ramOffset
  constructor
  · intro s hs
    simp only [List.mem_cons, List.not_mem_nil, or_false] at hs
    rcases hs with rfl | rfl <;> decide
  · intro io hio
    simp only [List.mem_cons, List.not_mem_nil, or_false] at hio
    rcases hio with rfl | rfl <;> decide

theorem witness_AtomicOutsideRam : ∀ r ∈ [0, 9, 13, 14], ¬ IsRam probe (probe.readReg r) := by
  unfold IsRam ramOffset; decide

/-- For `OnlyLoadReservedSetsTag`, `ModeChanges`, `OnlyWfiSleeps` and `TimeIsTheHosts`: MRET, ECALL, WFI and a store to
the timer complete, as instructions, and a step that fetches 0 completes with a trap. -/
theorem witness_ModeChanges :
    (∀ i ∈ [Instr.mret, .ecall, .wfi, .sw 9 5 0, .fence 0 0 0 0 0], ∃ t, exec i probe = .next t) ∧
    (probe.Inv ∧ (∀ image dtb cmdline rest, probe.agenda ≠ .reboot image dtb cmdline :: rest) ∧
      ∃ t, step probe = .next t) :=
  ⟨fun i hi => next_of_yields (p := fun _ => true)
    ((by decide : ∀ i ∈ [Instr.mret, .ecall, .wfi, .sw 9 5 0, .fence 0 0 0 0 0],
      yields (exec i probe) (fun _ => true) = true) i hi),
    probe_inv, fun _ _ _ _ h => (by cases h), next_of_yields (p := fun _ => true) (by decide)⟩

theorem witness_OnlyLoadReservedSetsTag :
    (∃ t, exec .mret probe = .next t) ∧ ∀ aq rl rd rs1, Instr.mret ≠ .lrW aq rl rd rs1 :=
  ⟨witness_ModeChanges.1 .mret (by decide), fun _ _ _ _ h => by cases h⟩

theorem witness_OnlyWfiSleeps : (∃ t, exec .wfi probe = .next t) ∧ ∃ t, exec .ecall probe = .next t :=
  ⟨witness_ModeChanges.1 .wfi (by decide), witness_ModeChanges.1 .ecall (by decide)⟩

theorem witness_TimeIsTheHosts : ∃ t, exec (.sw 9 5 0) probe = .next t := witness_ModeChanges.1 _ (by decide)

theorem witness_Fences : (0xFFFFF00F#32).extractLsb' 0 7 = 0x0F#7 := by decide

theorem witness_CallAndBreakpoint :
    { probe with ef.priv := 0 }.ef.priv = 0 ∧ probe.ef.priv ≠ 0 := by decide

theorem witness_StoredCsrs : ∃ q ∈ csrForms probe 10 11 0 0x300, q.1 = .csrrw 10 11 0x300 :=
  ⟨_, List.mem_cons_self .., rfl⟩

/-- The read-only numbers, and the first and last number. -/
theorem witness_ReadOnlyCsrs :
    probe.cfg.Wf ∧ ∀ n ∈ [0x000#12, 0x301#12, 0xC00#12, 0xF11#12, 0x154#12, 0x155#12, 0xFFF#12],
      n ∉ [0x300#12, 0x304#12, 0x305#12, 0x340#12, 0x341#12, 0x342#12, 0x343#12, 0x344#12] ∧
      n ∉ [probe.cfg.csrConsoleOut, probe.cfg.csrConsoleIn, probe.cfg.csrBlkPtr, probe.cfg.csrBlkOff,
        probe.cfg.csrBlkLen, probe.cfg.csrBlkGo] :=
  ⟨default_wf, by
    intro n hn
    simp only [List.mem_cons, List.not_mem_nil, or_false] at hn
    rcases hn with rfl | rfl | rfl | rfl | rfl | rfl | rfl <;> decide⟩

theorem witness_ConsoleCsrs : probe.cfg.Wf := default_wf

theorem witness_BlockRegisters : probe.cfg.Wf := default_wf

theorem transfer_inv : transfer.Inv :=
  fresh_inv default_wf rfl rfl rfl (by decide) rfl rfl (by decide) (by decide)

/-- The forms that write 0 and 1. -/
theorem forms_write (s : State) (n : CsrNum) (uimm : BitVec 5) :
    ∃ q ∈ csrForms s 0 0 uimm n, q.2 0 = uimm.setWidth 32 :=
  ⟨(.csrrwi 0 uimm n, fun _ => uimm.setWidth 32), by simp [csrForms], rfl⟩

/-- A transfer of 8 bytes, and one of none that points outside RAM. -/
theorem witness_BlockTransferIn :
    transfer.Inv ∧ NoFailure transfer.mem ∧
    (let s := transfer
     s.blk.ptr.toNat % 4 = 0 ∧ s.blk.len.toNat % 4 = 0 ∧ 0 < s.blk.len.toNat ∧ IsRam s s.blk.ptr ∧
      ramOffset s s.blk.ptr + s.blk.len.toNat ≤ s.cfg.ramSize ∧ s.blk.pos.toNat + s.blk.len.toNat ≤ s.cfg.blkDevSize) ∧
    (∃ q ∈ csrForms transfer 0 0 0 transfer.cfg.csrBlkGo, q.2 0 = 0) := by
  refine ⟨transfer_inv, noFailure_nil rfl, ?_, forms_write transfer transfer.cfg.csrBlkGo 0⟩
  unfold IsRam ramOffset; decide

theorem witness_BlockTransferOut :
    transfer.Inv ∧ NoFailure transfer.mem ∧ transfer.blk.ptr.toNat % 4 = 0 ∧ transfer.blk.len.toNat % 4 = 0 ∧
    (0 < transfer.blk.len.toNat → IsRam transfer transfer.blk.ptr ∧
      ramOffset transfer transfer.blk.ptr + transfer.blk.len.toNat ≤ transfer.cfg.ramSize) ∧
    transfer.blk.pos.toNat + transfer.blk.len.toNat ≤ transfer.cfg.blkDevSize ∧
    (∃ q ∈ csrForms transfer 0 0 1 transfer.cfg.csrBlkGo, q.2 0 = 1) := by
  refine ⟨transfer_inv, noFailure_nil rfl, by decide, by decide, ?_, by decide,
    forms_write transfer transfer.cfg.csrBlkGo 1⟩
  unfold IsRam ramOffset; decide

/-- Transfers with a first failure, of a read, and with coming failures, both directions (`test_block_in_fails` and
`test_block_out_fails` run such). -/
theorem witness_BlockFailures :
    ∀ io ∈ [[true], [false, false, false, true]],
      let s := { transfer with mem.io := io }
      s.Inv ∧ s.blk.ptr.toNat % 4 = 0 ∧ s.blk.len.toNat % 4 = 0 ∧ 0 < s.blk.len.toNat ∧ IsRam s s.blk.ptr ∧
      ramOffset s s.blk.ptr + s.blk.len.toNat ≤ s.cfg.ramSize ∧ s.blk.pos.toNat + s.blk.len.toNat ≤ s.cfg.blkDevSize ∧
      (∃ q ∈ csrForms s 0 0 0 s.cfg.csrBlkGo, q.2 0 = 0) ∧ ∃ q ∈ csrForms s 0 0 1 s.cfg.csrBlkGo, q.2 0 = 1 := by
  intro io _
  have h : transfer.blk.ptr.toNat % 4 = 0 ∧ transfer.blk.len.toNat % 4 = 0 ∧ 0 < transfer.blk.len.toNat ∧
      IsRam transfer transfer.blk.ptr ∧
      ramOffset transfer transfer.blk.ptr + transfer.blk.len.toNat ≤ transfer.cfg.ramSize ∧
      transfer.blk.pos.toNat + transfer.blk.len.toNat ≤ transfer.cfg.blkDevSize := by
    unfold IsRam ramOffset; decide
  obtain ⟨h1, h2, h3, h4, h5, h6⟩ := h
  exact ⟨fresh_inv default_wf rfl rfl rfl transfer_inv.file_wf rfl rfl transfer_inv.remaining_le
    transfer_inv.running_open, h1, h2, h3, h4, h5, h6, forms_write _ _ 0, forms_write _ _ 1⟩

/-- One state for each refusal: the direction 2, a length of 6, a pointer at the end of RAM, the end of the device. -/
theorem witness_BlockRefusals :
    transfer.cfg.Wf ∧ (∃ q ∈ csrForms transfer 0 0 2 transfer.cfg.csrBlkGo, q.2 0 = 2) ∧
    ((0x80002000#32).toNat % 4 = 0 ∧ (6#32).toNat % 4 ≠ 0) ∧
    (IsRam transfer 0x80FFFFFC ∧ ¬ ramOffset transfer 0x80FFFFFC + transfer.blk.len.toNat ≤ transfer.cfg.ramSize) ∧
    ¬ 4092 + transfer.blk.len.toNat ≤ transfer.cfg.blkDevSize := by
  refine ⟨default_wf, forms_write transfer transfer.cfg.csrBlkGo 2, by decide, ?_, by decide⟩
  unfold IsRam ramOffset; decide

/-- Between calls, with a call listed: asleep, asleep after a call that returned 1, due, with a count of 0, and with one of
5. -/
theorem witness_CallStart :
    ∀ s ∈ [{ start [] [] with calls := [⟨5, 7⟩], ef.wfi := true },
        { start [] [] with calls := [⟨5, 7⟩], ef.wfi := true, call := ⟨0, 3, 0, some 1⟩ },
        { start [] [] with calls := [⟨5, 7⟩], mtimecmp := 6, csr.mie := 0x80, csr.mstatus := 8 },
        { start [] [] with calls := [⟨0, 7⟩] }, { start [] [] with calls := [⟨5, 7⟩], mtimecmp := 7 }],
      s.agenda = [] ∧ s.call.remaining = 0 ∧ s.sessionOver = false ∧ s.calls ≠ [] := by decide

theorem witness_HostBetweenCalls :
    (let s := { start [] [] with call := ⟨0, 5, 0, some 1⟩ }
     s.agenda = [] ∧ s.call.remaining = 0 ∧ s.sessionOver = false ∧ s.call.outcome = some 1) ∧
    ((start [] []).agenda = [] ∧ (start [] []).call.remaining = 0 ∧ (start [] []).sessionOver = false ∧
      (start [] []).calls = []) := by decide

theorem witness_SessionEnds :
    (let s := { start [] [] with call := ⟨0, 5, 0, some 0x5555⟩ }
     s.agenda = [] ∧ s.call.remaining = 0 ∧ s.call.outcome = some 0x5555) ∧ (2 : Word) ∉ [0, 1, 3, 0x7777, 0x5555] := by
  decide

theorem witness_ConsoleTask :
    { start [] [] with agenda := [.key 0x61] }.agenda = .key 0x61 :: [] ∧
    { start [] [] with agenda := [.drain] }.agenda = .drain :: [] := ⟨rfl, rfl⟩

theorem witness_HostCacheReset :
    let s := { start [] [] with agenda := [.cacheReset] }
    s.agenda = .cacheReset :: [] ∧ s.call.remaining = 0 ∧ s.cfg.variant = .setAssoc := ⟨rfl, rfl, rfl⟩

/-- A DTB of DTB_SIZE bytes that holds the placeholder and nothing else. -/
def someDtb : List Byte := List.replicate 0x13C 0 ++ [0x00, 0xC0, 0xFF, 0x03] ++ List.replicate 0x4C0 0

/-- An image of one word and the DTB, with a command line of one letter, and with one that reaches the patched field. -/
theorem some_fits :
    bootFits Config.default [0x13, 0, 0, 0] someDtb [0x61] = true ∧
    bootFits Config.default [0x13, 0, 0, 0] someDtb (List.replicate 0x80 0x61) = true := by
  unfold bootFits someDtb
  rw [List.length_append, List.length_append, List.length_replicate, List.length_replicate, List.length_replicate]
  decide

theorem witness_Reboot :
    let s := { start [] [] with agenda := [.reboot [0x13, 0, 0, 0] someDtb [0x61]] }
    s.agenda = .reboot [0x13, 0, 0, 0] someDtb [0x61] :: [] ∧ s.call.remaining = 0 ∧
    bootFits s.cfg [0x13, 0, 0, 0] someDtb [0x61] = true ∧ s.Inv :=
  ⟨rfl, rfl, some_fits.1, fresh_inv default_wf rfl rfl rfl rfl rfl rfl (by decide) (by decide)⟩

/-- The placeholder is there; the first command line ends before the patched field, the second covers its bytes. -/
theorem witness_BootLoading :
    Config.default.Wf ∧ (someDtb.drop Config.default.dtbPatchOfs).take 4 = Config.default.dtbPlaceholder ∧
    (∃ s, State.boot Config.default [0x13, 0, 0, 0] someDtb [0x61] = some s) ∧
    ∃ s, State.boot Config.default [0x13, 0, 0, 0] someDtb (List.replicate 0x80 0x61) = some s := by
  refine ⟨default_wf, ?_, ?_, ?_⟩
  · unfold someDtb
    rw [List.append_assoc, List.drop_left' (by rw [List.length_replicate]; decide)]
    decide
  · rw [State.boot, if_pos some_fits.1]
    exact ⟨_, rfl⟩
  · rw [State.boot, if_pos some_fits.2]
    exact ⟨_, rfl⟩
end Sys2Proof.Machine.Tests
end

namespace Sys2Proof

theorem Config.default_devices_in_window :
    ∀ a ∈ Config.default.deviceAddrs, Config.default.mmioLo ≤ a ∧ a < Config.default.mmioHi := by
  simp [Config.deviceAddrs, Config.default]

theorem Config.default_wf : Config.default.Wf := by
  constructor
  case devices_in_window => exact Config.default_devices_in_window
  all_goals decide

end Sys2Proof

namespace Sys2Proof.Machine

/-! ### States of session start (`70_reset_and_hazards.md` R501, R503, R504) -/

theorem MemInv.backing_wf {c : Config} {m : Mem} (h : MemInv c m) : m.backing.wf = true := by
  unfold MemInv at h
  split at h
  · exact h.backing_wf
  · exact h.backing_wf

theorem bootStore_wf (c : Config) {m : Memory} (h : m.wf = true) (image dtb cmdline : List Byte) :
    (bootStore c m image dtb cmdline).wf = true := by
  have hdtb : ((m.putN 0 image).putN (dtbOffset c) dtb).wf = true :=
    Memory.wf_putN (Memory.wf_putN h _ _) _ _
  refine Memory.wf_putN ?_ _ _
  unfold patchDtb
  dsimp only
  split
  · exact Memory.wf_putN hdtb _ _
  · exact hdtb

/-- The state R80 names is good over canonical tables and queues within their capacities. -/
theorem State.Inv.initial {cfg : Config} {backing file : Memory} {kb con : List Byte} (hc : cfg.Wf)
    (hb : backing.wf = true) (hf : file.wf = true) (hk : kb.length ≤ cfg.keyboardCap)
    (ho : con.length ≤ cfg.consoleCap) (io : List Bool) (calls : List HostCall) (agenda : List Move) :
    (State.initial cfg backing io file kb con calls agenda).Inv :=
  ⟨hc, memInv_empty cfg _ hb rfl rfl, hf, hk, ho, Nat.le_refl 0, fun h => absurd rfl h⟩

theorem keepsInv_reboot {s : State} (h : s.Inv) (image dtb cmdline : List Byte) :
    KeepsInv (s.reboot image dtb cmdline) := by
  unfold State.reboot
  split
  · have hi := State.Inv.initial h.cfg_wf (bootStore_wf s.cfg h.mem_inv.backing_wf image dtb cmdline) h.file_wf
      h.kb_cap h.con_cap s.mem.io s.calls s.agenda
    exact .next (hi.same rfl rfl rfl rfl rfl rfl)
  · exact .refused _

/-! ### The moves of the other agents (R133, R471, R501) -/

theorem State.Inv.cacheReset {s : State} (h : s.Inv) (hv : s.cfg.variant = .setAssoc) :
    ({ s with mem := Machine.cacheReset s.mem } : State).Inv := by
  refine h.withMem rfl ?_
  simp only [MemInv, hv]
  exact cacheInv_empty _ _ h.mem_inv.backing_wf rfl

theorem State.Inv.addKey {s : State} (h : s.Inv) (b : Byte) (hb : s.kb.length < s.cfg.keyboardCap) :
    ({ s with kb := s.kb ++ [b] } : State).Inv :=
  h.of_parts rfl h.mem_inv h.file_wf (by simpa using hb) h.con_cap h.remaining_le h.running_open

theorem State.Inv.drain {s : State} (h : s.Inv) : ({ s with con := s.con.tail } : State).Inv :=
  h.of_parts rfl h.mem_inv h.file_wf h.kb_cap (by simpa using Nat.le_succ_of_le h.con_cap) h.remaining_le h.running_open

theorem keepsInv_envMove {s : State} (h : s.Inv) (m : Move) : KeepsInv (s.envMove m) := by
  cases m with
  | core => exact .next h
  | key b =>
    refine .next ?_
    split
    · next hb => exact h.addKey b hb
    · exact h
  | drain => exact .next h.drain
  | cacheReset =>
    refine .next ?_
    split
    · next hv => exact h.cacheReset hv.2
    · exact h
  | reboot image dtb cmdline =>
    unfold State.envMove
    dsimp only
    split
    · exact keepsInv_reboot h image dtb cmdline
    · exact .next h

/-! ### An attempt (`60_exceptions.md` R406) -/

theorem State.Inv.fetch {s t : State} {ir : Word} (h : s.Inv) (hf : s.fetch = .word ir t) : t.Inv := by
  unfold State.fetch at hf
  split at hf
  · split at hf
    · split at hf
      · cases hf
      · next hr => cases hf; exact h.memRead hr
    · cases hf
  · cases hf

theorem State.Inv.settle {s : State} (h : s.Inv) : s.settle.Inv := by
  unfold State.settle
  split
  · exact h
  · split
    · exact h.endCallCounted
    · next h0 _ =>
      exact h.of_parts rfl h.mem_inv h.file_wf h.kb_cap h.con_cap ((Nat.sub_le _ _).trans h.remaining_le)
        fun _ => h.running_open h0

theorem KeepsInv.settle {r : Result} (h : KeepsInv r) : KeepsInv (settleResult r) := by
  cases r with
  | next t => exact .next (h t rfl).settle
  | fault f => exact .fault f
  | refused r => exact .refused r

theorem keepsInv_illegal {s : State} (h : s.Inv) : KeepsInv s.illegal := .next (h.raiseTrap _ _)

theorem keepsInv_reservedLoad {s : State} (h : s.Inv) (rs1 : Reg) (imm : BitVec 12) :
    KeepsInv (s.reservedLoad rs1 imm) := by
  unfold State.reservedLoad
  dsimp only
  split
  · exact .next (h.raiseTrap _ _)
  · exact .refused _
  · exact keepsInv_illegal h

theorem keepsInv_reservedStore {s : State} (h : s.Inv) (rs1 : Reg) (imm : BitVec 12) :
    KeepsInv (s.reservedStore rs1 imm) := by
  unfold State.reservedStore
  dsimp only
  split
  · exact .next (h.raiseTrap _ _)
  · exact .refused _
  · exact keepsInv_illegal h

/-- No rejected word breaks the invariant (`30_encoding.md` R188). -/
theorem keepsInv_execRejected {s : State} (h : s.Inv) (r : Reject) : KeepsInv (execRejected r s) := by
  cases r with
  | loadWidth _ _ rs1 imm => exact keepsInv_reservedLoad h rs1 imm
  | storeWidth _ rs1 imm => exact keepsInv_reservedStore h rs1 imm
  | amoFunct5 _ rs1 => exact keepsInv_atomic h fun _ _ ht => keepsInv_illegal ht
  | majorOpcode _ => exact keepsInv_illegal h
  | branchFunct3 _ => exact keepsInv_illegal h
  | systemFunct3 => exact keepsInv_illegal h
  | systemFunct12 _ => exact keepsInv_illegal h
  | truncated => exact keepsInv_illegal h

theorem keepsInv_runWord {s : State} (h : s.Inv) (ir : Word) : KeepsInv (s.runWord ir) := by
  unfold State.runWord
  split
  · exact keepsInv_exec h _
  · exact keepsInv_execRejected h _

theorem keepsInv_attempt {s : State} (h : s.Inv) : KeepsInv s.attempt := by
  have hc : s.countAttempt.Inv :=
    h.of_parts rfl h.mem_inv h.file_wf h.kb_cap h.con_cap h.remaining_le h.running_open
  unfold State.attempt
  dsimp only
  split
  · exact (KeepsInv.next (hc.raiseTrap _ _)).settle
  · exact .fault _
  · next hf => exact (keepsInv_runWord (hc.fetch hf) _).settle

/-! ### The start of a call (`60_exceptions.md` R402 to R406) -/

theorem State.Inv.accountIdle {s : State} (h : s.Inv) : s.accountIdle.Inv := by
  unfold State.accountIdle
  split
  · exact h.same rfl rfl rfl rfl rfl rfl
  · exact h

theorem State.Inv.nextCall {s : State} (h : s.Inv) : s.nextCall.2.Inv := by
  unfold State.nextCall
  split
  · exact h
  · exact h.same rfl rfl rfl rfl rfl rfl

theorem State.Inv.openCall {s : State} (h : s.Inv) (c : HostCall) : (s.openCall c).Inv :=
  h.of_parts rfl h.mem_inv h.file_wf h.kb_cap h.con_cap (Nat.le_refl _) fun _ => rfl

theorem State.Inv.sampleTimer {s : State} (h : s.Inv) : s.sampleTimer.Inv := h.same rfl rfl rfl rfl rfl rfl

/-- However the start of a call goes on, the state it leaves is good. -/
def CallStart.Good : CallStart → Prop
  | .ended t => t.Inv
  | .running t => t.Inv

theorem State.Inv.dispatchCall {s : State} (h : s.Inv) : s.dispatchCall.Good := by
  unfold State.dispatchCall
  split
  · exact h.endCall 1
  · split
    · exact (h.takeTrap _ _ _).endCall 0
    · split
      · exact h.endCallCounted
      · exact h

theorem State.Inv.beginCall {s : State} (h : s.Inv) : s.beginCall.Good :=
  (h.accountIdle.nextCall.openCall _).sampleTimer.dispatchCall

theorem keepsInv_coreStep {s : State} (h : s.Inv) : KeepsInv s.coreStep := by
  have hb := h.beginCall
  unfold State.coreStep
  split
  · exact keepsInv_attempt h
  · split
    · exact .next h
    · split
      · next he => rw [he] at hb; exact .next hb
      · next hr => rw [hr] at hb; exact keepsInv_attempt hb

theorem keepsInv_step {s : State} (h : s.Inv) : KeepsInv (step s) := by
  have hrest : ∀ rest, ({ s with agenda := rest } : State).Inv := fun _ => h.same rfl rfl rfl rfl rfl rfl
  unfold step
  split
  · exact keepsInv_coreStep h
  · exact keepsInv_coreStep (hrest _)
  · exact keepsInv_envMove (hrest _) _

/-- Settles O3: each move of the hart, the console task and the host keeps the invariant. -/
theorem stepKeepsInvariant : Obligations.StepKeepsInvariant :=
  fun _ t hs ht => keepsInv_step hs t ht

/-- Settles O2: the reset state is a state of R80 with legal parameters and nothing listed. -/
theorem invariantAtReset : Obligations.InvariantAtReset :=
  ⟨rfl, State.Inv.initial Config.default_wf rfl rfl (Nat.zero_le _) (Nat.zero_le _) [] [] []⟩

end Sys2Proof.Machine

namespace Sys2Proof.Machine

/-! ### What an instruction leaves of the timers, the WFI flag and the reservation tag -/

/-- The parameters, the timers, the host's coming moves, the WFI flag and the reservation tag are as before. -/
structure TimeAndFlagsKept (s t : State) : Prop where
  cfg : t.cfg = s.cfg
  mtime : t.mtime = s.mtime
  mtimecmp : t.mtimecmp = s.mtimecmp
  calls : t.calls = s.calls
  agenda : t.agenda = s.agenda
  wfi : t.ef.wfi = s.ef.wfi
  res : t.ef.res = s.ef.res

theorem TimeAndFlagsKept.refl (s : State) : TimeAndFlagsKept s s := ⟨rfl, rfl, rfl, rfl, rfl, rfl, rfl⟩

theorem TimeAndFlagsKept.of_mem {s t : State} (h : t = { s with mem := t.mem }) : TimeAndFlagsKept s t := by
  rw [h]; exact ⟨rfl, rfl, rfl, rfl, rfl, rfl, rfl⟩

theorem TimeAndFlagsKept.of_csrKept {s t : State} (h : CsrKept s t) : TimeAndFlagsKept s t :=
  ⟨h.cfg, h.mtime, h.mtimecmp, h.calls, h.agenda, by rw [h.ef], by rw [h.ef]⟩

theorem TimeAndFlagsKept.trans {s t u : State} (h : TimeAndFlagsKept s t) (h' : TimeAndFlagsKept t u) :
    TimeAndFlagsKept s u :=
  ⟨h'.cfg.trans h.cfg, h'.mtime.trans h.mtime, h'.mtimecmp.trans h.mtimecmp, h'.calls.trans h.calls,
    h'.agenda.trans h.agenda, h'.wfi.trans h.wfi, h'.res.trans h.res⟩

theorem TimeAndFlagsKept.advance (s : State) : TimeAndFlagsKept s s.advance := ⟨rfl, rfl, rfl, rfl, rfl, rfl, rfl⟩

theorem TimeAndFlagsKept.finish {s t : State} (h : TimeAndFlagsKept s t) (rd : Reg) (v : Word) :
    TimeAndFlagsKept s (t.finish rd v) := by
  constructor <;> simp [h.cfg, h.mtime, h.mtimecmp, h.calls, h.agenda, h.wfi, h.res]

theorem TimeAndFlagsKept.finishAt (s : State) (rd : Reg) (v npc : Word) : TimeAndFlagsKept s (s.finishAt rd v npc) := by
  constructor <;> simp

theorem TimeAndFlagsKept.raiseTrap (s : State) (cause tval : Word) :
    TimeAndFlagsKept s (s.raiseTrap cause tval) := by
  unfold State.raiseTrap
  split <;> exact ⟨rfl, rfl, rfl, rfl, rfl, rfl, rfl⟩

theorem TimeAndFlagsKept.offer (s : State) (b : Byte) : TimeAndFlagsKept s (s.offer b) := by
  rw [State.offer_spec]; exact ⟨rfl, rfl, rfl, rfl, rfl, rfl, rfl⟩

theorem TimeAndFlagsKept.mmioRead (s : State) (a : Word) : TimeAndFlagsKept s (s.mmioRead a).2 := by
  rw [State.mmioRead_spec]
  split <;> exact ⟨rfl, rfl, rfl, rfl, rfl, rfl, rfl⟩

/-- A device store keeps them, but for mtimecmp at the addresses of its two halves (R110). -/
theorem mmioStore_timeAndFlags (s : State) (a v : Word) :
    TimeAndFlagsKept s (s.mmioStore a v) ∨ ((a = s.cfg.mtimecmpLo ∨ a = s.cfg.mtimecmpHi) ∧
      ∃ x, TimeAndFlagsKept { s with mtimecmp := x } (s.mmioStore a v)) := by
  unfold State.mmioStore
  split
  · exact .inl ((TimeAndFlagsKept.offer s _).trans (.advance _))
  · split
    · next hlo => exact .inr ⟨.inl hlo, _, .advance _⟩
    · split
      · next hhi => exact .inr ⟨.inr hhi, _, .advance _⟩
      · split
        · exact .inl ⟨rfl, rfl, rfl, rfl, rfl, rfl, rfl⟩
        · exact .inl (.advance s)

/-! ### What each shape of instruction leaves -/

/-- A result that, if it is a next state, is one with the property. -/
def Leaves (P : State → Prop) (r : Result) : Prop := ∀ t, r = .next t → P t

theorem Leaves.next {P : State → Prop} {t : State} (h : P t) : Leaves P (.next t) := fun u hu => by cases hu; exact h

theorem Leaves.fault {P : State → Prop} (f : Fault) : Leaves P (.fault f) := fun u hu => by cases hu

theorem load_keepsTimeAndFlags {s : State} (k : LoadWidth) (rd rs1 : Reg) (imm : BitVec 12) :
    Leaves (TimeAndFlagsKept s) (s.load k rd rs1 imm) := by
  unfold State.load
  dsimp only
  split
  · exact .next (.raiseTrap s _ _)
  · exact .next ((TimeAndFlagsKept.mmioRead s _).finish _ _)
  · split
    · exact .fault _
    · next ht => exact .next ((TimeAndFlagsKept.of_mem (State.memRead_kept ht)).finish _ _)

/-- An atomic traps, or goes on after a read that changes the hierarchy alone (R310). -/
theorem leaves_atomic {P : State → Prop} {s : State} {rs1 : Reg} {k : Word → State → Result}
    (htrap : P (s.raiseTrap 7 (s.readReg rs1))) (hk : ∀ old t, t = { s with mem := t.mem } → Leaves P (k old t)) :
    Leaves P (s.atomic rs1 k) := by
  unfold State.atomic
  dsimp only
  split
  · split
    · exact .fault _
    · next old t ht => exact hk old t (State.memRead_kept ht)
  · exact .next htrap

/-- The end of an atomic that stores a word. -/
theorem memWrite_finish_keepsTimeAndFlags {s t : State} (ht : t = { s with mem := t.mem }) (a v : Word) (rd : Reg)
    (old : Word) :
    Leaves (TimeAndFlagsKept s) (match t.memWrite a 4 v with
      | .error e => .fault e
      | .ok u => .next (u.finish rd old)) := by
  split
  · exact .fault _
  · next u hu =>
    exact .next ((TimeAndFlagsKept.of_mem ht).trans ((TimeAndFlagsKept.of_mem (State.memWrite_kept hu)).finish _ _))

theorem amo_keepsTimeAndFlags {s : State} (rd rs1 rs2 : Reg) (f : Word → Word → Word) :
    Leaves (TimeAndFlagsKept s) (s.amo rd rs1 rs2 f) :=
  leaves_atomic (.raiseTrap s _ _) fun _ _ ht => memWrite_finish_keepsTimeAndFlags ht _ _ _ _

theorem scW_keepsTimeAndFlags {s : State} (aq rl : Bool) (rd rs1 rs2 : Reg) :
    Leaves (TimeAndFlagsKept s) (execScW aq rl rd rs1 rs2 s) := by
  refine leaves_atomic (.raiseTrap s _ _) fun _ t ht => ?_
  split
  · exact memWrite_finish_keepsTimeAndFlags ht _ _ _ _
  · exact .next ((TimeAndFlagsKept.of_mem ht).finish _ _)

theorem csrOp_keepsTimeAndFlags {s : State} (rd : Reg) (n : CsrNum) (f : Word → Word) :
    Leaves (TimeAndFlagsKept s) (s.csrOp rd n f) := by
  intro t ht
  obtain ⟨u, hu, rfl⟩ := State.csrOp_next ht
  exact (TimeAndFlagsKept.of_csrKept hu).finish _ _

/-- What an instruction that completes changes of the timers and flags: nothing, or the one field the constructor names
(`10_state.md` R42, R43, R46). -/
inductive TimeAndFlagsAfter (i : Instr) (s t : State) : Prop where
  | kept (h : TimeAndFlagsKept s t)
  | timer (rs1 rs2 : Reg) (imm : BitVec 12) (hi : i = .sb rs1 rs2 imm ∨ i = .sh rs1 rs2 imm ∨ i = .sw rs1 rs2 imm)
      (ha : s.ea rs1 imm = s.cfg.mtimecmpLo ∨ s.ea rs1 imm = s.cfg.mtimecmpHi) (v : DWord)
      (h : TimeAndFlagsKept { s with mtimecmp := v } t)
  | slept (hi : i = .wfi) (h : TimeAndFlagsKept { s with ef.wfi := true } t)
  | reserved (aq rl : Bool) (rd rs1 : Reg) (hi : i = .lrW aq rl rd rs1) (r : BitVec 29)
      (h : TimeAndFlagsKept { s with ef.res := r } t)

theorem Leaves.kept {i : Instr} {s : State} {r : Result} (h : Leaves (TimeAndFlagsKept s) r) :
    Leaves (TimeAndFlagsAfter i s) r := fun t ht => .kept (h t ht)

theorem store_timeAndFlags {i : Instr} {s : State} (k : StoreWidth) {rs1 rs2 : Reg} {imm : BitVec 12}
    (hi : i = .sb rs1 rs2 imm ∨ i = .sh rs1 rs2 imm ∨ i = .sw rs1 rs2 imm) :
    Leaves (TimeAndFlagsAfter i s) (s.store k rs1 rs2 imm) := by
  unfold State.store
  dsimp only
  split
  · exact .next (.kept (.raiseTrap s _ _))
  · rcases mmioStore_timeAndFlags s (s.ea rs1 imm) (s.readReg rs2) with h | ⟨ha, v, h⟩
    · exact .next (.kept h)
    · exact .next (.timer rs1 rs2 imm hi ha v h)
  · split
    · exact .fault _
    · next ht => exact .next (.kept ((TimeAndFlagsKept.of_mem (State.memWrite_kept ht)).trans (.advance _)))

theorem lrW_timeAndFlags {s : State} (aq rl : Bool) (rd rs1 : Reg) :
    Leaves (TimeAndFlagsAfter (.lrW aq rl rd rs1) s) (execLrW aq rl rd rs1 s) := by
  refine leaves_atomic (.kept (.raiseTrap s _ _)) fun old t ht => .next ?_
  refine .reserved aq rl rd rs1 rfl (resTag s.cfg (s.readReg rs1)) (TimeAndFlagsKept.finish ?_ rd old)
  rw [ht]
  exact .of_mem rfl

theorem exec_timeAndFlags (i : Instr) (s : State) : Leaves (TimeAndFlagsAfter i s) (exec i s) := by
  have hs := exec_shape i s
  generalize exec i s = r at hs ⊢
  cases hs with
  | finish rd v => exact .next (.kept ((TimeAndFlagsKept.refl s).finish rd v))
  | jump rd v npc => exact .next (.kept (.finishAt s rd v npc))
  | goto npc => exact .next (.kept ⟨rfl, rfl, rfl, rfl, rfl, rfl, rfl⟩)
  | load k rd rs1 imm => exact (load_keepsTimeAndFlags k rd rs1 imm).kept
  | store k rs1 rs2 imm hi => exact store_timeAndFlags k hi
  | raise cause => exact .next (.kept (.raiseTrap s _ _))
  | mret _ => exact .next (.kept ⟨rfl, rfl, rfl, rfl, rfl, rfl, rfl⟩)
  | wfi hi => exact .next (.slept hi ⟨rfl, rfl, rfl, rfl, rfl, rfl, rfl⟩)
  | csrOp rd n f => exact (csrOp_keepsTimeAndFlags rd n f).kept
  | lr aq rl rd rs1 hi => subst hi; exact lrW_timeAndFlags aq rl rd rs1
  | sc aq rl rd rs1 rs2 => exact (scW_keepsTimeAndFlags aq rl rd rs1 rs2).kept
  | amo rd rs1 rs2 f => exact (amo_keepsTimeAndFlags rd rs1 rs2 f).kept

/-- Settles O37: the one case of `exec_timeAndFlags` that changes the tag is LR.W's. -/
theorem onlyLoadReservedSetsTag : Obligations.OnlyLoadReservedSetsTag := by
  intro i s t ht hlr
  cases exec_timeAndFlags i s t ht with
  | kept h => exact h.res
  | timer _ _ _ _ _ _ h => exact h.res
  | slept _ h => exact h.res
  | reserved aq rl rd rs1 hi _ _ => exact absurd hi (hlr aq rl rd rs1)

/-- Settles O52: WFI sets the flag, and no other case of `exec_timeAndFlags` changes it. -/
theorem onlyWfiSleeps : Obligations.OnlyWfiSleeps := by
  intro i s t ht
  by_cases hw : i = .wfi
  · rw [if_pos hw]
    rw [hw, exec_wfi] at ht
    cases ht
    rfl
  · rw [if_neg hw]
    cases exec_timeAndFlags i s t ht with
    | kept h => exact h.wfi
    | timer _ _ _ _ _ _ h => exact h.wfi
    | slept hi _ => exact absurd hi hw
    | reserved _ _ _ _ _ _ h => exact h.wfi

/-- Settles O53: the one case of `exec_timeAndFlags` that changes mtimecmp is that of a store to one of its halves. -/
theorem timeIsTheHosts : Obligations.TimeIsTheHosts := by
  intro i s t ht
  cases exec_timeAndFlags i s t ht with
  | kept h => exact ⟨h.mtime, h.cfg, h.calls, h.agenda, .inl h.mtimecmp⟩
  | timer rs1 rs2 imm hi ha _ h => exact ⟨h.mtime, h.cfg, h.calls, h.agenda, .inr ⟨rs1, rs2, imm, hi, ha⟩⟩
  | slept _ h => exact ⟨h.mtime, h.cfg, h.calls, h.agenda, .inl h.mtimecmp⟩
  | reserved _ _ _ _ _ _ h => exact ⟨h.mtime, h.cfg, h.calls, h.agenda, .inl h.mtimecmp⟩

end Sys2Proof.Machine

namespace Sys2Proof.Machine

/-! ### CSR numbers without a stored value (`10_state.md` R52, R53, R61 to R65) -/

/-- A read of a number that is none of the eight stored CSRs and not CSR_CONSOLE_IN changes nothing (R340). -/
theorem csrRead_unstored {s : State} {n : CsrNum}
    (hs : n ∉ [0x300#12, 0x304#12, 0x305#12, 0x340#12, 0x341#12, 0x342#12, 0x343#12, 0x344#12])
    (hin : n ≠ s.cfg.csrConsoleIn) :
    s.csrRead n = (if n = 0x301#12 then s.cfg.misa
      else if n = 0xC00#12 then s.call.cyc.extractLsb' 0 32
      else if n = 0xF11#12 then s.cfg.mvendorid
      else if n = s.cfg.csrBlkSize then BitVec.ofNat 32 s.cfg.blkDevSize
      else if n = s.cfg.csrBlkErr then s.blk.err
      else 0, s) := by
  simp only [List.mem_cons, List.not_mem_nil, or_false, not_or] at hs
  simp only [State.csrRead, hs, hin, if_false]
  rw [BitVec.setWidth_eq_extractLsb' (by decide)]
  split_ifs <;> rfl

/-- A write of a number that is none of the eight stored CSRs and has no device behind it is ignored (R341). -/
theorem csrWrite_ignored {s : State} {n : CsrNum}
    (hs : n ∉ [0x300#12, 0x304#12, 0x305#12, 0x340#12, 0x341#12, 0x342#12, 0x343#12, 0x344#12])
    (hd : n ∉ [s.cfg.csrConsoleOut, s.cfg.csrBlkPtr, s.cfg.csrBlkOff, s.cfg.csrBlkLen, s.cfg.csrBlkGo]) (v : Word) :
    s.csrWrite n v = .ok s := by
  simp only [List.mem_cons, List.not_mem_nil, or_false, not_or] at hs hd
  simp only [State.csrWrite, hs, hd, if_false, ite_self]

/-- Settles O43: such a number reads as `csrRead_unstored` says, and the write back is ignored. -/
theorem readOnlyCsrs : Obligations.ReadOnlyCsrs := by
  intro s rd rs1 uimm n _ hs hd q hq
  simp only [List.mem_cons, List.not_mem_nil, or_false, not_or] at hd
  obtain ⟨hout, hin, hptr, hoff, hlen, hgo⟩ := hd
  have hw : ∀ v, s.csrWrite n v = .ok s := csrWrite_ignored hs (by simp [hout, hptr, hoff, hlen, hgo])
  exact completes_finish ((exec_csrForms hq).trans (csrOp_completes (csrRead_unstored hs hin) (hw _))) rfl

/-! ### The console CSRs (R62) -/

/-- An offer leaves the queue R440 says, and nothing else changed. -/
theorem offer_queueAfter (s : State) (b : Byte) : s.offer b = { s with con := queueAfter s b } := State.offer_spec s b

theorem takeKey_keyAnswer (s : State) : s.takeKey = (keyAnswer s, { s with kb := s.kb.tail }) := State.takeKey_spec s

/-- The console numbers are none of the other custom numbers (`00_scope.md` R8). -/
theorem console_distinct {c : Config} (h : c.Wf) :
    (c.csrConsoleOut ≠ c.csrConsoleIn ∧ c.csrConsoleOut ≠ c.csrBlkSize ∧ c.csrConsoleOut ≠ c.csrBlkErr) ∧
    (c.csrConsoleIn ≠ c.csrConsoleOut ∧ c.csrConsoleIn ≠ c.csrBlkPtr ∧ c.csrConsoleIn ≠ c.csrBlkOff ∧
      c.csrConsoleIn ≠ c.csrBlkLen ∧ c.csrConsoleIn ≠ c.csrBlkGo) := by
  have hd := customCsrs_nodup h
  simp only [Config.customCsrs, List.nodup_cons, List.mem_cons, List.not_mem_nil, not_or, or_false] at hd
  tauto

theorem csrRead_consoleOut {s : State} (h : s.cfg.Wf) : s.csrRead s.cfg.csrConsoleOut = (0, s) := by
  obtain ⟨hin, hsize, herr⟩ := (console_distinct h).1
  rw [csrRead_custom h (by simp [Config.customCsrs]), if_neg hin, if_neg hsize, if_neg herr]

theorem csrWrite_consoleOut {s : State} (h : s.cfg.Wf) (v : Word) :
    s.csrWrite s.cfg.csrConsoleOut v = .ok (s.offer (v.setWidth 8)) := by
  rw [csrWrite_custom h (by simp [Config.customCsrs]), if_pos rfl]

theorem csrRead_consoleIn {s : State} (h : s.cfg.Wf) : s.csrRead s.cfg.csrConsoleIn = s.takeKey := by
  rw [csrRead_custom h (by simp [Config.customCsrs]), if_pos rfl]

theorem csrWrite_consoleIn {s : State} (h : s.cfg.Wf) (v : Word) : s.csrWrite s.cfg.csrConsoleIn v = .ok s := by
  obtain ⟨hout, hptr, hoff, hlen, hgo⟩ := (console_distinct h).2
  rw [csrWrite_custom h (by simp [Config.customCsrs]), if_neg hout, if_neg hptr, if_neg hoff, if_neg hlen, if_neg hgo]

/-- Settles O44: the sequence of R342 on the two console numbers. -/
theorem consoleCsrs : Obligations.ConsoleCsrs := by
  intro s rd rs1 uimm h
  constructor
  · intro q hq
    have hrun := csrOp_completes (rd := rd) (csrRead_consoleOut h) (csrWrite_consoleOut h (q.2 0))
    rw [offer_queueAfter, BitVec.setWidth_eq_extractLsb' (by decide)] at hrun
    exact completes_finish_of ((exec_csrForms hq).trans hrun) rfl rfl rfl
  · intro q hq
    have hread := (csrRead_consoleIn h).trans (takeKey_keyAnswer s)
    have hwrite : ({ s with kb := s.kb.tail } : State).csrWrite s.cfg.csrConsoleIn (q.2 (keyAnswer s)) = .ok _ :=
      csrWrite_consoleIn (s := { s with kb := s.kb.tail }) h _
    exact completes_finish_of ((exec_csrForms hq).trans (csrOp_completes hread hwrite)) rfl rfl rfl

end Sys2Proof.Machine

namespace Sys2Proof.Machine

/-! ### What a CSR instruction does in another privilege (`10_state.md` R65)

Each operation a CSR instruction is made of gives, from the state with another PRIV, the same answer and the same state
with that PRIV. -/

section Privilege

/-- The state with another PRIV. -/
def State.withPriv (p : BitVec 2) (s : State) : State := { s with ef := { s.ef with priv := p } }

variable (p : BitVec 2) (s : State)

@[simp] theorem State.withPriv_cfg : (s.withPriv p).cfg = s.cfg := rfl
@[simp] theorem State.withPriv_mem : (s.withPriv p).mem = s.mem := rfl
@[simp] theorem State.withPriv_blk : (s.withPriv p).blk = s.blk := rfl
@[simp] theorem State.withPriv_kb : (s.withPriv p).kb = s.kb := rfl
@[simp] theorem State.withPriv_fileIo : (s.withPriv p).fileIo = (s.fileIo.1, s.fileIo.2.withPriv p) := rfl

theorem State.memRead_withPriv (a : Word) (n : Nat) :
    (s.withPriv p).memRead a n = (s.memRead a n).map (Prod.map id (State.withPriv p)) := by
  simp only [State.memRead, State.withPriv_cfg, State.withPriv_mem]
  cases s.mem.read s.cfg (ofs s.cfg a).toNat n <;> rfl

theorem State.memWrite_withPriv (a : Word) (n : Nat) (v : Word) :
    (s.withPriv p).memWrite a n v = (s.memWrite a n v).map (State.withPriv p) := by
  simp only [State.memWrite, State.withPriv_cfg, State.withPriv_mem]
  cases s.mem.write s.cfg (ofs s.cfg a).toNat n v <;> rfl

theorem State.storeWords_withPriv : ∀ (bytes : List Byte) (s : State) (a : Word),
    (s.withPriv p).storeWords a bytes = (s.storeWords a bytes).map (State.withPriv p)
  | b0 :: b1 :: b2 :: b3 :: rest, s, a => by
    rw [State.storeWords_cons, State.storeWords_cons, State.memWrite_withPriv]
    cases s.memWrite a 4 (leWord [b0, b1, b2, b3]) with
    | error f => rfl
    | ok t => exact State.storeWords_withPriv rest t (a + 4)
  | [], _, _ => rfl
  | [_], _, _ => rfl
  | [_, _], _, _ => rfl
  | [_, _, _], _, _ => rfl

theorem State.loadWords_withPriv (a : Word) (k : Nat) :
    (s.withPriv p).loadWords a k = (s.loadWords a k).map (Prod.map id (State.withPriv p)) := by
  induction k generalizing s a with
  | zero => rfl
  | succ k ih =>
    simp only [State.loadWords, State.memRead_withPriv]
    cases s.memRead a 4 with
    | error f => rfl
    | ok r =>
      simp only [Except.map, Prod.map, id, ih]
      cases r.2.loadWords (a + 4) k <;> rfl

theorem State.sectorRead_withPriv (a : Word) (n : Nat) :
    (s.withPriv p).sectorRead a n = (s.sectorRead a n).map (Option.map (State.withPriv p)) := by
  simp only [State.sectorRead, State.withPriv_fileIo, State.withPriv_blk, State.storeWords_withPriv]
  cases s.fileIo.1 with
  | true => rfl
  | false => cases s.fileIo.2.storeWords a (s.fileIo.2.blk.file.getN s.fileIo.2.blk.pos.toNat n) <;> rfl

theorem State.sectorWrite_withPriv (a : Word) (n : Nat) :
    (s.withPriv p).sectorWrite a n = (s.sectorWrite a n).map (Prod.map id (State.withPriv p)) := by
  simp only [State.sectorWrite, State.loadWords_withPriv]
  cases s.loadWords a (n / 4) with
  | error f => rfl
  | ok r =>
    show (if r.2.fileIo.1 = true then _ else _) = Except.map _ (if r.2.fileIo.1 = true then _ else _)
    split <;> rfl

theorem State.readLoop_withPriv (a : Word) (rem fuel : Nat) :
    (s.withPriv p).readLoop a rem fuel = (s.readLoop a rem fuel).map (Prod.map id (State.withPriv p)) := by
  induction fuel generalizing s a rem with
  | zero => rfl
  | succ fuel ih =>
    simp only [State.readLoop, State.withPriv_cfg, State.sectorRead_withPriv]
    split
    · rfl
    · rcases s.sectorRead a (min s.cfg.sectorSize rem) with f | _ | t
      · rfl
      · rfl
      · exact ih (t.advancePos _) _ _

theorem State.writeLoop_withPriv (a : Word) (rem fuel : Nat) :
    (s.withPriv p).writeLoop a rem fuel = (s.writeLoop a rem fuel).map (Prod.map id (State.withPriv p)) := by
  induction fuel generalizing s a rem with
  | zero => rfl
  | succ fuel ih =>
    simp only [State.writeLoop, State.withPriv_cfg, State.sectorWrite_withPriv]
    split
    · rfl
    · rcases s.sectorWrite a (min s.cfg.sectorSize rem) with f | ⟨_ | _, t⟩
      · rfl
      · exact ih (t.advancePos _) _ _
      · rfl

theorem State.blkTransfer_withPriv (d : Word) :
    (s.withPriv p).blkTransfer d = (s.blkTransfer d).map (State.withPriv p) := by
  have hr : (s.withPriv p).blkRefusal d = s.blkRefusal d := rfl
  have hn : (s.withPriv p).sectors = s.sectors := rfl
  unfold State.blkTransfer
  rw [hr]
  cases s.blkRefusal d with
  | some r => rfl
  | none =>
    simp only [hn, State.withPriv_blk, State.readLoop_withPriv, State.writeLoop_withPriv]
    by_cases hd : d = 0
    · simp only [if_pos hd]
      cases s.readLoop s.blk.ptr s.blk.len.toNat s.sectors <;> rfl
    · simp only [if_neg hd]
      cases s.writeLoop s.blk.ptr s.blk.len.toNat s.sectors <;> rfl

theorem State.offer_withPriv (b : Byte) : (s.withPriv p).offer b = (s.offer b).withPriv p := by
  rw [State.offer_spec, State.offer_spec]; rfl

theorem State.csrRead_withPriv (n : CsrNum) :
    (s.withPriv p).csrRead n = Prod.map id (State.withPriv p) (s.csrRead n) := by
  have hk : (s.withPriv p).takeKey = Prod.map id (State.withPriv p) s.takeKey := by
    rw [State.takeKey_spec, State.takeKey_spec]; rfl
  unfold State.csrRead
  rw [hk]
  simp only [apply_ite (Prod.map id (State.withPriv p))]
  rfl

theorem State.csrWrite_withPriv (n : CsrNum) (v : Word) :
    (s.withPriv p).csrWrite n v = (s.csrWrite n v).map (State.withPriv p) := by
  unfold State.csrWrite
  rw [State.offer_withPriv, State.blkTransfer_withPriv]
  simp only [apply_ite (Except.map (State.withPriv p))]
  rfl

theorem State.finish_withPriv (rd : Reg) (v : Word) : (s.withPriv p).finish rd v = (s.finish rd v).withPriv p := by
  unfold State.finish State.writeReg
  split <;> rfl

/-- The same result with another PRIV in its next state. -/
def resultWithPriv (p : BitVec 2) (r : Result) : Result :=
  match r with
  | .next t => .next (t.withPriv p)
  | .fault f => .fault f
  | .refused r => .refused r

theorem State.csrOp_withPriv (rd : Reg) (n : CsrNum) (f : Word → Word) :
    (s.withPriv p).csrOp rd n f = resultWithPriv p (s.csrOp rd n f) := by
  unfold State.csrOp
  rw [State.csrRead_withPriv]
  simp only [Prod.map, id, State.csrWrite_withPriv]
  cases (s.csrRead n).2.csrWrite n (f (s.csrRead n).1) with
  | error e => cases e <;> rfl
  | ok t => exact congrArg Host.Outcome.next (State.finish_withPriv p t rd _)

end Privilege

/-- Settles O50: the six CSR instructions are the sequence of R342, which does not look at PRIV. -/
theorem csrIgnoresPrivilege : Obligations.CsrIgnoresPrivilege := by
  intro s rd rs1 uimm n p q hq
  have hq' : q ∈ csrForms (s.withPriv p) rd rs1 uimm n := hq
  have h := (exec_csrForms hq').trans (State.csrOp_withPriv p s rd n q.2)
  rw [← exec_csrForms hq] at h
  exact h

end Sys2Proof.Machine

namespace Sys2Proof.Machine

/-! ### Bytes of a value of the image (`20_memory.md` R113, R131) -/

/-- The bit of a value of the image: bit `i % 8` of the byte `i / 8`, and zero past the bytes read. -/
theorem Mem.getLsbD_value (c : Config) (m : Mem) (o n i : Nat) (hi : i < 32) :
    (m.value c o n).getLsbD i = if i / 8 < n then (m.byte c (o + i / 8)).getLsbD (i % 8) else false := by
  rw [Mem.value, getLsbD_leWord _ _ hi]
  split
  · next h => simp [List.getD_eq_getElem?_getD, List.getElem?_range h]
  · next h => simp [List.getD_eq_getElem?_getD, Nat.le_of_not_lt h]

theorem Mem.extractLsb'_value (c : Config) (m : Mem) (o : Nat) {n k : Nat} (hn : n ≤ 4) (hk : k < n) :
    (m.value c o n).extractLsb' (8 * k) 8 = m.byte c (o + k) := by
  ext i hi
  simp only [← BitVec.getLsbD_eq_getElem]
  rw [BitVec.getLsbD_extractLsb', Mem.getLsbD_value _ _ _ _ _ (by omega), show (8 * k + i) / 8 = k by omega,
    show (8 * k + i) % 8 = i by omega]
  simp [hi, hk]

theorem Mem.getLsbD_value_past (c : Config) (m : Mem) (o : Nat) {n i : Nat} (hi : 8 * n ≤ i) :
    (m.value c o n).getLsbD i = false := by
  by_cases h32 : i < 32
  · rw [Mem.getLsbD_value _ _ _ _ _ h32, if_neg (by omega)]
  · exact BitVec.getLsbD_of_ge _ _ (by omega)

/-- Settles O29, from what a completed read and a completed write of the hierarchy in use do. -/
theorem cacheTransparency : Obligations.CacheTransparency := by
  intro c m m' o n v hm hb hn
  refine ⟨fun hr => ?_, fun hw => ?_⟩
  · obtain ⟨rfl, hA⟩ := Mem.read_spec hm hb hr
    exact ⟨fun k hk => Mem.extractLsb'_value c m o hn hk, fun i hi => Mem.getLsbD_value_past c m o hi, hA.byte,
      hA.inv⟩
  · have hA := Mem.write_spec hm hb hw
    refine ⟨fun k hk => ?_, fun x hx => ?_, hA.inv⟩
    · rw [hA.byte, if_pos (by omega), shift_setWidth_byte, Nat.add_sub_cancel_left]
    · rw [hA.byte, if_neg hx]

/-! ### A miss of the set-associative cache (R125 to R127) -/

/-- The set a miss of `o` leaves: way `w` holds the line read from `backing`, valid, clean and MRU. -/
def CacheSet.filled (c : Config) (cs : CacheSet) (backing : Memory) (o : Nat) (w : Way) : CacheSet :=
  (cs.setLine w ⟨lineTag c o, true, false, (cs.line w).mru, backing.getN (o - lineOffset c o) c.lineSize⟩).setMru w

theorem CacheSet.line_filled (c : Config) (cs : CacheSet) (backing : Memory) (o : Nat) (w : Way) :
    (cs.filled c backing o w).line w =
      ⟨lineTag c o, true, false, true, backing.getN (o - lineOffset c o) c.lineSize⟩ := by
  simp [CacheSet.filled]

theorem CacheSet.line_filled_mru (c : Config) (cs : CacheSet) (backing : Memory) (o : Nat) {w u : Way} (h : u ≠ w) :
    ((cs.filled c backing o w).line u).mru = false := by
  simp [CacheSet.filled, h]

/-- A miss that completes writes the victim back and puts the filled set in place. -/
theorem cacheMiss_ok {c : Config} {m m' : Mem} {o : Nat} {w : Way} (hr : cacheMiss c m o = .ok (w, m')) :
    let s := setIndex c o
    let cs := m.cache.getSet s
    w = cs.victim ∧ ∃ m1 io, writeBack c m s (cs.line w) = .ok m1 ∧
      m' = { m1 with io := io, cache := m1.cache.putSet s (cs.filled c m1.backing o w) } := by
  unfold cacheMiss at hr
  dsimp only at hr ⊢
  split at hr
  · cases hr
  next m1 hwb =>
  split at hr
  · cases hr
  next bytes m2 hrd =>
  obtain ⟨rfl, rfl, -⟩ := bsRead_spec hrd
  cases hr
  exact ⟨rfl, m1, _, hwb, rfl⟩

/-- The hierarchy once a miss is counted (R130). -/
def Mem.countMiss (m : Mem) : Mem := { m with cache := { m.cache with misses := m.cache.misses + 1 } }

theorem CacheInv.countMiss {c : Config} {m : Mem} (h : CacheInv c m) : CacheInv c m.countMiss :=
  ⟨h.backing_wf, h.sets_wf, h.sets_ok⟩

theorem cacheResolve_of_miss {c : Config} {m : Mem} {o : Nat}
    (h : (m.cache.getSet (setIndex c o)).hit (lineTag c o) = none) :
    cacheResolve c m o = cacheMiss c m.countMiss o := by
  unfold cacheResolve
  simp only [h]
  rfl

/-- `writeBack_spec` on the range of the written line, the form R126 gives. -/
theorem writeBack_get {c : Config} {m m' : Mem} {s : Nat} {l : Line} (hs : s < c.numSets) (hwf : m.backing.wf = true)
    (hl : LineOk c m.backing s l) (h : writeBack c m s l = .ok m') (x : Nat) :
    m'.backing.get x =
      if l.valid = true ∧ l.dirty = true ∧ lineBase c l.tag s ≤ x ∧ x < lineBase c l.tag s + c.lineSize then
        l.data.getD (x - lineBase c l.tag s) 0
      else m.backing.get x := by
  obtain ⟨-, -, -, hget⟩ := writeBack_spec hs hwf hl h
  rw [hget x]
  simp only [mem_line_iff c hs x]
  split
  · next hx => rw [offset_in_line c hx.2.2.1 hx.2.2.2]
  · rfl

/-- Settles O30: `cacheMiss_ok` gives the way and its set, `writeBack_get` the backing store. -/
theorem missWritesBackAndFills : Obligations.MissWritesBackAndFills := by
  intro c m m' o w hm hmiss hr
  rw [cacheResolve_of_miss hmiss] at hr
  have hs := setIndex_lt c o
  have hm0 := hm.countMiss
  obtain ⟨hw, m1, io, hwb, rfl⟩ := cacheMiss_ok hr
  have hline := (hm0.sets_ok _ hs).2.2 w
  have hcache : m1.cache = m.countMiss.cache := by rw [(writeBack_spec hs hm0.backing_wf hline hwb).1]
  have hset : ∀ cs, (m1.cache.putSet (setIndex c o) cs).getSet (setIndex c o) = cs := fun cs => by
    rw [SetCache.getSet_putSet (by rw [hcache]; exact hm0.sets_wf), if_pos rfl]
  intro s v old new
  have hv : w = v := hw
  have hold : old = (m.cache.getSet s).line w := by rw [hv]
  have hnew : new = _ := (congrArg (CacheSet.line · w) (hset _)).trans (CacheSet.line_filled ..)
  rw [hnew, hold]
  have hget := writeBack_get hs hm0.backing_wf hline hwb
  have hmisses : m1.cache.misses = m.cache.misses + 1 := by rw [hcache]; rfl
  have hhits : m1.cache.hits = m.cache.hits := by rw [hcache]; rfl
  refine ⟨hv, hget, rfl, rfl, rfl, rfl, fun k hk => Memory.getD_getN _ _ _ _ hk, fun u hu => ?_, hmisses, hhits⟩
  show (((m1.cache.putSet s _).getSet s).line u).mru = false
  rw [hset]
  exact CacheSet.line_filled_mru c _ _ o (hv ▸ hu)

end Sys2Proof.Machine

namespace Sys2Proof.Machine

/-! ### A miss of the block cache with every slot in use (R152, R155, R157) -/

/-- Of a full block cache the victim is the slot with the smallest stamp; its write-back leaves the stamps alone. -/
theorem blockVictim_full {c : Config} {m m' : Mem} {k : Nat} (hfull : ¬ m.blocks.slots.length < c.nBlocks)
    (hr : blockVictim c m = .ok (k, m')) :
    k = m.blocks.oldest ∧ m'.blocks.seq = m.blocks.seq := by
  unfold blockVictim at hr
  rw [if_neg hfull] at hr
  dsimp only at hr
  split at hr
  · cases hr
  next m1 hfl =>
  cases hr
  refine ⟨rfl, ?_⟩
  split at hfl
  · unfold blockFlush at hfl
    dsimp only at hfl
    split at hfl
    · cases hfl
    next m2 hw =>
    obtain ⟨rfl, -⟩ := bsWrite_spec hw
    cases hfl
    rfl
  · cases hfl
    rfl

/-- The block a miss of `o` reads from the backing store into a slot (R152). -/
def filledBlock (c : Config) (backing : Memory) (o : Nat) (stamp : DWord) : Block :=
  ⟨o - o % c.blockSize, stamp, false, true, backing.getN (o - o % c.blockSize) c.blockSize⟩

/-- A miss that completes fills the victim's slot with the block of `o` and leaves every other slot (R152). -/
theorem blockMiss_ok {c : Config} {m m' : Mem} {o k : Nat} (hr : blockMiss c m o = .ok (k, m')) :
    ∃ m1, blockVictim c m = .ok (k, m1) ∧ m'.backing = m1.backing ∧ m'.blocks.seq = m1.blocks.seq ∧
      m'.blocks.slots = m1.blocks.slots.set k (filledBlock c m1.backing o (m1.blocks.slot k).stamp) := by
  unfold blockMiss at hr
  split at hr
  · cases hr
  next v m1 hvic =>
  dsimp only at hr
  split at hr
  · cases hr
  next bytes m2 hrd =>
  obtain ⟨rfl, rfl, -⟩ := bsRead_spec hrd
  cases hr
  exact ⟨m1, hvic, rfl, rfl, rfl⟩

theorem blockResolve_of_miss {c : Config} {m m' : Mem} {o k : Nat} (h : blockFind c m.blocks o = none)
    (hr : blockResolve c m o = .ok (k, m')) : ∃ m1, blockMiss c m o = .ok (k, m1) ∧ m' = blockStamp m1 k := by
  unfold blockResolve at hr
  simp only [h] at hr
  split at hr
  · cases hr
  · next hm => cases hr; exact ⟨_, hm, rfl⟩

theorem slot_congr {b b' : BlockCache} (h : b.slots = b'.slots) (k : Nat) : b.slot k = b'.slot k := by
  unfold BlockCache.slot
  rw [h]

/-- Settles O31: `blockVictim_spec` gives the write-back, `blockMiss_ok` the fill, `blockStamp_slot` the stamp. -/
theorem blockMissEvictsOldest : Obligations.BlockMissEvictsOldest := by
  intro c m m' o k hm hn hlen hfind hr
  obtain ⟨m2, hmiss, rfl⟩ := blockResolve_of_miss hfind hr
  obtain ⟨m1, hvic, hback, hseq, hslots⟩ := blockMiss_ok hmiss
  have V := blockVictim_spec hm hn hvic
  obtain ⟨hk, hseq1⟩ := blockVictim_full (by omega) hvic
  have hklt : k < m.blocks.slots.length := by rw [hk]; exact oldest_lt (by omega)
  have hk2 : k < m2.blocks.slots.length := by rw [hslots, List.length_set]; exact V.lt
  have hslot : ∀ j, m2.blocks.slot j =
      if j = k then filledBlock c m1.backing o (m1.blocks.slot k).stamp else m1.blocks.slot j := fun j => by
    rw [slot_congr (b' := { m1.blocks with slots := _ }) hslots, slot_set]
    simp only [V.lt, and_true]
  intro old new
  have hnew : new = filledBlock c m1.backing o (m.blocks.seq + 1) := by
    show (blockStamp m2 k).blocks.slot k = _
    rw [blockStamp_slot m2 k k hk2, if_pos rfl, hslot, if_pos rfl, hseq, hseq1]
    rfl
  have hold : ∀ x, (k < m.blocks.slots.length ∧ old.pending = true ∧ old.covers c x = true) ↔
      (old.pending = true ∧ old.start ≤ x ∧ x < old.start + c.blockSize) := fun x => by
    rw [Block.covers_iff]
    simp only [hklt, show old.used = true from (hm.blocks_ok k hklt).1, true_and]
  rw [hnew]
  refine ⟨by omega, fun j hj => ?_, fun x => ?_, rfl, rfl, rfl, fun j hj => ?_, rfl, ?_, fun j hj => ?_⟩
  · show (m.blocks.slot k).stamp.toNat ≤ _
    rw [hk]
    exact oldest_le m.blocks (by omega)
  · show m2.backing.get x = _
    rw [hback, V.get]
    exact ite_congr (propext (hold x)) (fun _ => rfl) fun _ => rfl
  · show _ = m2.backing.get _
    rw [hback]
    exact Memory.getD_getN _ _ _ _ hj
  · show m2.blocks.seq + 1 = _
    rw [hseq, hseq1]
  · rw [blockStamp_slot m2 k j hk2, if_neg hj, hslot, if_neg hj, V.same j hj]

end Sys2Proof.Machine

namespace Sys2Proof.Machine

/-! ### The instructions that reach RAM (R260, R267, R310) -/

/-- Each of them is a load, a store or an atomic, of the address and width it is listed with. -/
theorem ramForms_shape {s : State} {rd rs1 rs2 : Reg} {imm : BitVec 12} {aq rl : Bool} {q : Instr × Word × Nat}
    (hq : q ∈ ramForms s rd rs1 rs2 imm aq rl) :
    (∃ k, exec q.1 s = s.load k rd rs1 imm ∧ q.2 = (s.ea rs1 imm, k.bytes)) ∨
    (∃ k, exec q.1 s = s.store k rs1 rs2 imm ∧ q.2 = (s.ea rs1 imm, k.bytes)) ∨
    (∃ k, exec q.1 s = s.atomic rs1 k ∧ q.2 = (s.readReg rs1, 4)) := by
  rcases List.mem_append.1 hq with hq | hq
  · simp only [List.mem_cons, List.not_mem_nil, or_false] at hq
    rcases hq with rfl | rfl | rfl | rfl | rfl | rfl | rfl | rfl
    · exact .inl ⟨.b, rfl, rfl⟩
    · exact .inl ⟨.bu, rfl, rfl⟩
    · exact .inl ⟨.h, rfl, rfl⟩
    · exact .inl ⟨.hu, rfl, rfl⟩
    · exact .inl ⟨.w, rfl, rfl⟩
    · exact .inr (.inl ⟨.b, rfl, rfl⟩)
    · exact .inr (.inl ⟨.h, rfl, rfl⟩)
    · exact .inr (.inl ⟨.w, rfl, rfl⟩)
  · obtain ⟨i, hi, rfl⟩ := List.mem_map.1 hq
    refine .inr (.inr ?_)
    simp only [List.mem_cons, List.not_mem_nil, or_false] at hi
    rcases hi with rfl | rfl | rfl | rfl | rfl | rfl | rfl | rfl | rfl | rfl | rfl <;>
      exact ⟨_, rfl, rfl⟩

/-- At a RAM address such an instruction stops with the fault of its access. -/
theorem exec_ramForms_fault {s : State} {rd rs1 rs2 : Reg} {imm : BitVec 12} {aq rl : Bool} {q : Instr × Word × Nat}
    (hq : q ∈ ramForms s rd rs1 rs2 imm aq rl) (hR : IsRam s q.2.1) {f : Fault}
    (hr : s.memRead q.2.1 q.2.2 = .error f) (hw : ∀ v, s.memWrite q.2.1 q.2.2 v = .error f) :
    exec q.1 s = .fault f := by
  rcases ramForms_shape hq with ⟨k, he, ha⟩ | ⟨k, he, ha⟩ | ⟨k, he, ha⟩
  · rw [ha] at hR hr
    rw [he, load_ram hR, hr]
  · rw [ha] at hR hw
    rw [he, store_ram hR, hw]
  · rw [ha] at hR hr
    rw [he, atomic_ram hR, hr]

/-- R116, for each of them. -/
theorem exec_ramForms_lineCross {s : State} {rd rs1 rs2 : Reg} {imm : BitVec 12} {aq rl : Bool} {i : Instr} {a : Word}
    {n : Nat} (hq : (i, a, n) ∈ ramForms s rd rs1 rs2 imm aq rl) (hR : IsRam s a) (hf : ¬ FitsUnit s a n) :
    exec i s = .fault .lineCross := by
  have hx : crosses s.cfg (ofs s.cfg a).toNat n = true := by
    rw [← Bool.not_eq_false, crosses_iff]
    exact hf
  exact exec_ramForms_fault hq hR (State.memRead_crosses hx) fun v => State.memWrite_crosses v hx

/-- Settles O28: every form named is in `ramForms` with its address and width. -/
theorem lineCross : Obligations.LineCross := by
  intro s rd rs1 rs2 imm aq rl
  refine ⟨fun hR hf i hi => ?_, fun hR hf i hi => ?_, fun hR hf i hi => ?_⟩
  · have hq : (i, s.readReg rs1 + imm.signExtend 32, 2) ∈ ramForms s rd rs1 rs2 imm aq rl := by
      refine List.mem_append_left _ ?_
      simp only [List.mem_cons, List.not_mem_nil, or_false] at hi
      rcases hi with rfl | rfl | rfl <;> simp
    exact exec_ramForms_lineCross hq hR hf
  · have hq : (i, s.readReg rs1 + imm.signExtend 32, 4) ∈ ramForms s rd rs1 rs2 imm aq rl := by
      refine List.mem_append_left _ ?_
      simp only [List.mem_cons, List.not_mem_nil, or_false] at hi
      rcases hi with rfl | rfl <;> simp
    exact exec_ramForms_lineCross hq hR hf
  · exact exec_ramForms_lineCross (imm := imm) (List.mem_append_right _ (List.mem_map_of_mem hi)) hR hf

/-! ### A failing storage operation of a miss (R134, R157, R158) -/

theorem bsRead_fails {m : Mem} {rest : List Bool} (h : m.io = true :: rest) (a n : Nat) :
    bsRead m a n = .error (.storageFault .read a) := by
  simp [bsRead, ioNext, h]

theorem bsWrite_fails {m : Mem} {rest : List Bool} (h : m.io = true :: rest) (a : Nat) (bytes : List Byte) :
    bsWrite m a bytes = .error (.storageFault .write a) := by
  simp [bsWrite, ioNext, h]

theorem bsWrite_succeeds {m : Mem} {rest : List Bool} (h : m.io = false :: rest) (a : Nat) (bytes : List Byte) :
    bsWrite m a bytes = .ok { m with backing := m.backing.putN a bytes, io := rest } := by
  simp [bsWrite, ioNext, h]

/-- The coming outcomes fail the fill of a miss of `o`: its first storage operation, or the second where the victim
needs a write-back. -/
def FillFails (s : State) (o : Nat) : Prop :=
  ∃ rest, (∃ base, victimBase s o = some base ∧ s.mem.io = false :: true :: rest) ∨
    (victimBase s o = none ∧ s.mem.io = true :: rest)

/-- The fault the coming outcomes give a miss of `o`. -/
inductive MissFault (s : State) (o : Nat) : Fault → Prop where
  | writeBack {base : Nat} {rest : List Bool} (hv : victimBase s o = some base) (hio : s.mem.io = true :: rest) :
      MissFault s o (.storageFault .write base)
  | fill (h : FillFails s o) : MissFault s o (.storageFault .read (o - o % s.cfg.unitSize))

/-! The set-associative cache (R134) -/

/-- The line a miss of `o` replaces (R125). -/
def victimLine (c : Config) (m : Mem) (o : Nat) : Line :=
  let cs := m.cache.getSet (setIndex c o)
  cs.line cs.victim

theorem victimBase_setAssoc {s : State} (hc : s.cfg.variant = .setAssoc) (o : Nat) :
    victimBase s o =
      let l := victimLine s.cfg s.mem o
      if l.valid && l.dirty then some (lineBase s.cfg l.tag (setIndex s.cfg o)) else none := by
  unfold victimBase victimLine CacheSet.victim
  simp only [hc]
  split <;> rfl

theorem writeBack_dirty {c : Config} {m : Mem} {s : Nat} {l : Line} (h : (l.valid && l.dirty) = true) :
    writeBack c m s l = bsWrite m (lineBase c l.tag s) l.data := if_pos h

theorem writeBack_clean {c : Config} {m : Mem} {s : Nat} {l : Line} (h : ¬ (l.valid && l.dirty) = true) :
    writeBack c m s l = .ok m := if_neg h

theorem cacheMiss_writeFails {c : Config} {m : Mem} {o : Nat} {f : Fault}
    (h : writeBack c m (setIndex c o) (victimLine c m o) = .error f) : cacheMiss c m o = .error f := by
  unfold victimLine at h
  simp only [cacheMiss, h]

theorem cacheMiss_fillFails {c : Config} {m m1 : Mem} {o : Nat} {rest : List Bool}
    (h : writeBack c m (setIndex c o) (victimLine c m o) = .ok m1) (hio : m1.io = true :: rest) :
    cacheMiss c m o = .error (.storageFault .read (o - lineOffset c o)) := by
  unfold victimLine at h
  simp only [cacheMiss, h, bsRead_fails hio]

theorem cacheResolve_missFault {s : State} {o : Nat} {f : Fault} (hc : s.cfg.variant = .setAssoc) (hm : Misses s o)
    (h : MissFault s o f) : cacheResolve s.cfg s.mem o = .error f := by
  have hm : (s.mem.cache.getSet (setIndex s.cfg o)).hit (lineTag s.cfg o) = none := by
    simpa only [Misses, hc, Option.isNone_iff_eq_none] using hm
  rw [cacheResolve_of_miss hm]
  cases h with
  | writeBack hv hio =>
    rw [victimBase_setAssoc hc] at hv
    simp only [Option.ite_none_right_eq_some, Option.some.injEq] at hv
    obtain ⟨hd, rfl⟩ := hv
    exact cacheMiss_writeFails ((writeBack_dirty hd).trans (bsWrite_fails (m := s.mem.countMiss) hio ..))
  | fill h =>
    simp only [Config.unitSize, hc]
    obtain ⟨rest, ⟨base, hv, hio⟩ | ⟨hv, hio⟩⟩ := h <;> rw [victimBase_setAssoc hc] at hv
    · simp only [Option.ite_none_right_eq_some, Option.some.injEq] at hv
      obtain ⟨hd, rfl⟩ := hv
      exact cacheMiss_fillFails ((writeBack_dirty hd).trans (bsWrite_succeeds (m := s.mem.countMiss) hio ..)) rfl
    · simp only [ite_eq_right_iff, reduceCtorEq, imp_false] at hv
      exact cacheMiss_fillFails (m1 := s.mem.countMiss) (writeBack_clean hv) hio

/-! The block cache (R158) -/

theorem victimBase_blockCache {s : State} (hc : s.cfg.variant = .blockCache) (o : Nat) :
    victimBase s o =
      let b := s.mem.blocks.slot s.mem.blocks.oldest
      if s.cfg.nBlocks ≤ s.mem.blocks.slots.length ∧ b.pending = true then some b.start else none := by
  unfold victimBase
  simp only [hc, Bool.and_eq_true, decide_eq_true_eq]

theorem blockMiss_writeFails {c : Config} {m : Mem} {f : Fault} (h : blockVictim c m = .error f) (o : Nat) :
    blockMiss c m o = .error f := by
  simp only [blockMiss, h]

theorem blockMiss_fillFails {c : Config} {m m1 : Mem} {k : Nat} {rest : List Bool} (h : blockVictim c m = .ok (k, m1))
    (hio : m1.io = true :: rest) (o : Nat) :
    blockMiss c m o = .error (.storageFault .read (o - o % c.blockSize)) := by
  simp only [blockMiss, h, bsRead_fails hio]

/-- A victim with a pending write is flushed first, and the miss stops with the flush (R157). -/
theorem blockVictim_flushFails {c : Config} {m : Mem} {f : Fault} (hfull : c.nBlocks ≤ m.blocks.slots.length)
    (hp : (m.blocks.slot m.blocks.oldest).pending = true) (h : blockFlush m m.blocks.oldest = .error f) :
    blockVictim c m = .error f := by
  simp only [blockVictim, if_neg (Nat.not_lt.2 hfull), if_pos hp, h]

theorem blockVictim_flushed {c : Config} {m m1 : Mem} (hfull : c.nBlocks ≤ m.blocks.slots.length)
    (hp : (m.blocks.slot m.blocks.oldest).pending = true) (h : blockFlush m m.blocks.oldest = .ok m1) :
    ∃ m2, blockVictim c m = .ok (m.blocks.oldest, m2) ∧ m2.io = m1.io := by
  simp only [blockVictim, if_neg (Nat.not_lt.2 hfull), if_pos hp, h]
  exact ⟨_, rfl, rfl⟩

theorem blockFlush_fails {m : Mem} {rest : List Bool} (h : m.io = true :: rest) (k : Nat) :
    blockFlush m k = .error (.storageFault .write (m.blocks.slot k).start) := by
  simp only [blockFlush, bsWrite_fails h]

theorem blockFlush_succeeds {m : Mem} {rest : List Bool} (h : m.io = false :: rest) (k : Nat) :
    ∃ m1, blockFlush m k = .ok m1 ∧ m1.io = rest := by
  simp only [blockFlush, bsWrite_succeeds h]
  exact ⟨_, rfl, rfl⟩

/-- A victim that needs none is taken without a storage operation. -/
theorem blockVictim_clean {c : Config} {m : Mem}
    (h : ¬ (c.nBlocks ≤ m.blocks.slots.length ∧ (m.blocks.slot m.blocks.oldest).pending = true)) :
    ∃ k m1, blockVictim c m = .ok (k, m1) ∧ m1.io = m.io := by
  unfold blockVictim
  split
  · exact ⟨_, _, rfl, rfl⟩
  · next hfull =>
    have hp : ¬ (m.blocks.slot m.blocks.oldest).pending = true := fun hp => h ⟨Nat.le_of_not_lt hfull, hp⟩
    simp only [if_neg hp]
    exact ⟨_, _, rfl, rfl⟩

theorem blockResolve_missFault {s : State} {o : Nat} {f : Fault} (hc : s.cfg.variant = .blockCache) (hm : Misses s o)
    (h : MissFault s o f) : blockResolve s.cfg s.mem o = .error f := by
  have hm : blockFind s.cfg s.mem.blocks o = none := by
    simpa only [Misses, hc, Option.isNone_iff_eq_none] using hm
  suffices hmiss : blockMiss s.cfg s.mem o = .error f by simp only [blockResolve, hm, hmiss]
  cases h with
  | writeBack hv hio =>
    rw [victimBase_blockCache hc] at hv
    simp only [Option.ite_none_right_eq_some, Option.some.injEq] at hv
    obtain ⟨⟨hfull, hp⟩, rfl⟩ := hv
    exact blockMiss_writeFails (blockVictim_flushFails hfull hp (blockFlush_fails hio _)) o
  | fill h =>
    simp only [Config.unitSize, hc]
    obtain ⟨rest, ⟨base, hv, hio⟩ | ⟨hv, hio⟩⟩ := h <;> rw [victimBase_blockCache hc] at hv
    · simp only [Option.ite_none_right_eq_some, Option.some.injEq] at hv
      obtain ⟨⟨hfull, hp⟩, rfl⟩ := hv
      obtain ⟨m1, hflush, hio1⟩ := blockFlush_succeeds hio s.mem.blocks.oldest
      obtain ⟨m2, hvic, hio2⟩ := blockVictim_flushed hfull hp hflush
      exact blockMiss_fillFails hvic (hio2.trans hio1) o
    · simp only [ite_eq_right_iff, reduceCtorEq, imp_false] at hv
      obtain ⟨k, m1, hvic, hio1⟩ := blockVictim_clean hv
      exact blockMiss_fillFails hvic (hio1.trans hio) o

/-! Either hierarchy -/

theorem Mem.read_missFault {s : State} {o n : Nat} {f : Fault} (hx : crosses s.cfg o n = false) (hm : Misses s o)
    (h : MissFault s o f) : s.mem.read s.cfg o n = .error f := by
  cases hc : s.cfg.variant with
  | setAssoc => simp only [Mem.read, hx, Bool.false_eq_true, if_false, hc, cacheRead, cacheResolve_missFault hc hm h]
  | blockCache => simp only [Mem.read, hx, Bool.false_eq_true, if_false, hc, blockRead, blockResolve_missFault hc hm h]

theorem Mem.write_missFault {s : State} {o n : Nat} {f : Fault} (hx : crosses s.cfg o n = false) (hm : Misses s o)
    (h : MissFault s o f) (v : Word) : s.mem.write s.cfg o n v = .error f := by
  cases hc : s.cfg.variant with
  | setAssoc => simp only [Mem.write, hx, Bool.false_eq_true, if_false, hc, cacheWrite, cacheResolve_missFault hc hm h]
  | blockCache =>
    simp only [Mem.write, hx, Bool.false_eq_true, if_false, hc, blockWrite, blockResolve_missFault hc hm h]

theorem exec_ramForms_missFault {s : State} {rd rs1 rs2 : Reg} {imm : BitVec 12} {aq rl : Bool}
    {q : Instr × Word × Nat} (hq : q ∈ ramForms s rd rs1 rs2 imm aq rl) (hR : IsRam s q.2.1)
    (hf : FitsUnit s q.2.1 q.2.2) (hm : Misses s (ramOffset s q.2.1)) {f : Fault}
    (h : MissFault s (ramOffset s q.2.1) f) : exec q.1 s = .fault f := by
  have hx := (crosses_iff s q.2.1 q.2.2).2 hf
  have hr : s.mem.read s.cfg (ofs s.cfg q.2.1).toNat q.2.2 = .error f := Mem.read_missFault hx hm h
  have hw : ∀ v, s.mem.write s.cfg (ofs s.cfg q.2.1).toNat q.2.2 v = .error f := Mem.write_missFault hx hm h
  exact exec_ramForms_fault hq hR (by simp only [State.memRead, hr]) fun v => by simp only [State.memWrite, hw]

/-- Settles O32: each case of the statement is a case of `MissFault`. -/
theorem storageFailure : Obligations.StorageFailure := by
  intro s rd rs1 rs2 imm aq rl rest q hq o hR hf hm
  have hstop {f : Fault} (h : MissFault s o f) : exec q.1 s = .fault f := exec_ramForms_missFault hq hR hf hm h
  refine ⟨fun base hv => ⟨fun hio => ?_, fun hio => ?_⟩, fun hv hio => ?_⟩
  · exact hstop (.writeBack hv hio)
  · exact hstop (.fill ⟨rest, .inl ⟨base, hv, hio⟩⟩)
  · exact hstop (.fill ⟨rest, .inr ⟨hv, hio⟩⟩)

end Sys2Proof.Machine

namespace Sys2Proof.Machine

/-! ### The five loads and the three stores (R260, R267) -/

theorem exec_loadForm {i : Instr} {rd rs1 : Reg} {imm : BitVec 12}
    (hi : i ∈ [Instr.lb rd rs1 imm, .lh rd rs1 imm, .lw rd rs1 imm, .lbu rd rs1 imm, .lhu rd rs1 imm]) (s : State) :
    ∃ k, exec i s = s.load k rd rs1 imm := by
  simp only [List.mem_cons, List.not_mem_nil, or_false] at hi
  rcases hi with rfl | rfl | rfl | rfl | rfl
  · exact ⟨.b, rfl⟩
  · exact ⟨.h, rfl⟩
  · exact ⟨.w, rfl⟩
  · exact ⟨.bu, rfl⟩
  · exact ⟨.hu, rfl⟩

theorem exec_storeForm {i : Instr} {rs1 rs2 : Reg} {imm : BitVec 12}
    (hi : i ∈ [Instr.sb rs1 rs2 imm, .sh rs1 rs2 imm, .sw rs1 rs2 imm]) (s : State) :
    ∃ k, exec i s = s.store k rs1 rs2 imm := by
  simp only [List.mem_cons, List.not_mem_nil, or_false] at hi
  rcases hi with rfl | rfl | rfl
  · exact ⟨.b, rfl⟩
  · exact ⟨.h, rfl⟩
  · exact ⟨.w, rfl⟩

/-- Settles O27: a load and a store of any width at an unpopulated address raise their access fault. -/
theorem accessFaults : Obligations.AccessFaults := by
  intro s r rs1 rs2 imm a ha
  refine ⟨fun i hi => ?_, fun i hi => ?_⟩
  · obtain ⟨k, he⟩ := exec_loadForm hi s
    exact raises_of (he.trans (load_unpopulated ha))
  · obtain ⟨k, he⟩ := exec_storeForm hi s
    exact raises_of (he.trans (store_unpopulated ha))

/-! ### Devices (R109 to R111) -/

theorem State.takeKey_value (s : State) : s.takeKey.1 = keyAnswer s := by
  rw [State.takeKey_spec]
  rfl

/-- The line status register: bit 0 says that a key waits (R109). -/
theorem uartStatus (kb : List Byte) :
    (if kb.isEmpty then 0x60#32 else 0x61#32) = 0x60 ||| (if kb = [] then 0 else 1) := by
  cases kb with
  | nil => rfl
  | cons b rest => simp

/-- The value of the device register at an address (R109). -/
theorem State.mmioRead_value (s : State) (a : Word) :
    (s.mmioRead a).1 =
      if a = s.cfg.uartData then keyAnswer s
      else if a = s.cfg.uartLsr then 0x60 ||| (if s.kb = [] then 0 else 1)
      else if a = s.cfg.mtimeLo then s.mtime.extractLsb' 0 32
      else if a = s.cfg.mtimeHi then s.mtime.extractLsb' 32 32
      else 0 := by
  rw [← uartStatus]
  unfold State.mmioRead
  split
  · exact s.takeKey_value
  · split
    · rfl
    · split
      · rfl
      · split <;> rfl

/-- A device read takes the oldest key at UART_DATA and changes nothing else. -/
theorem State.mmioRead_state (s : State) (a : Word) :
    (s.mmioRead a).2 = { s with kb := if a = s.cfg.uartData then s.kb.tail else s.kb } := by
  rw [State.mmioRead_spec]
  split <;> rfl

/-- A load at an MMIO address completes with the device value, as MMIO_LOAD_EXTEND has it (R111, R260). -/
theorem load_mmio_completes {i : Instr} {s : State} {k : LoadWidth} {rd rs1 : Reg} {imm : BitVec 12} {w : Word}
    (he : exec i s = s.load k rd rs1 imm) (ha : IsMmio s (s.ea rs1 imm))
    (hw : mmioExtend s.cfg k (s.mmioRead (s.ea rs1 imm)).1 = w) :
    Completes i s { s with kb := if s.ea rs1 imm = s.cfg.uartData then s.kb.tail else s.kb } rd w := by
  rw [load_mmio ha, State.mmioRead_state] at he
  exact completes_finish_of he hw rfl rfl

theorem mmioExtend_on {c : Config} (h : c.mmioLoadExtend = true) (k : LoadWidth) (d : Word) :
    mmioExtend c k d = k.extend d := if_pos h

theorem mmioExtend_off {c : Config} (h : c.mmioLoadExtend = false) (k : LoadWidth) (d : Word) :
    mmioExtend c k d = d := by
  simp [mmioExtend, h]

/-- Settles O24: `load_mmio_completes` with the device value of `State.mmioRead_value`. -/
theorem deviceLoads : Obligations.DeviceLoads := by
  intro s rd rs1 imm a d s' ha
  have hd : (s.mmioRead (s.ea rs1 imm)).1 = d := s.mmioRead_value _
  refine ⟨fun hx => ?_, fun hx i hi => ?_⟩
  · have hload {i : Instr} (k : LoadWidth) (he : exec i s = s.load k rd rs1 imm) : Completes i s s' rd (k.extend d) :=
      load_mmio_completes he ha (by rw [hd, mmioExtend_on hx])
    exact ⟨hload .b rfl, hload .h rfl, hload .w rfl, hload .bu rfl, hload .hu rfl⟩
  · obtain ⟨k, he⟩ := exec_loadForm hi s
    exact load_mmio_completes he ha (by rw [hd, mmioExtend_off hx])

/-- UART_DATA is neither half of mtimecmp (R8, R105). -/
theorem uartData_ne_mtimecmp {c : Config} (h : c.Wf) : c.uartData ≠ c.mtimecmpLo ∧ c.uartData ≠ c.mtimecmpHi := by
  have hd := h.devices_distinct
  simp only [Config.deviceAddrs, List.nodup_cons, List.mem_cons, not_or] at hd
  obtain ⟨⟨-, hlo, hhi, -⟩, -⟩ := hd
  exact ⟨hlo, hhi⟩

/-- A store at an MMIO address other than SYSCON_ADDR, by the device the address names (R110). -/
theorem State.mmioStore_spec {s : State} {a : Word} (hwf : s.cfg.Wf) (ha : a ≠ s.cfg.sysconAddr) (v : Word) :
    s.mmioStore a v = { s with
      pc := s.pc + 4
      con := if a = s.cfg.uartData then queueAfter s (v.extractLsb' 0 8) else s.con
      mtimecmp :=
        if a = s.cfg.mtimecmpLo then s.mtimecmp.extractLsb' 32 32 ++ v
        else if a = s.cfg.mtimecmpHi then v ++ s.mtimecmp.extractLsb' 0 32
        else s.mtimecmp } := by
  obtain ⟨hlo, hhi⟩ := uartData_ne_mtimecmp hwf
  unfold State.mmioStore
  rw [if_neg ha]
  by_cases hu : a = s.cfg.uartData
  · subst hu
    rw [State.offer_spec]
    simp only [if_true, if_neg hlo, if_neg hhi]
    rfl
  · by_cases hl : a = s.cfg.mtimecmpLo
    · simp only [if_neg hu, if_pos hl]
      rfl
    · by_cases hh : a = s.cfg.mtimecmpHi
      · simp only [if_neg hu, if_neg hl, if_pos hh]
        rfl
      · simp only [if_neg hu, if_neg hl, if_neg hh]
        rfl

/-- Settles O25: a store of any width at an MMIO address is `mmioStore` of the whole of rs2. -/
theorem deviceStores : Obligations.DeviceStores := by
  intro s rs1 rs2 imm hwf a v ha hsys i hi
  obtain ⟨k, he⟩ := exec_storeForm hi s
  rw [he, store_mmio ha]
  exact congrArg _ (State.mmioStore_spec hwf hsys v)

/-! ### A step inside a call (R112, R406, R420) -/

theorem step_of_running {s : State} (ha : s.agenda = []) (hr : s.call.remaining ≠ 0) : step s = s.attempt := by
  unfold step State.coreStep
  simp only [ha, if_pos hr]

theorem inRamFetch_iff (s : State) (a : Word) : inRamFetch s.cfg a = true ↔ ramOffset s a < s.cfg.ramSize :=
  decide_eq_true_iff

theorem State.fetch_outside {s : State} (h : s.cfg.ramSize ≤ ramOffset s s.pc) : s.fetch = .trap 1 s.pc := by
  have h1 : ¬ inRamFetch s.cfg s.pc = true := by rw [inRamFetch_iff]; omega
  simp only [State.fetch, if_neg h1]

theorem State.fetch_misaligned {s : State} (h : ramOffset s s.pc < s.cfg.ramSize) (h4 : ramOffset s s.pc % 4 ≠ 0) :
    s.fetch = .trap 0 s.pc := by
  rw [ramOffset_eq] at h4
  simp only [State.fetch, if_pos ((inRamFetch_iff s _).2 h), if_neg h4]

theorem State.fetch_word {s t : State} {ir : Word} (h : ramOffset s s.pc < s.cfg.ramSize)
    (h4 : ramOffset s s.pc % 4 = 0) (hr : s.memRead s.pc 4 = .ok (ir, t)) : s.fetch = .word ir t := by
  rw [ramOffset_eq] at h4
  simp only [State.fetch, if_pos ((inRamFetch_iff s _).2 h), if_pos h4, hr]

theorem State.attempt_trap {s : State} {cause tval : Word} (h : s.countAttempt.fetch = .trap cause tval) :
    s.attempt = .next (s.countAttempt.raiseTrap cause tval).settle := by
  simp only [State.attempt, h, settleResult]

/-- An attempt that fetches the word of an instruction runs it (R187, R406). -/
theorem State.attempt_instr {s t : State} {ir : Word} {i : Instr} (h : s.countAttempt.fetch = .word ir t)
    (hi : decodeWord ir = .ok i) : s.attempt = settleResult (exec i t) := by
  simp only [State.attempt, h, State.runWord, hi]

/-- RAM starts at a multiple of 4 (R8), so an address is aligned when its offset is. -/
theorem ramOffset_mod_four {s : State} (h : s.cfg.Wf) (a : Word) : ramOffset s a % 4 = a.toNat % 4 := by
  have hb := h.base_aligned
  have ha := a.isLt
  have hr := s.cfg.ramBase.isLt
  unfold ramOffset
  rw [BitVec.toNat_sub]
  omega

/-- Settles O9: the fetch traps, and `raiseTrap_outcome` says what its trap does. -/
theorem fetchTraps : Obligations.FetchTraps := by
  intro s hI ha hr cause hc
  have hf : s.countAttempt.fetch = .trap cause s.pc := by
    rcases hc with ⟨ho, rfl⟩ | ⟨ho, hal, rfl⟩
    · exact State.fetch_outside (s := s.countAttempt) ho
    · rw [← ramOffset_mod_four hI.cfg_wf] at hal
      exact State.fetch_misaligned (s := s.countAttempt) ho hal
  exact ⟨s.countAttempt.raiseTrap cause s.pc, raiseTrap_outcome _ _ _,
    (step_of_running ha hr).trans (State.attempt_trap hf)⟩

/-- Settles O8: the fetch reads the word through `memRead_ram`, and the batch accounts as `State.settle` does. -/
theorem stepRunsDecodedInstruction : Obligations.StepRunsDecodedInstruction := by
  intro s i hI hN ha hr ho h4 hdec
  have hfits : FitsUnit s.countAttempt s.pc 4 := crosses_eq_false.1 (crosses_aligned hI.cfg_wf h4)
  obtain ⟨u, hread, hu, himg, hinv, hnf⟩ :=
    memRead_ram (s := s.countAttempt) hI.mem_inv hI.cfg_wf.blocks_pos hN hfits
  rw [ramValue_word] at hread
  have hf := State.fetch_word (s := s.countAttempt) ho h4 hread
  refine ⟨u, hu, himg, hinv, hnf, ?_⟩
  rw [step_of_running ha hr, State.attempt_instr hf hdec]
  cases exec i u <;> rfl

/-! ### The host's `reset()` (R133) -/

theorem cacheByte_cacheReset (c : Config) (m : Mem) (x : Nat) : cacheByte c (cacheReset m) x = m.backing.get x := rfl

/-- Settles O58: the move is `cacheReset`, which leaves an empty cache over the same backing store. -/
theorem hostCacheReset : Obligations.HostCacheReset := by
  intro s rest ha hr hv
  refine ⟨{ s with agenda := rest, mem := cacheReset s.mem }, ?_, rfl, rfl, rfl, rfl, fun k w => ?_, fun x => ?_⟩
  · unfold step
    simp only [ha, State.envMove, hr, hv, and_self, if_true]
  · cases w <;> exact ⟨rfl, rfl, rfl, rfl⟩
  · simp only [State.ram, Mem.byte, hv]
    exact cacheByte_cacheReset s.cfg s.mem x

end Sys2Proof.Machine

namespace Sys2Proof

/-! ### The decoder, one equation per major opcode (R186, R187) -/

section
variable {ir : Word}

theorem decodeWord_lui (h : fOpcode ir = 0x37#7) : decodeWord ir = .ok (.lui (fRd ir) (fImmU ir)) := by
  simp only [decodeWord, h]

theorem decodeWord_auipc (h : fOpcode ir = 0x17#7) : decodeWord ir = .ok (.auipc (fRd ir) (fImmU ir)) := by
  simp only [decodeWord, h]

theorem decodeWord_jal (h : fOpcode ir = 0x6F#7) : decodeWord ir = .ok (.jal (fRd ir) (fImmJ ir)) := by
  simp only [decodeWord, h]

theorem decodeWord_jalr (h : fOpcode ir = 0x67#7) : decodeWord ir = .ok (.jalr (fRd ir) (fRs1 ir) (fImmI ir)) := by
  simp only [decodeWord, h]

theorem decodeWord_branch (h : fOpcode ir = 0x63#7) : decodeWord ir = decodeBranch ir := by
  simp only [decodeWord, h]

theorem decodeWord_load (h : fOpcode ir = 0x03#7) : decodeWord ir = decodeLoad ir := by
  simp only [decodeWord, h]

theorem decodeWord_store (h : fOpcode ir = 0x23#7) : decodeWord ir = decodeStore ir := by
  simp only [decodeWord, h]

theorem decodeWord_opImm (h : fOpcode ir = 0x13#7) : decodeWord ir = .ok (decodeOpImm ir) := by
  simp only [decodeWord, h]

theorem decodeWord_mulDiv (h : fOpcode ir = 0x33#7) (h25 : ir.getLsbD 25 = true) :
    decodeWord ir = .ok (decodeMulDiv ir) := by
  simp only [decodeWord, h, h25, if_true]

theorem decodeWord_op (h : fOpcode ir = 0x33#7) (h25 : ir.getLsbD 25 = false) :
    decodeWord ir = .ok (decodeOp ir) := by
  simp only [decodeWord, h, h25, Bool.false_eq_true, if_false]

theorem decodeWord_miscMem (h : fOpcode ir = 0x0F#7) : decodeWord ir = .ok (decodeMiscMem ir) := by
  simp only [decodeWord, h]

theorem decodeWord_system (h : fOpcode ir = 0x73#7) : decodeWord ir = decodeSystem ir := by
  simp only [decodeWord, h]

theorem decodeWord_amo (h : fOpcode ir = 0x2F#7) : decodeWord ir = decodeAmo ir := by
  simp only [decodeWord, h]

/-- The major opcodes of R186. -/
def majorOpcodes : List (BitVec 7) :=
  [0x03#7, 0x0F#7, 0x13#7, 0x17#7, 0x23#7, 0x2F#7, 0x33#7, 0x37#7, 0x63#7, 0x67#7, 0x6F#7, 0x73#7]

theorem decodeWord_noMajorOpcode (h : fOpcode ir ∉ majorOpcodes) :
    decodeWord ir = .error (.majorOpcode (fOpcode ir)) := by
  unfold decodeWord
  split
  case h_13 => rfl
  all_goals next hop => rw [hop] at h; exact absurd (by decide) h

theorem decodeSystem_priv (h : fFunct3 ir = 0#3) : decodeSystem ir = decodePriv ir := by
  simp only [decodeSystem, h]

theorem decodePriv_mret (h : (fCsr ir).extractLsb' 0 8 = 0x02#8) : decodePriv ir = .ok .mret := if_pos h

/-- ir[27:20], by which R347 knows MRET, as a field of the word. -/
theorem extractLsb'_fCsr (ir : Word) : (fCsr ir).extractLsb' 0 8 = ir.extractLsb' 20 8 := by
  ext i hi
  simp [fCsr, show i < 12 by omega]

end

/-! ### Decoding an encoded instruction -/

theorem evenOffset_iff {w : Nat} {off : BitVec w} : evenOffset off = true ↔ off.getLsbD 0 = false := by
  simp [evenOffset]

/-- Settles O4: the case split is by format; in each the opcode picks the part of the decode tree, the selecting fields
pick the instruction in it, and the field lemmas give back the operands. -/
theorem decodeOfEncode : Obligations.DecodeOfEncode := by
  intro i hwf
  cases i
  case lui | auipc => simp [encode, decodeWord_lui, decodeWord_auipc]
  case jal rd off => simp [encode, decodeWord_jal, fImmJ_encJ _ _ _ (evenOffset_iff.1 hwf)]
  case jalr => simp [encode, decodeWord_jalr]
  case beq rs1 rs2 off | bne rs1 rs2 off | blt rs1 rs2 off | bge rs1 rs2 off | bltu rs1 rs2 off | bgeu rs1 rs2 off =>
    simp [encode, decodeWord_branch, decodeBranch, fImmB_encB _ _ _ _ _ (evenOffset_iff.1 hwf)]
  case lb | lh | lw | lbu | lhu => simp [encode, decodeWord_load, decodeLoad]
  case sb | sh | sw => simp [encode, decodeWord_store, decodeStore]
  case addi | slti | sltiu | xori | ori | andi | slli | srli | srai => simp [encode, decodeWord_opImm, decodeOpImm]
  case add | sub | sll | slt | sltu | xor | srl | sra | or | and => simp [encode, decodeWord_op, decodeOp]
  case mul | mulh | mulhsu | mulhu | div | divu | rem | remu => simp [encode, decodeWord_mulDiv, decodeMulDiv]
  case fence | fenceI => simp [encode, decodeWord_miscMem, decodeMiscMem]
  case csrrw | csrrs | csrrc | csrrwi | csrrsi | csrrci => simp [encode, decodeWord_system, decodeSystem]
  case ecall | ebreak | mret | wfi => rfl
  case lrW | scW | amoswapW | amoaddW | amoxorW | amoandW | amoorW | amominW | amomaxW | amominuW | amomaxuW =>
    simp [encode, decodeWord_amo, decodeAmo]

/-! ### What the decoder accepts -/

theorem evenOffset_fImmB (ir : Word) : evenOffset (fImmB ir) = true :=
  evenOffset_iff.2 (by simp only [fImmB, BitVec.getLsbD_append]; rfl)

theorem evenOffset_fImmJ (ir : Word) : evenOffset (fImmJ ir) = true :=
  evenOffset_iff.2 (by simp only [fImmJ, BitVec.getLsbD_append]; rfl)

section
variable {ir : Word} {i : Instr}

theorem wellFormed_of_decodeBranch (h : decodeBranch ir = .ok i) : i.WellFormed = true := by
  unfold decodeBranch at h
  split at h <;> cases h <;> exact evenOffset_fImmB ir

theorem wellFormed_of_decodeLoad (h : decodeLoad ir = .ok i) : i.WellFormed = true := by
  unfold decodeLoad at h
  split at h <;> cases h <;> rfl

theorem wellFormed_of_decodeStore (h : decodeStore ir = .ok i) : i.WellFormed = true := by
  unfold decodeStore at h
  split at h <;> cases h <;> rfl

theorem wellFormed_decodeOpImm (ir : Word) : (decodeOpImm ir).WellFormed = true := by
  unfold decodeOpImm
  split
  case h_6 => split <;> rfl
  all_goals rfl

theorem wellFormed_decodeMulDiv (ir : Word) : (decodeMulDiv ir).WellFormed = true := by
  unfold decodeMulDiv
  split <;> rfl

theorem wellFormed_decodeOp (ir : Word) : (decodeOp ir).WellFormed = true := by
  unfold decodeOp
  split
  case h_1 | h_6 => split <;> rfl
  all_goals rfl

theorem wellFormed_decodeMiscMem (ir : Word) : (decodeMiscMem ir).WellFormed = true := by
  unfold decodeMiscMem
  split <;> rfl

theorem wellFormed_of_decodePriv (h : decodePriv ir = .ok i) : i.WellFormed = true := by
  unfold decodePriv at h
  split_ifs at h <;> cases h <;> rfl

theorem wellFormed_of_decodeSystem (h : decodeSystem ir = .ok i) : i.WellFormed = true := by
  unfold decodeSystem at h
  split at h
  case h_1 => exact wellFormed_of_decodePriv h
  all_goals cases h <;> rfl

theorem wellFormed_of_decodeAmo (h : decodeAmo ir = .ok i) : i.WellFormed = true := by
  unfold decodeAmo at h
  split at h <;> cases h <;> rfl

end

/-- Settles O5: only branches and jumps have a condition, and bit 0 of imm_B and of imm_J is built in. -/
theorem decodedIsWellFormed : Obligations.DecodedIsWellFormed := by
  intro ir i h
  unfold decodeWord at h
  split at h
  · cases h; rfl -- LUI
  · cases h; rfl -- AUIPC
  · cases h; exact evenOffset_fImmJ ir
  · cases h; rfl -- JALR
  · exact wellFormed_of_decodeBranch h
  · exact wellFormed_of_decodeLoad h
  · exact wellFormed_of_decodeStore h
  · cases h; exact wellFormed_decodeOpImm ir
  · cases h
    split
    · exact wellFormed_decodeMulDiv ir
    · exact wellFormed_decodeOp ir
  · cases h; exact wellFormed_decodeMiscMem ir
  · exact wellFormed_of_decodeSystem h
  · exact wellFormed_of_decodeAmo h
  · cases h -- no such major opcode: rejected

/-- Settles O6, word by word. -/
theorem decodeSpecWords : Obligations.DecodeSpecWords :=
  ⟨rfl, rfl, rfl, rfl, rfl, rfl, rfl, rfl, rfl, rfl, rfl, rfl, rfl⟩

/-! ### Words that differ in ignored fields only (R187) -/

/-- The two words agree in every bit outside `mask`. -/
def AgreeOutside (mask ir ir' : Word) : Prop := (ir ^^^ ir') &&& ~~~mask = 0

section
variable {mask ir ir' : Word}

theorem AgreeOutside.getLsbD (h : AgreeOutside mask ir ir') {k : Nat} (hk : mask.getLsbD k = false) :
    ir'.getLsbD k = ir.getLsbD k := by
  by_cases hlt : k < 32
  · have hb : ((ir ^^^ ir') &&& ~~~mask).getLsbD k = false := by rw [h]; exact BitVec.getLsbD_zero
    rw [BitVec.getLsbD_and, BitVec.getLsbD_xor, BitVec.getLsbD_not, hk, decide_eq_true hlt] at hb
    exact Eq.symm (by simpa using hb)
  · rw [BitVec.getLsbD_of_ge _ _ (Nat.le_of_not_lt hlt), BitVec.getLsbD_of_ge _ _ (Nat.le_of_not_lt hlt)]

/-- A field that the mask does not touch is the same in both words. -/
theorem AgreeOutside.extractLsb' (h : AgreeOutside mask ir ir') {k n : Nat} (hm : mask.extractLsb' k n = 0) :
    ir'.extractLsb' k n = ir.extractLsb' k n := by
  ext i hi
  have hk : (mask.extractLsb' k n).getLsbD i = false := by rw [hm]; exact BitVec.getLsbD_zero
  rw [BitVec.getElem_extractLsb', BitVec.getElem_extractLsb']
  exact h.getLsbD (by simpa [hi] using hk)

theorem AgreeOutside.fOpcode (h : AgreeOutside mask ir ir') (hm : mask.extractLsb' 0 7 = 0) :
    fOpcode ir' = fOpcode ir := h.extractLsb' hm

theorem AgreeOutside.fRd (h : AgreeOutside mask ir ir') (hm : mask.extractLsb' 7 5 = 0) : fRd ir' = fRd ir :=
  congrArg regOf (h.extractLsb' hm)

theorem AgreeOutside.fFunct3 (h : AgreeOutside mask ir ir') (hm : mask.extractLsb' 12 3 = 0) :
    fFunct3 ir' = fFunct3 ir := h.extractLsb' hm

theorem AgreeOutside.fRs1 (h : AgreeOutside mask ir ir') (hm : mask.extractLsb' 15 5 = 0) : fRs1 ir' = fRs1 ir :=
  congrArg regOf (h.extractLsb' hm)

theorem AgreeOutside.fRs2 (h : AgreeOutside mask ir ir') (hm : mask.extractLsb' 20 5 = 0) : fRs2 ir' = fRs2 ir :=
  congrArg regOf (h.extractLsb' hm)

theorem AgreeOutside.fShamt (h : AgreeOutside mask ir ir') (hm : mask.extractLsb' 20 5 = 0) :
    fShamt ir' = fShamt ir := h.extractLsb' hm

theorem AgreeOutside.fImmI (h : AgreeOutside mask ir ir') (hm : mask.extractLsb' 20 12 = 0) :
    fImmI ir' = fImmI ir := h.extractLsb' hm

theorem AgreeOutside.fCsr (h : AgreeOutside mask ir ir') (hm : mask.extractLsb' 20 12 = 0) :
    fCsr ir' = fCsr ir := h.extractLsb' hm

theorem AgreeOutside.fFunct5 (h : AgreeOutside mask ir ir') (hm : mask.extractLsb' 27 5 = 0) :
    fFunct5 ir' = fFunct5 ir := h.extractLsb' hm

theorem AgreeOutside.fAq (h : AgreeOutside mask ir ir') (hm : mask.getLsbD 26 = false) : fAq ir' = fAq ir :=
  h.getLsbD hm

theorem AgreeOutside.fRl (h : AgreeOutside mask ir ir') (hm : mask.getLsbD 25 = false) : fRl ir' = fRl ir :=
  h.getLsbD hm

/-! ### One lemma per ignored field -/

theorem jalr_ignores_funct3 (h : AgreeOutside 0x00007000 ir ir') (hop : fOpcode ir = 0x67#7) :
    decodeWord ir' = decodeWord ir := by
  rw [decodeWord_jalr hop, decodeWord_jalr ((h.fOpcode (by decide)).trans hop), h.fRd (by decide), h.fRs1 (by decide),
    h.fImmI (by decide)]

theorem slli_ignores_funct7 (h : AgreeOutside 0xFE000000 ir ir') (hop : fOpcode ir = 0x13#7)
    (hf3 : fFunct3 ir = 1#3) : decodeWord ir' = decodeWord ir := by
  rw [decodeWord_opImm hop, decodeWord_opImm ((h.fOpcode (by decide)).trans hop)]
  simp only [decodeOpImm, h.fFunct3 (by decide), hf3, h.fRd (by decide), h.fRs1 (by decide), h.fShamt (by decide)]

theorem srli_srai_ignore_funct7 (h : AgreeOutside 0xBE000000 ir ir') (hop : fOpcode ir = 0x13#7)
    (hf3 : fFunct3 ir = 5#3) : decodeWord ir' = decodeWord ir := by
  rw [decodeWord_opImm hop, decodeWord_opImm ((h.fOpcode (by decide)).trans hop)]
  simp only [decodeOpImm, h.fFunct3 (by decide), hf3, h.fRd (by decide), h.fRs1 (by decide), h.fShamt (by decide),
    h.getLsbD (k := 30) (by decide)]

theorem mulDiv_ignores_funct7 (h : AgreeOutside 0xFC000000 ir ir') (hop : fOpcode ir = 0x33#7)
    (h25 : ir.getLsbD 25 = true) : decodeWord ir' = decodeWord ir := by
  rw [decodeWord_mulDiv hop h25,
    decodeWord_mulDiv ((h.fOpcode (by decide)).trans hop) ((h.getLsbD (by decide)).trans h25)]
  simp only [decodeMulDiv, h.fFunct3 (by decide), h.fRd (by decide), h.fRs1 (by decide), h.fRs2 (by decide)]

/-- Of the other funct7 bits, OP with ir[25] = 0 reads ir[30] alone (R212). -/
theorem op_ignores_funct7_but_bit30 (h : AgreeOutside 0xBC000000 ir ir') (hop : fOpcode ir = 0x33#7)
    (h25 : ir.getLsbD 25 = false) : decodeWord ir' = decodeWord ir := by
  rw [decodeWord_op hop h25, decodeWord_op ((h.fOpcode (by decide)).trans hop) ((h.getLsbD (by decide)).trans h25)]
  simp only [decodeOp, h.fFunct3 (by decide), h.fRd (by decide), h.fRs1 (by decide), h.fRs2 (by decide),
    h.getLsbD (k := 30) (by decide)]

/-- ir[30] counts for funct3 0 and 5 only (R212): elsewhere it is ignored with the rest of funct7. -/
theorem op_ignores_whole_funct7 (h : AgreeOutside 0xFC000000 ir ir') (hop : fOpcode ir = 0x33#7)
    (h25 : ir.getLsbD 25 = false) (hf3 : fFunct3 ir ∉ [0#3, 5#3]) : decodeWord ir' = decodeWord ir := by
  rw [decodeWord_op hop h25, decodeWord_op ((h.fOpcode (by decide)).trans hop) ((h.getLsbD (by decide)).trans h25)]
  simp only [decodeOp, h.fFunct3 (by decide), h.fRd (by decide), h.fRs1 (by decide), h.fRs2 (by decide)]
  split
  case h_1 hsel | h_6 hsel => rw [hsel] at hf3; exact absurd (by decide) hf3
  all_goals rfl

theorem system_priv_ignores_registers (h : AgreeOutside 0x000F8F80 ir ir') (hop : fOpcode ir = 0x73#7)
    (hf3 : fFunct3 ir = 0#3) : decodeWord ir' = decodeWord ir := by
  rw [decodeWord_system hop, decodeWord_system ((h.fOpcode (by decide)).trans hop), decodeSystem_priv hf3,
    decodeSystem_priv ((h.fFunct3 (by decide)).trans hf3)]
  simp only [decodePriv, h.fCsr (by decide)]

theorem mret_ignores_high_bits (h : AgreeOutside 0xF00F8F80 ir ir') (hop : fOpcode ir = 0x73#7)
    (hf3 : fFunct3 ir = 0#3) (hf8 : ir.extractLsb' 20 8 = 0x02#8) : decodeWord ir' = decodeWord ir := by
  have hf8' : ir'.extractLsb' 20 8 = 0x02#8 := (h.extractLsb' (by decide)).trans hf8
  rw [decodeWord_system hop, decodeWord_system ((h.fOpcode (by decide)).trans hop), decodeSystem_priv hf3,
    decodeSystem_priv ((h.fFunct3 (by decide)).trans hf3), decodePriv_mret ((extractLsb'_fCsr ir).trans hf8),
    decodePriv_mret ((extractLsb'_fCsr ir').trans hf8')]

theorem amo_ignores_funct3 (h : AgreeOutside 0x00007000 ir ir') (hop : fOpcode ir = 0x2F#7) :
    decodeWord ir' = decodeWord ir := by
  rw [decodeWord_amo hop, decodeWord_amo ((h.fOpcode (by decide)).trans hop)]
  simp only [decodeAmo, h.fFunct5 (by decide), h.fAq (by decide), h.fRl (by decide), h.fRd (by decide),
    h.fRs1 (by decide), h.fRs2 (by decide)]

theorem lrW_ignores_rs2 (h : AgreeOutside 0x01F00000 ir ir') (hop : fOpcode ir = 0x2F#7)
    (hf5 : fFunct5 ir = 2#5) : decodeWord ir' = decodeWord ir := by
  rw [decodeWord_amo hop, decodeWord_amo ((h.fOpcode (by decide)).trans hop)]
  simp only [decodeAmo, h.fFunct5 (by decide), hf5, h.fAq (by decide), h.fRl (by decide), h.fRd (by decide),
    h.fRs1 (by decide)]

end

/-- Settles O7, each clause by the lemma of its ignored field. -/
theorem ignoredFields : Obligations.IgnoredFields := by
  intro ir ir' mask h op f3 hc
  obtain ⟨hop, rfl⟩ | ⟨hop, hf3, rfl⟩ | ⟨hop, hf3, rfl⟩ | ⟨hop, h25, rfl⟩ | ⟨hop, h25, -, rfl⟩ | ⟨hop, h25, hf3, rfl⟩ |
    ⟨hop, hf3, rfl⟩ | ⟨hop, hf3, hf8, rfl⟩ | ⟨hop, rfl⟩ | ⟨hop, hf5, rfl⟩ := hc
  · exact jalr_ignores_funct3 h hop
  · exact slli_ignores_funct7 h hop hf3
  · exact srli_srai_ignore_funct7 h hop hf3
  · exact mulDiv_ignores_funct7 h hop h25
  · exact op_ignores_funct7_but_bit30 h hop h25
  · exact op_ignores_whole_funct7 h hop h25 hf3
  · exact system_priv_ignores_registers h hop hf3
  · exact mret_ignores_high_bits h hop hf3 hf8
  · exact amo_ignores_funct3 h hop
  · exact lrW_ignores_rs2 h hop hf5

/-! ### Rejected words that are illegal at every address (R188) -/

section
variable {ir : Word}

theorem decodeBranch_reserved (h : fFunct3 ir ∈ [2#3, 3#3]) : decodeBranch ir = .error (.branchFunct3 (fFunct3 ir)) := by
  simp only [List.mem_cons, List.not_mem_nil, or_false] at h
  rcases h with h | h <;> rw [decodeBranch, h] <;> rfl

theorem decodeSystem_reserved (h : fFunct3 ir = 4#3) : decodeSystem ir = .error .systemFunct3 := by
  rw [decodeSystem, h]; rfl

theorem decodePriv_unselected (h : fCsr ir ∉ [0x000#12, 0x001#12, 0x105#12]) (hm : (fCsr ir).extractLsb' 0 8 ≠ 0x02#8) :
    decodePriv ir = .error (.systemFunct12 (fCsr ir)) := by
  simp only [List.mem_cons, List.not_mem_nil, or_false, not_or] at h
  obtain ⟨hecall, hebreak, hwfi⟩ := h
  rw [decodePriv, if_neg hm, if_neg hecall, if_neg hebreak, if_neg hwfi]

end

namespace Machine

theorem State.runWord_of_reject {s : State} {ir : Word} {r : Reject} (h : decodeWord ir = .error r) :
    s.runWord ir = execRejected r s := by
  simp only [State.runWord, h]

/-- A word whose rejection is plainly illegal raises cause 2 with mtval the pc (R188, R408, R409). -/
theorem State.runWord_illegal {s : State} {ir : Word} {r : Reject} (h : decodeWord ir = .error r)
    (hr : execRejected r s = s.illegal) : ∃ t, s.runWord ir = .next t ∧ TrapOutcome s t 2 s.pc :=
  ⟨_, (State.runWord_of_reject h).trans hr, raiseTrap_outcome s 2 s.pc⟩

/-- Settles O10: each of the four items is one rejection of the decoder. -/
theorem illegalWords : Obligations.IllegalWords := by
  rintro s ir (hop | ⟨hop, hf3⟩ | ⟨hop, hf3⟩ | ⟨hop, hf3, hf12, hmret⟩)
  · exact State.runWord_illegal (decodeWord_noMajorOpcode hop) rfl
  · exact State.runWord_illegal ((decodeWord_branch hop).trans (decodeBranch_reserved hf3)) rfl
  · exact State.runWord_illegal ((decodeWord_system hop).trans (decodeSystem_reserved hf3)) rfl
  · rw [← extractLsb'_fCsr] at hmret
    exact State.runWord_illegal
      ((decodeWord_system hop).trans ((decodeSystem_priv hf3).trans (decodePriv_unselected hf12 hmret))) rfl

end Machine
end Sys2Proof

namespace Sys2Proof.Machine

/-! ### Results of the integer instructions (`40_integer.md` R199 to R222) -/

theorem completes_opImm {i : Instr} {s : State} {rd rs1 : Reg} {operand w : Word} {f : Word → Word → Word}
    (h : exec i s = s.opImm rd rs1 operand f) (hv : f (s.readReg rs1) operand = w) : Completes i s s rd w :=
  completes_finish h hv

theorem completes_opReg {i : Instr} {s : State} {rd rs1 rs2 : Reg} {w : Word} {f : Word → Word → Word}
    (h : exec i s = s.opReg rd rs1 rs2 f) (hv : f (s.readReg rs1) (s.readReg rs2) = w) : Completes i s s rd w :=
  completes_finish h hv

/-! ### Operands (R183, R184) -/

theorem immUpper_eq_shiftLeft (imm : BitVec 20) : immUpper imm = imm.setWidth 32 <<< 12 := by
  rw [immUpper, BitVec.append_def, BitVec.shiftLeftZeroExtend_eq]
  simp

theorem toInt_immSext (imm : BitVec 12) : (immSext imm).toInt = imm.toInt :=
  BitVec.toInt_signExtend_of_le (by decide)

theorem toNat_uimmZext (uimm : BitVec 5) : (uimmZext uimm).toNat = uimm.toNat :=
  BitVec.toNat_setWidth_of_le (by decide)

theorem shiftAmount_eq_extractLsb' (v : Word) : shiftAmount v = (v.extractLsb' 0 5).toNat := by
  simp [shiftAmount]

/-! ### Comparisons and shifts as arithmetic (R204, R205, R209 to R211) -/

theorem boolWord_slt (a b : Word) : boolWord (a.slt b) = if a.toInt < b.toInt then 1 else 0 := by
  simp [boolWord, BitVec.slt]

theorem boolWord_ult (a b : Word) : boolWord (a.ult b) = if a.toNat < b.toNat then 1 else 0 := by
  simp [boolWord, BitVec.ult]

theorem shiftLeft_eq_ofNat_mul (a : Word) (n : Nat) : a <<< n = BitVec.ofNat 32 (a.toNat * 2 ^ n) := by
  rw [← Nat.shiftLeft_eq]; rfl

theorem ushiftRight_eq_ofNat_div (a : Word) (n : Nat) : a >>> n = BitVec.ofNat 32 (a.toNat / 2 ^ n) := by
  rw [← Nat.shiftRight_eq_div_pow, ← BitVec.toNat_ushiftRight, BitVec.ofNat_toNat, BitVec.setWidth_eq]

theorem sshiftRight_eq_ofInt_div (a : Word) (n : Nat) : a.sshiftRight n = BitVec.ofInt 32 (a.toInt / 2 ^ n) := by
  simp [BitVec.sshiftRight, Int.shiftRight_eq_div_pow]

/-! ### The obligations -/

/-- Settles O13, by the equation of each instruction and of the upper immediate. -/
theorem upperImmediates : Obligations.UpperImmediates := by
  intro s rd imm
  constructor
  · exact completes_finish (exec_lui ..) (immUpper_eq_shiftLeft imm)
  · exact completes_finish (exec_auipc ..) (congrArg (s.pc + ·) (immUpper_eq_shiftLeft imm))

/-- Settles O14: each instruction has the shape of OP-IMM; only the comparisons need an argument, as `boolWord` of a
comparison of bit vectors is one of numbers, and sign extension keeps the number. -/
theorem registerImmediates : Obligations.RegisterImmediates := by
  intro s rd rs1 imm a v
  refine ⟨?addi, ?slti, ?sltiu, ?xori, ?ori, ?andi⟩
  case addi => exact completes_opImm (exec_addi ..) rfl
  case slti => exact completes_opImm (exec_slti ..) (by rw [boolWord_slt, toInt_immSext])
  case sltiu => exact completes_opImm (exec_sltiu ..) (boolWord_ult a v)
  case xori => exact completes_opImm (exec_xori ..) rfl
  case ori => exact completes_opImm (exec_ori ..) rfl
  case andi => exact completes_opImm (exec_andi ..) rfl

/-- Settles O15, by the arithmetic of each shift of bit vectors; the zero-extended shift amount keeps its value. -/
theorem shiftImmediates : Obligations.ShiftImmediates := by
  intro s rd rs1 shamt a
  refine ⟨?slli, ?srli, ?srai⟩
  case slli => exact completes_opImm (exec_slli ..) (by rw [shiftLeft_eq_ofNat_mul, toNat_uimmZext])
  case srli => exact completes_opImm (exec_srli ..) (by rw [ushiftRight_eq_ofNat_div, toNat_uimmZext])
  case srai => exact completes_opImm (exec_srai ..) (by rw [sshiftRight_eq_ofInt_div, toNat_uimmZext])

/-- Settles O16: each instruction has the shape of OP; the shifts are those of O15 by `shiftAmount`, the low five bits
of rs2 (R184). -/
theorem registerRegister : Obligations.RegisterRegister := by
  intro s rd rs1 rs2 a b k
  have hk : shiftAmount b = k := shiftAmount_eq_extractLsb' b
  refine ⟨?add, ?sub, ?sll, ?slt, ?sltu, ?xor, ?srl, ?sra, ?or, ?and⟩
  case add => exact completes_opReg (exec_add ..) rfl
  case sub => exact completes_opReg (exec_sub ..) rfl
  case sll => exact completes_opReg (exec_sll ..) (by rw [shiftLeft_eq_ofNat_mul, hk])
  case slt => exact completes_opReg (exec_slt ..) (boolWord_slt a b)
  case sltu => exact completes_opReg (exec_sltu ..) (boolWord_ult a b)
  case xor => exact completes_opReg (exec_xor ..) rfl
  case srl => exact completes_opReg (exec_srl ..) (by rw [ushiftRight_eq_ofNat_div, hk])
  case sra => exact completes_opReg (exec_sra ..) (by rw [sshiftRight_eq_ofInt_div, hk])
  case or => exact completes_opReg (exec_or ..) rfl
  case and => exact completes_opReg (exec_and ..) rfl

end Sys2Proof.Machine

namespace Sys2Proof.Machine

/-! ### Control transfer (`41_control.md` R240 to R251) -/

/-- As `finish_kept`, for an instruction that goes on at `npc`. -/
theorem finishAt_kept (s : State) (rd : Reg) (v npc : Word) :
    RegWritten s (s.finishAt rd v npc) rd v ∧ (s.finishAt rd v npc).pc = npc ∧ (s.finishAt rd v npc).mem = s.mem ∧
      SystemKept s (s.finishAt rd v npc) := by
  refine ⟨fun r => ?_, State.finishAt_pc .., State.finishAt_mem .., by constructor <;> simp⟩
  rw [State.readReg_congr (State.finishAt_regs ..), State.readReg_writeReg]

/-- The mask of JALR's target (R241) clears bit 0 alone. -/
theorem and_evenMask (v : Word) : v &&& 0xFFFFFFFE#32 = (v >>> 1) <<< 1 := by
  have hmask : BitVec.allOnes 32 <<< 1 = 0xFFFFFFFE#32 := by decide
  rw [BitVec.shiftLeft_ushiftRight, hmask]

/-- A branch changes pc alone: `P` is what its condition says of the two operands. -/
theorem State.branch_eq {s : State} {rs1 rs2 : Reg} {cond : Word → Word → Bool} {P : Prop} [Decidable P]
    (h : cond (s.readReg rs1) (s.readReg rs2) = true ↔ P) (off : BitVec 13) :
    s.branch rs1 rs2 off cond = .next { s with pc := if P then s.pc + off.signExtend 32 else s.pc + 4 } := by
  unfold State.branch
  by_cases hP : P
  · rw [if_pos (h.mpr hP), if_pos hP]; rfl
  · rw [if_neg (mt h.mp hP), if_neg hP]; rfl

/-- Settles O20: both jumps end in `finishAt`, JALR with rs1 read in the state before, and its mask clears bit 0. -/
theorem jumps : Obligations.Jumps := by
  intro s
  constructor
  · intro rd off
    exact ⟨_, exec_jal .., finishAt_kept ..⟩
  · intro rd rs1 imm
    refine ⟨_, exec_jalr .., ?_⟩
    rw [and_evenMask]
    exact finishAt_kept ..

/-- Settles O21: each branch has the shape `State.branch`; its test of bit vectors is the named comparison of numbers,
and "not less" is the reversed order. -/
theorem branches : Obligations.Branches := by
  intro s rs1 rs2 off a b taken
  refine ⟨?beq, ?bne, ?blt, ?bge, ?bltu, ?bgeu⟩
  case beq => exact (exec_beq ..).trans (State.branch_eq beq_iff_eq off)
  case bne => exact (exec_bne ..).trans (State.branch_eq bne_iff_ne off)
  case blt => exact (exec_blt ..).trans (State.branch_eq BitVec.slt_iff_toInt_lt off)
  case bge => exact (exec_bge ..).trans (State.branch_eq (by simp [BitVec.slt, a, b]) off)
  case bltu => exact (exec_bltu ..).trans (State.branch_eq BitVec.ult_iff_lt off)
  case bgeu => exact (exec_bgeu ..).trans (State.branch_eq (by simp [BitVec.ult, a, b]) off)

end Sys2Proof.Machine

namespace Sys2Proof

/-! ### Reserved widths of LOAD and STORE (R188 items 3 and 4, R271) -/

section
variable {ir : Word}

theorem decodeLoad_reserved (h : fFunct3 ir ∈ [3#3, 6#3, 7#3]) :
    decodeLoad ir = .error (.loadWidth (fFunct3 ir) (fRd ir) (fRs1 ir) (fImmI ir)) := by
  simp only [List.mem_cons, List.not_mem_nil, or_false] at h
  rcases h with h | h | h <;> rw [decodeLoad, h] <;> rfl

theorem decodeStore_reserved (h : fFunct3 ir ∈ [3#3, 4#3, 5#3, 6#3, 7#3]) :
    decodeStore ir = .error (.storeWidth (fFunct3 ir) (fRs1 ir) (fImmS ir)) := by
  simp only [List.mem_cons, List.not_mem_nil, or_false] at h
  rcases h with h | h | h | h | h <;> rw [decodeStore, h] <;> rfl

end

namespace Machine

section
variable {s : State} {ir : Word}

theorem State.runWord_reservedLoad (hop : fOpcode ir = 0x03#7) (hf3 : fFunct3 ir ∈ [3#3, 6#3, 7#3]) :
    s.runWord ir = s.reservedLoad (fRs1 ir) (fImmI ir) :=
  State.runWord_of_reject ((decodeWord_load hop).trans (decodeLoad_reserved hf3))

theorem State.runWord_reservedStore (hop : fOpcode ir = 0x23#7) (hf3 : fFunct3 ir ∈ [3#3, 4#3, 5#3, 6#3, 7#3]) :
    s.runWord ir = s.reservedStore (fRs1 ir) (fImmS ir) :=
  State.runWord_of_reject ((decodeWord_store hop).trans (decodeStore_reserved hf3))

variable {rs1 : Reg} {imm : BitVec 12}

theorem reservedLoad_ram (h : IsRam s (s.ea rs1 imm)) : s.reservedLoad rs1 imm = s.illegal := by
  simp only [State.reservedLoad, classify_ram h]

theorem reservedLoad_mmio (h : IsMmio s (s.ea rs1 imm)) : s.reservedLoad rs1 imm = .refused .mmioLoadWidth := by
  simp only [State.reservedLoad, classify_mmio h]

theorem reservedLoad_unpopulated (h : IsUnpopulated s (s.ea rs1 imm)) :
    s.reservedLoad rs1 imm = .next (s.raiseTrap 5 (s.ea rs1 imm)) := by
  simp only [State.reservedLoad, classify_unpopulated h]

theorem reservedStore_ram (h : IsRam s (s.ea rs1 imm)) : s.reservedStore rs1 imm = s.illegal := by
  simp only [State.reservedStore, classify_ram h]

theorem reservedStore_mmio (h : IsMmio s (s.ea rs1 imm)) : s.reservedStore rs1 imm = .refused .mmioStoreWidth := by
  simp only [State.reservedStore, classify_mmio h]

theorem reservedStore_unpopulated (h : IsUnpopulated s (s.ea rs1 imm)) :
    s.reservedStore rs1 imm = .next (s.raiseTrap 7 (s.ea rs1 imm)) := by
  simp only [State.reservedStore, classify_unpopulated h]

end

/-- Settles O11: such a word runs as `reservedLoad` or `reservedStore` of its operands, which look at the class of the
address alone. -/
theorem reservedWidths : Obligations.ReservedWidths := by
  intro s ir imm a
  constructor
  · rintro hop hf3 rfl
    rw [State.runWord_reservedLoad hop hf3]
    refine ⟨fun ha => ?ram, fun ha => ?unpopulated, fun ha => ?mmio⟩
    case ram => exact ⟨_, reservedLoad_ram ha, raiseTrap_outcome ..⟩
    case unpopulated => exact ⟨_, reservedLoad_unpopulated ha, raiseTrap_outcome ..⟩
    case mmio => exact reservedLoad_mmio ha
  · rintro hop hf3 rfl
    rw [State.runWord_reservedStore hop hf3]
    refine ⟨fun ha => ?ram, fun ha => ?unpopulated, fun ha => ?mmio⟩
    case ram => exact ⟨_, reservedStore_ram ha, raiseTrap_outcome ..⟩
    case unpopulated => exact ⟨_, reservedStore_unpopulated ha, raiseTrap_outcome ..⟩
    case mmio => exact reservedStore_mmio ha

/-! ### Loads and stores at a RAM address (R262 to R266, R268 to R270) -/

theorem fitsUnit_byte (s : State) (a : Word) : FitsUnit s a 1 :=
  (crosses_iff s a 1).1 (crosses_byte ..)

theorem setWidth_ramValue_byte (s : State) (a : Word) : (s.ramValue a 1).setWidth 8 = s.ram (ramOffset s a) := by
  rw [ramValue_byte, BitVec.setWidth_setWidth_of_le _ (by decide), BitVec.setWidth_eq]

theorem setWidth_ramValue_half (s : State) (a : Word) :
    (s.ramValue a 2).setWidth 16 = s.ram (ramOffset s a + 1) ++ s.ram (ramOffset s a) := by
  rw [ramValue_half, BitVec.setWidth_setWidth_of_le _ (by decide), BitVec.setWidth_eq]

/-- Settles O22: each load completes by `load_completes`, and its width extends the bytes of the image that the value
read is cut to; a byte always fits its unit. -/
theorem loadsFromRam : Obligations.LoadsFromRam := by
  intro s rd rs1 imm hI hN a o ha
  have hbyte : (s.ramValue a 1).setWidth 8 = s.ram o := setWidth_ramValue_byte s a
  have hhalf : (s.ramValue a 2).setWidth 16 = s.ram (o + 1) ++ s.ram o := setWidth_ramValue_half s a
  refine ⟨?lb, ?lbu, fun hf => ⟨?lh, ?lhu⟩, fun hf => ?lw⟩
  case lb => exact load_completes (exec_lb ..) hI hN ha (fitsUnit_byte s a) (congrArg (·.signExtend 32) hbyte)
  case lbu => exact load_completes (exec_lbu ..) hI hN ha (fitsUnit_byte s a) (congrArg (·.setWidth 32) hbyte)
  case lh => exact load_completes (exec_lh ..) hI hN ha hf (congrArg (·.signExtend 32) hhalf)
  case lhu => exact load_completes (exec_lhu ..) hI hN ha hf (congrArg (·.setWidth 32) hhalf)
  case lw => exact load_completes (exec_lw ..) hI hN ha hf (ramValue_word s a)

/-- Settles O23: each store completes by `store_completes`; a byte always fits its unit. -/
theorem storesToRam : Obligations.StoresToRam := by
  intro s rs1 rs2 imm hI hN a v ha
  refine ⟨?sb, fun hf => ?sh, fun hf => ?sw⟩
  case sb => exact store_completes (exec_sb ..) hI hN ha (fitsUnit_byte s a)
  case sh => exact store_completes (exec_sh ..) hI hN ha hf
  case sw => exact store_completes (exec_sw ..) hI hN ha hf

end Machine
end Sys2Proof

namespace Sys2Proof.Machine

/-! ### Products (`43_muldiv.md` R291 to R294) -/

/-- Bits 63:32 of a number in two's complement: its quotient by `2 ^ 32` rounded down, and so of either sign. -/
theorem extractLsb'_ofInt_high (z : Int) : (BitVec.ofInt 64 z).extractLsb' 32 32 = BitVec.ofInt 32 (z / 2 ^ 32) := by
  apply BitVec.eq_of_toNat_eq
  simp only [BitVec.extractLsb'_toNat, BitVec.toNat_ofInt, Nat.shiftRight_eq_div_pow]
  omega

theorem mulHigh_ofInt (p q : Int) : mulHigh (BitVec.ofInt 64 p) (BitVec.ofInt 64 q) =
    BitVec.ofInt 32 (p * q / 2 ^ 32) := by
  rw [mulHigh, ← BitVec.ofInt_mul, extractLsb'_ofInt_high]

theorem setWidth_eq_ofInt_toNat (a : Word) : (a.setWidth 64 : DWord) = BitVec.ofInt 64 a.toNat := by
  rw [BitVec.ofInt_natCast, BitVec.ofNat_toNat]

theorem mul_eq_ofInt_toInt (a b : Word) : a * b = BitVec.ofInt 32 (a.toInt * b.toInt) := by
  rw [BitVec.ofInt_mul, BitVec.ofInt_toInt, BitVec.ofInt_toInt]

theorem mulHigh_signed (a b : Word) :
    mulHigh (a.signExtend 64) (b.signExtend 64) = BitVec.ofInt 32 (a.toInt * b.toInt / 2 ^ 32) := mulHigh_ofInt ..

theorem mulHigh_signedUnsigned (a b : Word) :
    mulHigh (a.signExtend 64) (b.setWidth 64) = BitVec.ofInt 32 (a.toInt * b.toNat / 2 ^ 32) := by
  rw [setWidth_eq_ofInt_toNat]; exact mulHigh_ofInt ..

theorem mulHigh_unsigned (a b : Word) :
    mulHigh (a.setWidth 64) (b.setWidth 64) = BitVec.ofInt 32 (a.toNat * b.toNat / 2 ^ 32) := by
  rw [setWidth_eq_ofInt_toNat, setWidth_eq_ofInt_toNat, mulHigh_ofInt]

/-- Settles O17: each result is the low or the high word of the product of the numbers the operands stand for. -/
theorem multiply : Obligations.Multiply := by
  intro s rd rs1 rs2 a b
  refine ⟨?mul, ?mulh, ?mulhsu, ?mulhu⟩
  case mul => exact completes_opReg (exec_mul ..) (mul_eq_ofInt_toInt a b)
  case mulh => exact completes_opReg (exec_mulh ..) (mulHigh_signed a b)
  case mulhsu => exact completes_opReg (exec_mulhsu ..) (mulHigh_signedUnsigned a b)
  case mulhu =>
    refine completes_opReg (exec_mulhu ..) ((mulHigh_unsigned a b).trans ?_)
    exact_mod_cast BitVec.ofInt_natCast 32 (a.toNat * b.toNat / 2 ^ 32)

/-! ### Quotients and remainders (R295 to R299)

The corner of the overflow is no case of its own in these equations: the exact quotient wraps to the dividend, and the
exact remainder is 0. -/

theorem divSigned_eq_ofInt_tdiv (a b : Word) :
    divSigned a b = if b = 0 then 0xFFFFFFFF else BitVec.ofInt 32 (a.toInt.tdiv b.toInt) := by
  unfold divSigned
  split
  case isTrue => rfl
  case isFalse =>
    split
    case isTrue h => obtain ⟨rfl, rfl⟩ := h; decide
    case isFalse => rfl

theorem remSigned_eq_srem (a b : Word) : remSigned a b = a.srem b := by
  unfold remSigned
  split
  case isTrue h => rw [h]; exact BitVec.srem_zero.symm
  case isFalse =>
    split
    case isTrue h => obtain ⟨rfl, rfl⟩ := h; decide
    case isFalse => rw [← Int.tmod_def, ← BitVec.toInt_srem, BitVec.ofInt_toInt]

theorem toInt_remSigned (a b : Word) : (remSigned a b).toInt = a.toInt.tmod b.toInt := by
  rw [remSigned_eq_srem, BitVec.toInt_srem]

theorem remSigned_eq_ofInt_tmod (a b : Word) : remSigned a b = BitVec.ofInt 32 (a.toInt.tmod b.toInt) := by
  rw [← toInt_remSigned, BitVec.ofInt_toInt]

/-- Settles O18: each instruction has the shape of OP, whose result is the exact quotient or remainder, wrapped. -/
theorem divide : Obligations.Divide := by
  intro s rd rs1 rs2 a b
  refine ⟨?div, ?divu, ?rem, ?remu, fun ha hb => ⟨?divOverflow, ?remOverflow⟩⟩
  case div => exact completes_opReg (exec_div ..) (divSigned_eq_ofInt_tdiv a b)
  case divu => exact completes_opReg (exec_divu ..) rfl
  case rem =>
    refine completes_opReg (exec_rem ..) (?_ : remSigned a b = _)
    split
    case isTrue h => exact if_pos h
    case isFalse => exact remSigned_eq_ofInt_tmod a b
  case remu => exact completes_opReg (exec_remu ..) rfl
  case divOverflow => exact completes_opReg (exec_div ..) ((congrArg₂ divSigned ha hb).trans (by decide))
  case remOverflow => exact completes_opReg (exec_rem ..) ((congrArg₂ remSigned ha hb).trans (by decide))

/-! ### The laws of R300 -/

theorem divSigned_mul_add_remSigned {b : Word} (a : Word) (h : b ≠ 0) : a = divSigned a b * b + remSigned a b := by
  rw [divSigned_eq_ofInt_tdiv, if_neg h, remSigned_eq_ofInt_tmod]
  calc a = BitVec.ofInt 32 (a.toInt.tdiv b.toInt * b.toInt + a.toInt.tmod b.toInt) := by
        rw [Int.tdiv_mul_add_tmod, BitVec.ofInt_toInt]
    _ = _ := by rw [BitVec.ofInt_add, BitVec.ofInt_mul, BitVec.ofInt_toInt]

theorem divUnsigned_mul_add_remUnsigned {b : Word} (a : Word) (h : b ≠ 0) :
    a = divUnsigned a b * b + remUnsigned a b := by
  rw [divUnsigned, remUnsigned, if_neg h, if_neg h]
  calc a = BitVec.ofNat 32 (a.toNat / b.toNat * b.toNat + a.toNat % b.toNat) := by
        rw [Nat.div_add_mod', BitVec.ofNat_toNat, BitVec.setWidth_eq]
    _ = _ := by rw [BitVec.ofNat_add, BitVec.ofNat_mul, BitVec.ofNat_toNat 32 b, BitVec.setWidth_eq]

theorem natAbs_remSigned_lt {b : Word} (a : Word) (h : b ≠ 0) :
    (remSigned a b).toInt.natAbs < b.toInt.natAbs := by
  have hb : b.toInt ≠ 0 := BitVec.toInt_ne.mpr h
  rw [toInt_remSigned, Int.natAbs_tmod]
  exact Nat.mod_lt _ (Int.natAbs_pos.mpr hb)

theorem toNat_remUnsigned_lt {b : Word} (a : Word) (h : b ≠ 0) : (remUnsigned a b).toNat < b.toNat := by
  rw [remUnsigned, if_neg h, ← BitVec.umod_def, BitVec.toNat_umod]
  exact Nat.mod_lt _ (BitVec.toNat_pos_of_ne_zero h)

theorem setWidth_signExtend_word (a : Word) : (a.signExtend 64 : DWord).setWidth 32 = a := by
  ext i hi
  rw [BitVec.getElem_setWidth, BitVec.getLsbD_signExtend, if_pos hi, BitVec.getLsbD_eq_getElem hi]
  simp [Nat.lt_trans hi]

/-- The low word of a product depends on the low words of the factors only, so MUL goes with each of the high words. -/
theorem mulHigh_append_mul (x y : DWord) : mulHigh x y ++ (x.setWidth 32 * y.setWidth 32) = x * y := by
  rw [← BitVec.setWidth_mul x y (by decide), BitVec.setWidth_eq_extractLsb' (by decide)]
  exact BitVec.extractLsb'_append_extractLsb' (w := 32) (len := 32)

theorem mulHigh_comm (x y : DWord) : mulHigh x y = mulHigh y x := by
  rw [mulHigh, BitVec.mul_comm, mulHigh]

/-- A set sign bit makes the signed number less by `2 ^ 32`, and so the high word less by the other factor. -/
theorem mulHigh_signedUnsigned_eq_sub (a b : Word) : mulHigh (a.signExtend 64) (b.setWidth 64) =
    mulHigh (a.setWidth 64) (b.setWidth 64) - (if a.msb then b else 0) := by
  cases h : a.msb
  case false => simp [BitVec.signExtend_eq_setWidth_of_msb_false h]
  case true =>
    have hprod : a.toInt * b.toNat = a.toNat * b.toNat + -b.toNat * 2 ^ 32 := by
      rw [BitVec.toInt_eq_msb_cond, if_pos h]; push_cast; ring
    rw [mulHigh_signedUnsigned, mulHigh_unsigned, hprod, Int.add_mul_ediv_right _ _ (by decide), BitVec.ofInt_add,
      BitVec.ofInt_neg, BitVec.ofInt_natCast, BitVec.ofNat_toNat, BitVec.setWidth_eq, if_pos rfl, BitVec.sub_eq_add_neg]

/-- Settles O19, each law by its lemma; MULHSU of -1 and 1 is -1 in one order and 0 in the other. -/
theorem arithmeticLaws : Obligations.ArithmeticLaws := by
  refine ⟨?division, ?byZero, ?remainder, ?wholeProduct, mulHigh_signedUnsigned_eq_sub, ?commutes,
    0xFFFFFFFF, 1, by decide⟩
  case division => exact fun a b h => ⟨divSigned_mul_add_remSigned a h, divUnsigned_mul_add_remUnsigned a h⟩
  case byZero => intro a; simp [remUnsigned, remSigned]
  case remainder => exact fun a b h => ⟨natAbs_remSigned_lt a h, toNat_remUnsigned_lt a h⟩
  case wholeProduct =>
    intro a b
    have hu := mulHigh_append_mul (a.setWidth 64) (b.setWidth 64)
    have hs := mulHigh_append_mul (a.signExtend 64) (b.signExtend 64)
    rw [setWidth_signExtend_word, setWidth_signExtend_word] at hs
    exact ⟨by simpa using hu, hs⟩
  case commutes => exact fun a b => ⟨BitVec.mul_comm a b, mulHigh_comm .., mulHigh_comm ..⟩

end Sys2Proof.Machine

namespace Sys2Proof

/-! ### Unassigned funct5 of AMO (R188, R322) -/

theorem decodeAmo_unassigned {ir : Word}
    (h : fFunct5 ir ∉ [0#5, 1#5, 2#5, 3#5, 4#5, 8#5, 12#5, 16#5, 20#5, 24#5, 28#5]) :
    decodeAmo ir = .error (.amoFunct5 (fFunct5 ir) (fRs1 ir)) := by
  unfold decodeAmo
  split <;> simp_all

namespace Machine

theorem State.runWord_unassignedAmo {s : State} {ir : Word} (hop : fOpcode ir = 0x2F#7)
    (hf5 : fFunct5 ir ∉ [0#5, 1#5, 2#5, 3#5, 4#5, 8#5, 12#5, 16#5, 20#5, 24#5, 28#5]) :
    s.runWord ir = s.atomic (fRs1 ir) fun _ t => t.illegal :=
  State.runWord_of_reject ((decodeWord_amo hop).trans (decodeAmo_unassigned hf5))

/-! ### The read of an atomic, and a write after it (R310) -/

section
variable {s t : State} {rs1 : Reg} {a old : Word} {n : Nat} {k : Word → State → Result}

theorem memRead_not_fitsUnit (hf : ¬ FitsUnit s a n) : s.memRead a n = .error .lineCross := by
  refine State.memRead_crosses ?_
  rwa [← Bool.not_eq_false, crosses_iff]

theorem atomic_of_memRead (hR : IsRam s (s.readReg rs1)) (hr : s.memRead (s.readReg rs1) 4 = .ok (old, t)) :
    s.atomic rs1 k = k old t := by
  rw [atomic_ram hR, hr]

theorem atomic_of_memRead_error {f : Fault} (hR : IsRam s (s.readReg rs1))
    (hr : s.memRead (s.readReg rs1) 4 = .error f) : s.atomic rs1 k = .fault f := by
  rw [atomic_ram hR, hr]

/-- The read keeps the image and brings no failure, so a write of the same bytes completes with its own effect alone. -/
theorem memWrite_ram_of_memRead (v : Word) (hI : s.Inv) (hN : NoFailure s.mem) (hf : FitsUnit s a n)
    (hr : s.memRead a n = .ok (old, t)) : ∃ u, t.memWrite a n v = .ok u ∧ u = { s with mem := u.mem } ∧
      ∀ x, u.ram x = storedImage s (ramOffset s a) n v x := by
  obtain ⟨-, ht, hA⟩ := State.memRead_spec hI.mem_inv hI.cfg_wf.blocks_pos hr
  obtain ⟨m, rfl⟩ : ∃ m, t = { s with mem := m } := ⟨_, ht⟩
  obtain ⟨u, hw, hu, himg, -, -⟩ :=
    memWrite_ram (s := { s with mem := m }) v hA.inv hI.cfg_wf.blocks_pos (hN.of_io hA.io) hf
  refine ⟨u, hw, hu, fun x => (himg x).trans ?_⟩
  exact congrArg (ite _ _) (hA.byte x)

end

/-- Settles O12: such a word runs as an atomic whose rest is the illegal-instruction trap, so its read decides. -/
theorem unassignedAmo : Obligations.UnassignedAmo := by
  intro s ir hI hop hf5 a
  rw [State.runWord_unassignedAmo hop hf5]
  refine ⟨fun hR => ?outside, fun hR hf hN => ?inside, fun hR hf => ?crossing⟩
  case outside => exact ⟨_, atomic_outside hR, raiseTrap_outcome ..⟩
  case inside =>
    obtain ⟨u, hr, hu, himg, -, -⟩ := memRead_ram hI.mem_inv hI.cfg_wf.blocks_pos hN hf
    have hpc : u.pc = s.pc := by rw [hu]
    exact ⟨_, u, _, hr, hu, himg, atomic_of_memRead hR hr, hpc ▸ raiseTrap_outcome u 2 u.pc⟩
  case crossing => exact atomic_of_memRead_error hR (memRead_not_fitsUnit hf)

/-! ### LR.W and SC.W (R311 to R313) -/

theorem resTag_eq_extractLsb' (c : Config) (a : Word) : resTag c a = (a - c.ramBase).extractLsb' 0 29 :=
  BitVec.setWidth_eq_extractLsb' (by decide)

/-- Settles O33: after the read the tag is set from the address, and rd gets the word. -/
theorem loadReserved : Obligations.LoadReserved := by
  intro s aq rl rd rs1 hI hN a hR hf
  obtain ⟨t, hr, ht, himg, -, -⟩ := memRead_ram hI.mem_inv hI.cfg_wf.blocks_pos hN hf
  have he := (exec_lrW aq rl rd rs1 s).trans (atomic_of_memRead hR hr)
  rw [resTag_eq_extractLsb'] at he
  exact completesRam_finish he (ramValue_word s a) (by rw [ht]) rfl rfl himg

/-- Settles O34: the read keeps the tag, and then the comparison decides whether a write follows. -/
theorem storeConditional : Obligations.StoreConditional := by
  intro s aq rl rd rs1 rs2 hI hN a hR hf
  obtain ⟨t, hr, ht, himg, -, -⟩ := memRead_ram hI.mem_inv hI.cfg_wf.blocks_pos hN hf
  have htag : t.ef.res = s.ef.res := by rw [ht]
  have he := (exec_scW aq rl rd rs1 rs2 s).trans (atomic_of_memRead hR hr)
  rw [resTag_eq_extractLsb', htag] at he
  refine ⟨fun heq => ?succeeds, fun hne => ?fails⟩
  case succeeds =>
    obtain ⟨u, hw, hu, himg'⟩ := memWrite_ram_of_memRead (s.readReg rs2) hI hN hf hr
    rw [if_pos heq, hw] at he
    exact completesRam_finish he rfl hu rfl rfl himg'
  case fails =>
    rw [if_neg hne] at he
    exact completesRam_finish he rfl ht rfl rfl himg

/-! ### The AMOs and the address check (R310, R314 to R321, R326) -/

/-- Settles O35: each AMO completes by `amo_completes`; the tests of bit vectors in the minima and maxima are the named
comparisons of numbers. -/
theorem atomicMemoryOperations : Obligations.AtomicMemoryOperations := by
  intro s aq rl rd rs1 rs2 hI hN a o old v hR hf
  refine ⟨?swap, ?add, ?xor, ?and, ?or, ?min, ?max, ?minu, ?maxu⟩
  case swap => exact amo_completes (exec_amoswapW ..) hI hN hR hf rfl
  case add => exact amo_completes (exec_amoaddW ..) hI hN hR hf rfl
  case xor => exact amo_completes (exec_amoxorW ..) hI hN hR hf rfl
  case and => exact amo_completes (exec_amoandW ..) hI hN hR hf rfl
  case or => exact amo_completes (exec_amoorW ..) hI hN hR hf rfl
  case min => exact amo_completes (exec_amominW ..) hI hN hR hf (if_congr BitVec.slt_iff_toInt_lt rfl rfl)
  case max => exact amo_completes (exec_amomaxW ..) hI hN hR hf (if_congr BitVec.slt_iff_toInt_lt rfl rfl)
  case minu => exact amo_completes (exec_amominuW ..) hI hN hR hf (if_congr BitVec.ult_iff_lt rfl rfl)
  case maxu => exact amo_completes (exec_amomaxuW ..) hI hN hR hf (if_congr BitVec.ult_iff_lt rfl rfl)

/-- Settles O36: each of the eleven is `State.atomic` with a rest of its own, and the address check comes first. -/
theorem atomicOutsideRam : Obligations.AtomicOutsideRam := by
  intro s aq rl rd rs1 rs2 hR i hi
  obtain ⟨k, hk⟩ : ∃ k, exec i s = s.atomic rs1 k := by
    simp only [List.mem_cons, List.not_mem_nil, or_false] at hi
    rcases hi with rfl | rfl | rfl | rfl | rfl | rfl | rfl | rfl | rfl | rfl | rfl <;> exact ⟨_, rfl⟩
  exact raises_of (hk.trans (atomic_outside hR))

end Machine
end Sys2Proof

namespace Sys2Proof.Machine

/-! ### The stored CSRs (`10_state.md` R66, `45_system.md` R340 to R342) -/

/-- A CSR number that reads as `get` of the CSR file and writes as `set` on it completes as R342 says in all six forms. -/
theorem completes_csrForms_of_stored {s : State} {n : CsrNum} {get : CsrFile → Word} {set : CsrFile → Word → CsrFile}
    (hread : s.csrRead n = (get s.csr, s)) (hwrite : ∀ v, s.csrWrite n v = .ok { s with csr := set s.csr v })
    {rd rs1 : Reg} {uimm : BitVec 5} {q : Instr × (Word → Word)} (hq : q ∈ csrForms s rd rs1 uimm n) :
    Completes q.1 s { s with csr := set s.csr (q.2 (get s.csr)) } rd (get s.csr) :=
  completes_finish_of ((exec_csrForms hq).trans (csrOp_completes hread (hwrite _))) rfl rfl rfl

/-- Settles O42: each of the eight numbers selects its own field in R340 and R341. -/
theorem storedCsrs : Obligations.StoredCsrs := by
  intro s rd rs1 uimm p hp q hq
  obtain ⟨hread, hwrite⟩ : s.csrRead p.1 = (p.2.1 s.csr, s) ∧
      ∀ v, s.csrWrite p.1 v = .ok { s with csr := p.2.2 s.csr v } := by
    simp only [List.mem_cons, List.not_mem_nil, or_false] at hp
    rcases hp with rfl | rfl | rfl | rfl | rfl | rfl | rfl | rfl <;> exact ⟨rfl, fun _ => rfl⟩
  exact completes_csrForms_of_stored hread hwrite hq

/-! ### FENCE and FENCE.I (R344) -/

theorem State.runWord_of_decode {s : State} {ir : Word} {i : Instr} (h : decodeWord ir = .ok i) :
    s.runWord ir = exec i s := by
  simp only [State.runWord, h]

theorem exec_decodeMiscMem (s : State) (ir : Word) : exec (decodeMiscMem ir) s = .next s.advance := by
  unfold decodeMiscMem
  split
  · exact exec_fenceI ..
  · exact exec_fence ..

/-- Settles O38: a word of the opcode decodes to one of the two fences, and both only advance pc. -/
theorem fences : Obligations.Fences := by
  intro s
  refine ⟨?fence, ?fenceI, ?words⟩
  case fence => exact fun fm pred succ rs1 rd => exec_fence fm pred succ rs1 rd s
  case fenceI => exact fun imm rs1 rd => exec_fenceI imm rs1 rd s
  case words =>
    exact fun ir hop => (State.runWord_of_decode (decodeWord_miscMem hop)).trans (exec_decodeMiscMem s ir)

/-! ### Traps and the return from one (R351, R352, R355) -/

/-- Settles O39: both raise their trap at the current pc, and `raiseTrap_outcome` says what that does under each policy. -/
theorem callAndBreakpoint : Obligations.CallAndBreakpoint := by
  intro s
  have hcall := exec_ecall s
  refine ⟨fun (huser : s.ef.priv = 0#2) => ?user, fun (hother : s.ef.priv ≠ 0#2) => ?other, ?breakpoint⟩
  case user =>
    rw [if_pos huser] at hcall
    exact raises_of hcall
  case other =>
    rw [if_neg hother] at hcall
    exact raises_of hcall
  case breakpoint => exact raises_of (exec_ebreak s)

/-- One bit of a word as a word. -/
theorem setWidth_ofBool_getLsbD (v : Word) (k : Nat) :
    (BitVec.ofBool (v.getLsbD k)).setWidth 32 = (v >>> k) &&& 1 := by
  ext i hi
  cases i with
  | zero => simp
  | succ i => simp

/-- The mstatus of R355: MIE from MPIE, MPIE set, MPP the mode left, and no other bit. -/
theorem mkStatus_of_return (st : Word) (priv : BitVec 2) :
    mkStatus (mpieBit st) true priv = ((st >>> 7) &&& 1) <<< 3 ||| priv.setWidth 32 <<< 11 ||| 1 <<< 7 := by
  rw [mkStatus, mpieBit, setWidth_ofBool_getLsbD]
  ac_rfl

/-- Settles O40: MRET is `State.trapReturn`, whose mstatus is that of `mkStatus_of_return`. -/
theorem trapReturn : Obligations.TrapReturn := by
  intro s
  rw [exec_mret, State.trapReturn, mkStatus_of_return]
  rfl

/-- Settles O41: the state `exec_wfi` gives, written out as one update. -/
theorem waitForInterrupt : Obligations.WaitForInterrupt := fun s => exec_wfi s

end Sys2Proof.Machine

namespace Sys2Proof.Machine

/-! ### SYSCON_ADDR (`60_exceptions.md` R430) -/

/-- An address of the MMIO window is no address of RAM (R8). -/
theorem isMmio_of_window {s : State} {a : Word} (h : s.cfg.Wf) (ha : s.cfg.mmioLo ≤ a ∧ a < s.cfg.mmioHi) :
    IsMmio s a := by
  obtain ⟨hlo, hhi⟩ : s.cfg.mmioLo.toNat ≤ a.toNat ∧ a.toNat < s.cfg.mmioHi.toNat := ha
  refine ⟨fun hram => ?_, hlo, hhi⟩
  have hbase := s.cfg.ramBase.isLt
  have hlt := a.isLt
  have happart := h.ram_mmio_apart
  have hwrap := h.ram_no_wrap
  unfold IsRam ramOffset at hram
  rw [BitVec.toNat_sub] at hram
  omega

theorem isMmio_sysconAddr {s : State} (h : s.cfg.Wf) : IsMmio s s.cfg.sysconAddr :=
  isMmio_of_window h (h.devices_in_window _ (by simp [Config.deviceAddrs]))

/-- A store to SYSCON_ADDR goes on at pc + 4 and ends the call with the value stored (R430). -/
theorem State.mmioStore_syscon {s : State} (h : s.cfg.Wf) (v : Word) :
    s.mmioStore s.cfg.sysconAddr v = s.advance.endCall v := by
  have hd := h.devices_distinct
  simp only [Config.deviceAddrs, List.nodup_cons, List.mem_cons, List.not_mem_nil, not_or, or_false] at hd
  obtain ⟨⟨-, -, -, -, -, huart⟩, -, ⟨-, -, -, hlo⟩, ⟨-, -, hhi⟩, -⟩ := hd
  unfold State.mmioStore
  rw [if_neg (Ne.symm huart), if_neg (Ne.symm hlo), if_neg (Ne.symm hhi), if_pos rfl]

/-- Settles O26: SYSCON_ADDR is an MMIO address, so a store of any width there is `State.mmioStore_syscon`. -/
theorem sysconEndsCall : Obligations.SysconEndsCall := by
  intro s rs1 rs2 imm hwf ha i hi
  obtain ⟨k, he⟩ := exec_storeForm hi s
  have hea : s.ea rs1 imm = s.cfg.sysconAddr := ha
  have hmmio : IsMmio s (s.ea rs1 imm) := hea ▸ isMmio_sysconAddr hwf
  rw [he, store_mmio hmmio, hea, State.mmioStore_syscon hwf]
  rfl

/-! ### The session (R401, R431) -/

theorem sessionResult_eq_none_iff (c : Config) (v : Word) : sessionResult c v = none ↔ v = 0 ∨ v = 1 := by
  unfold sessionResult
  split_ifs with h
  · exact iff_of_true rfl h
  all_goals exact iff_of_false nofun h

/-- An outcome that the table of R431 does not list. -/
theorem sessionResult_unlisted (c : Config) {v : Word} (h : v ∉ [0, 1, 3, 0x7777, 0x5555]) :
    sessionResult c v = some .unknownFailure := by
  simp only [List.mem_cons, List.not_mem_nil, or_false, not_or] at h
  obtain ⟨h0, h1, h3, hrestart, hpoweroff⟩ := h
  unfold sessionResult
  rw [if_neg (not_or.2 ⟨h0, h1⟩), if_neg (show v ≠ sysconRestart from hrestart),
    if_neg (show v ≠ sysconPoweroff from hpoweroff), if_neg h3]

theorem State.sessionOver_of_outcome {s : State} {v : Word} (hv : s.call.outcome = some v) (h0 : v ≠ 0) (h1 : v ≠ 1) :
    s.sessionOver = true := by
  simp only [State.sessionOver, hv]
  rw [Option.isSome_iff_ne_none, Ne, sessionResult_eq_none_iff]
  exact not_or.2 ⟨h0, h1⟩

/-- Between calls, and with the hart next to move, a step of a session that is over changes nothing (log 11). -/
theorem step_of_sessionOver {s : State} (ha : s.agenda = []) (hr : s.call.remaining = 0) (ho : s.sessionOver = true) :
    step s = .next s := by
  unfold step State.coreStep
  simp only [ha, hr, ho, ne_eq, not_true, if_false, if_true]

/-- Settles O56: the table of `sessionResult`, whose every result ends the session. -/
theorem sessionEnds : Obligations.SessionEnds :=
  ⟨fun c v => ⟨sessionResult_eq_none_iff c v, rfl, rfl, rfl, sessionResult_unlisted c⟩,
    fun _ _ ha hr hv h0 h1 => step_of_sessionOver ha hr (State.sessionOver_of_outcome hv h0 h1)⟩

/-! ### The console task (R471) -/

theorem step_key {s : State} {b : Byte} {rest : List Move} (h : s.agenda = .key b :: rest) :
    step s = State.envMove { s with agenda := rest } (.key b) := by
  simp only [step, h]

theorem step_drain {s : State} {rest : List Move} (h : s.agenda = .drain :: rest) :
    step s = State.envMove { s with agenda := rest } .drain := by
  simp only [step, h]

/-- Settles O57: the two moves of the console task, by whether a key finds room. -/
theorem consoleTask : Obligations.ConsoleTask := by
  refine fun s rest => ⟨fun b h => ?key, fun h => step_drain h⟩
  rw [step_key h]
  unfold State.envMove
  by_cases hroom : s.kb.length < s.cfg.keyboardCap
  · simp only [if_pos hroom]
  · simp only [if_neg hroom]

/-! ### The start of a call (R402 to R406) -/

section
variable {s t : State}

/-- A call that ends before any instruction is one step. -/
theorem step_of_ended (ha : s.agenda = []) (hr : s.call.remaining = 0) (ho : s.sessionOver = false)
    (hb : s.beginCall = .ended t) : step s = .next t := by
  unfold step State.coreStep
  simp only [ha, hr, ho, hb, ne_eq, not_true, if_false, Bool.false_eq_true]

/-- Where the batch runs, its first attempt is part of the step that starts the call (log 6). -/
theorem step_of_begun (ha : s.agenda = []) (hr : s.call.remaining = 0) (ho : s.sessionOver = false)
    (hb : s.beginCall = .running t) : step s = t.attempt := by
  unfold step State.coreStep
  simp only [ha, hr, ho, hb, ne_eq, not_true, if_false, Bool.false_eq_true]

/-- Between calls of a session that goes on, the step is what the start of the call makes of it. -/
theorem step_congr_beginCall (ha : s.agenda = []) (hr : s.call.remaining = 0) (ho : s.sessionOver = false)
    (ha' : t.agenda = []) (hr' : t.call.remaining = 0) (ho' : t.sessionOver = false) (hb : s.beginCall = t.beginCall) :
    step s = step t := by
  cases h : t.beginCall with
  | ended u => rw [step_of_ended ha hr ho (hb.trans h), step_of_ended ha' hr' ho' h]
  | running u => rw [step_of_begun ha hr ho (hb.trans h), step_of_begun ha' hr' ho' h]

/-- The accounting after a call changes `cycle` alone. -/
theorem State.accountIdle_eq (s : State) : s.accountIdle = { s with
    cycle := if s.call.outcome = some 1 then s.cycle + s.call.count.setWidth 64 else s.cycle } := by
  unfold State.accountIdle
  split <;> rfl

/-- The start of a call, whichever call it is: the first the host has listed, or the default one (log 7). -/
theorem State.beginCall_eq (s : State) : s.beginCall =
    (State.openCall { s with
      cycle := if s.call.outcome = some 1 then s.cycle + s.call.count.setWidth 64 else s.cycle
      calls := s.calls.tail } (s.calls.headD s.cfg.defaultCall)).sampleTimer.dispatchCall := by
  unfold State.beginCall State.nextCall
  rw [State.accountIdle_eq]
  cases s.calls with
  | nil => simp only [List.tail_nil, List.headD_nil]
  | cons h rest => simp only [List.tail_cons, List.headD_cons]

end

/-- Settles O55: what the start of a call makes of `cycle` and of `calls` is made before the call is looked at. -/
theorem hostBetweenCalls : Obligations.HostBetweenCalls := by
  intro s ha hr ho
  refine ⟨fun hout => ?account, fun hc => ?default⟩
  case account =>
    refine step_congr_beginCall ha hr ho ha hr rfl ?_
    rw [State.beginCall_eq, State.beginCall_eq, if_pos hout, if_neg (by simp)]
    rfl
  case default =>
    refine step_congr_beginCall ha hr ho ha hr ho ?_
    rw [State.beginCall_eq, State.beginCall_eq, hc]
    rfl

/-! ### The timer and the interrupt at the start of a call (R403 to R405) -/

theorem timerCondition_eq_decide (mtime mtimecmp : DWord) :
    timerCondition mtime mtimecmp = decide (mtimecmp.toNat < mtime.toNat ∧ mtimecmp ≠ 0) :=
  (Bool.decide_and _ _).symm

/-- Setting a bit is clearing it first. -/
theorem or_eq_and_not_or (x m : Word) : x ||| m = x &&& ~~~m ||| m := by
  ext i hi
  simp only [BitVec.getElem_or, BitVec.getElem_and, BitVec.getElem_not]
  cases x[i] <;> cases m[i] <;> rfl

theorem setTimerBit_eq (v : Word) (fires : Prop) [Decidable fires] :
    setTimerBit v (decide fires) = (v &&& 0xFFFFFF7F) ||| (if fires then 0x80 else 0) := by
  by_cases h : fires
  · simpa [setTimerBit, h] using or_eq_and_not_or v 0x80#32
  · simp [setTimerBit, h]

/-- The timer condition (R403): it ends a sleep, and mip bit 7 is set to it. -/
theorem State.sampleTimer_eq {s : State} {fires : Prop} [Decidable fires]
    (h : timerCondition s.mtime s.mtimecmp = decide fires) : s.sampleTimer = { s with
      ef := { s.ef with wfi := if fires then false else s.ef.wfi }
      csr := { s.csr with mip := (s.csr.mip &&& 0xFFFFFF7F) ||| (if fires then 0x80 else 0) } } := by
  have hwfi : (s.ef.wfi && !decide fires) = if fires then false else s.ef.wfi := by
    by_cases hf : fires <;> simp [hf]
  rw [← setTimerBit_eq, ← hwfi, ← h]
  rfl

theorem timerBit_setTimerBit (v : Word) (t : Bool) : timerBit (setTimerBit v t) = t := by
  cases t <;> simp [timerBit, setTimerBit]

section
variable {s : State}

theorem State.dispatchCall_asleep (h : s.ef.wfi = true) : s.dispatchCall = .ended (s.endCall 1) := if_pos h

theorem State.dispatchCall_interrupted (hw : s.ef.wfi = false) (hi : s.interruptDue = true) :
    s.dispatchCall = .ended ((s.takeTrap 0x80000007#32 0 s.pc).endCall 0) := by
  simp [State.dispatchCall, hw, hi]

theorem State.dispatchCall_empty (hw : s.ef.wfi = false) (hi : s.interruptDue = false) (hr : s.call.remaining = 0) :
    s.dispatchCall = .ended s.endCallCounted := by
  simp [State.dispatchCall, hw, hi, hr]

theorem State.dispatchCall_runs (hw : s.ef.wfi = false) (hi : s.interruptDue = false) (hr : s.call.remaining ≠ 0) :
    s.dispatchCall = .running s := by
  simp [State.dispatchCall, hw, hi, hr]

end

theorem TrapEntered.takeTrap_endCall (s : State) (cause tval epc v : Word) :
    TrapEntered s ((s.takeTrap cause tval epc).endCall v) cause tval epc where
  regs _ := rfl
  pc := rfl
  mcause := rfl
  mtval := rfl
  mepc := rfl
  mstatus := by
    show mkStatus false (mieBit s.csr.mstatus) s.ef.priv = _
    rw [mkStatus, mieBit, setWidth_ofBool_getLsbD]
    simp
  csrs := ⟨rfl, rfl, rfl, rfl⟩
  ef := rfl
  mem := rfl
  timer := ⟨rfl, rfl⟩
  devices := ⟨rfl, rfl, rfl⟩
  model := ⟨rfl, rfl, rfl⟩

/-- Settles O54: the start of the call reaches the state the statement names, and `State.dispatchCall` has one case for
each of its clauses. -/
theorem callStart : Obligations.CallStart := by
  intro s h rest ha hr ho hc now fires cycle u
  have hbegin : s.beginCall = u.dispatchCall := by
    rw [State.beginCall_eq, hc]
    exact congrArg State.dispatchCall (State.sampleTimer_eq (timerCondition_eq_decide now s.mtimecmp))
  have hdue : u.interruptDue = true ↔ fires ∧ s.csr.mie.getLsbD 7 = true ∧ s.csr.mstatus.getLsbD 3 = true := by
    have hmip : timerBit u.csr.mip = decide fires :=
      (congrArg timerBit (setTimerBit_eq s.csr.mip fires).symm).trans (timerBit_setTimerBit _ _)
    rw [State.interruptDue, hmip]
    simp [u, timerBit, mieBit, and_assoc]
  refine ⟨fun hw => ?asleep, fun hw hf hmie hstatus => ?interrupted, fun hw hi hcount => ?empty,
    fun hw hi hcount => ?runs⟩
  case asleep => exact step_of_ended ha hr ho (hbegin.trans (State.dispatchCall_asleep hw))
  case interrupted =>
    have hd := State.dispatchCall_interrupted hw (hdue.2 ⟨hf, hmie, hstatus⟩)
    exact ⟨_, step_of_ended ha hr ho (hbegin.trans hd), .takeTrap_endCall u _ _ _ _, rfl, rfl⟩
  case empty =>
    have hrem : u.call.remaining = 0 := by simp [u, hcount]
    have hd := State.dispatchCall_empty hw (Bool.eq_false_iff.2 (mt hdue.1 hi)) hrem
    exact step_of_ended ha hr ho (hbegin.trans hd)
  case runs =>
    have hrem : u.call.remaining ≠ 0 := by simpa [u, BitVec.toNat_eq] using hcount
    have hd := State.dispatchCall_runs hw (Bool.eq_false_iff.2 (mt hdue.1 hi)) hrem
    rw [step_of_begun ha hr ho (hbegin.trans hd), step_of_running (s := u) ha hrem]

end Sys2Proof.Machine

namespace Sys2Proof.Machine

/-! ### Changes of the mode (`60_exceptions.md` R414) -/

/-- The mode after a move from `s` to `t`: as before, or the old MPP if `ret` holds, or 3 by a trap entry that saves it
(R355, R410). -/
def ModeAfter (ret : Prop) (s t : State) : Prop :=
  t.ef.priv = s.ef.priv ∨ (ret ∧ t.ef.priv = s.csr.mstatus.extractLsb' 11 2) ∨
    (t.ef.priv = 3 ∧ t.pc = s.csr.mtvec ∧ t.csr.mepc = s.pc ∧ t.csr.mstatus.extractLsb' 11 2 = s.ef.priv)

section
variable {ret ret' : Prop} {s t u : State}

theorem ModeAfter.of_ef (h : t.ef = s.ef) : ModeAfter ret s t := .inl (by rw [h])

theorem ModeAfter.of_mem (h : t = { s with mem := t.mem }) : ModeAfter ret s t := .of_ef (by rw [h])

/-- Where the move starts from, only PRIV, mstatus, mtvec and pc count. -/
theorem ModeAfter.of_start (h : ModeAfter ret u t) (hpriv : u.ef.priv = s.ef.priv)
    (hstatus : u.csr.mstatus = s.csr.mstatus) (hvec : u.csr.mtvec = s.csr.mtvec) (hpc : u.pc = s.pc)
    (hret : ret → ret') : ModeAfter ret' s t := by
  unfold ModeAfter at h
  rw [hpriv, hstatus, hvec, hpc] at h
  exact h.imp_right (Or.imp_left (And.imp_left hret))

theorem ModeAfter.of_memStart (h : ModeAfter ret u t) (hu : u = { s with mem := u.mem }) : ModeAfter ret s t :=
  h.of_start (by rw [hu]) (by rw [hu]) (by rw [hu]) (by rw [hu]) id

/-- Where the move ends, only PRIV, pc and the CSRs count. -/
theorem ModeAfter.of_end (h : ModeAfter ret s t) (hef : u.ef = t.ef) (hpc : u.pc = t.pc) (hcsr : u.csr = t.csr) :
    ModeAfter ret s u := by
  unfold ModeAfter
  rwa [hef, hpc, hcsr]

end

/-- The MPP field of a status that `mkStatus` makes. -/
theorem mpp_mkStatus (mie mpie : Bool) (mpp : BitVec 2) : (mkStatus mie mpie mpp).extractLsb' 11 2 = mpp := by
  revert mie mpie mpp
  decide

theorem modeAfter_takeTrap {ret : Prop} (s : State) (cause tval : Word) :
    ModeAfter ret s (s.takeTrap cause tval s.pc) :=
  .inr (.inr ⟨rfl, rfl, rfl, mpp_mkStatus ..⟩)

theorem modeAfter_raiseTrap {ret : Prop} (s : State) (cause tval : Word) :
    ModeAfter ret s (s.raiseTrap cause tval) := by
  unfold State.raiseTrap
  split
  · exact .of_ef rfl
  · exact .of_ef rfl
  · exact modeAfter_takeTrap s.endCallCounted cause tval

/-! ### The mode after an instruction -/

section
variable {ret : Prop} {s : State}

/-- A device store leaves PRIV, the WFI flag and the reservation tag (R110). -/
theorem State.mmioStore_ef (s : State) (a v : Word) : (s.mmioStore a v).ef = s.ef := by
  unfold State.mmioStore
  split_ifs
  · rw [State.offer_spec]; rfl
  all_goals rfl

theorem load_modeAfter (k : LoadWidth) (rd rs1 : Reg) (imm : BitVec 12) :
    Leaves (ModeAfter ret s) (s.load k rd rs1 imm) := by
  unfold State.load
  dsimp only
  split
  · exact .next (modeAfter_raiseTrap s _ _)
  · exact .next (.of_ef (by rw [State.finish_ef, State.mmioRead_state]))
  · split
    · exact .fault _
    · next ht => exact .next (.of_ef (by rw [State.finish_ef, State.memRead_kept ht]))

theorem store_modeAfter (k : StoreWidth) (rs1 rs2 : Reg) (imm : BitVec 12) :
    Leaves (ModeAfter ret s) (s.store k rs1 rs2 imm) := by
  unfold State.store
  dsimp only
  split
  · exact .next (modeAfter_raiseTrap s _ _)
  · exact .next (.of_ef (s.mmioStore_ef _ _))
  · split
    · exact .fault _
    · next ht => exact .next (.of_ef (by rw [State.advance_ef, State.memWrite_kept ht]))

/-- The end of an atomic that stores a word. -/
theorem memWrite_finish_modeAfter {t : State} (ht : t = { s with mem := t.mem }) (a v : Word) (rd : Reg) (old : Word) :
    Leaves (ModeAfter ret s) (match t.memWrite a 4 v with
      | .error e => .fault e
      | .ok u => .next (u.finish rd old)) := by
  split
  · exact .fault _
  · next u hu => exact .next (.of_ef (by rw [State.finish_ef, State.memWrite_kept hu, ht]))

theorem amo_modeAfter (rd rs1 rs2 : Reg) (f : Word → Word → Word) :
    Leaves (ModeAfter ret s) (s.amo rd rs1 rs2 f) :=
  leaves_atomic (modeAfter_raiseTrap s _ _) fun _ _ ht => memWrite_finish_modeAfter ht _ _ _ _

theorem scW_modeAfter (aq rl : Bool) (rd rs1 rs2 : Reg) : Leaves (ModeAfter ret s) (execScW aq rl rd rs1 rs2 s) := by
  refine leaves_atomic (modeAfter_raiseTrap s _ _) fun _ t ht => ?_
  split
  · exact memWrite_finish_modeAfter ht _ _ _ _
  · exact .next (.of_ef (by rw [State.finish_ef, ht]))

theorem lrW_modeAfter (aq rl : Bool) (rd rs1 : Reg) : Leaves (ModeAfter ret s) (execLrW aq rl rd rs1 s) := by
  refine leaves_atomic (modeAfter_raiseTrap s _ _) fun _ t ht => .next (.inl ?_)
  rw [State.finish_ef, ht]

theorem csrOp_modeAfter (rd : Reg) (n : CsrNum) (f : Word → Word) : Leaves (ModeAfter ret s) (s.csrOp rd n f) := by
  intro t ht
  obtain ⟨u, hu, rfl⟩ := State.csrOp_next ht
  exact .of_ef (by rw [State.finish_ef, hu.ef])

end

/-- Of all instructions, only MRET and those that trap change the mode. -/
theorem exec_modeAfter (i : Instr) (s : State) : Leaves (ModeAfter (i = .mret) s) (exec i s) := by
  have hs := exec_shape i s
  generalize exec i s = r at hs ⊢
  cases hs with
  | finish rd v => exact .next (.of_ef (by rw [State.finish_ef]))
  | jump rd v npc => exact .next (.of_ef (by rw [State.finishAt_ef]))
  | goto npc => exact .next (.of_ef rfl)
  | load k rd rs1 imm => exact load_modeAfter k rd rs1 imm
  | store k rs1 rs2 imm _ => exact store_modeAfter k rs1 rs2 imm
  | raise cause => exact .next (modeAfter_raiseTrap s _ _)
  | mret hi => exact .next (.inr (.inl ⟨hi, rfl⟩))
  | wfi _ => exact .next (.inl rfl)
  | csrOp rd n f => exact csrOp_modeAfter rd n f
  | lr aq rl rd rs1 _ => exact lrW_modeAfter aq rl rd rs1
  | sc aq rl rd rs1 rs2 => exact scW_modeAfter aq rl rd rs1 rs2
  | amo rd rs1 rs2 f => exact amo_modeAfter rd rs1 rs2 f

/-! ### The mode after a step -/

theorem Leaves.refused {P : State → Prop} (r : Refusal) : Leaves P (.refused r) := fun u hu => by cases hu

section
variable {ret : Prop} {s : State}

theorem illegal_modeAfter (s : State) : Leaves (ModeAfter ret s) s.illegal := .next (modeAfter_raiseTrap s _ _)

theorem execRejected_modeAfter (r : Reject) (s : State) : Leaves (ModeAfter ret s) (execRejected r s) := by
  cases r with
  | loadWidth _ _ rs1 imm =>
    show Leaves _ (s.reservedLoad rs1 imm)
    unfold State.reservedLoad
    dsimp only
    split
    · exact .next (modeAfter_raiseTrap s _ _)
    · exact .refused _
    · exact illegal_modeAfter s
  | storeWidth _ rs1 imm =>
    show Leaves _ (s.reservedStore rs1 imm)
    unfold State.reservedStore
    dsimp only
    split
    · exact .next (modeAfter_raiseTrap s _ _)
    · exact .refused _
    · exact illegal_modeAfter s
  | amoFunct5 _ rs1 =>
    exact leaves_atomic (modeAfter_raiseTrap s _ _) fun _ t ht u hu => (illegal_modeAfter t u hu).of_memStart ht
  | majorOpcode _ => exact illegal_modeAfter s
  | branchFunct3 _ => exact illegal_modeAfter s
  | systemFunct3 => exact illegal_modeAfter s
  | systemFunct12 _ => exact illegal_modeAfter s
  | truncated => exact illegal_modeAfter s

theorem runWord_modeAfter (ir : Word) (s : State) : Leaves (ModeAfter (decodeWord ir = .ok .mret) s) (s.runWord ir) := by
  unfold State.runWord
  split
  · next i hi =>
    exact fun t ht => (exec_modeAfter i s t ht).of_start rfl rfl rfl rfl fun hm => hi.trans (congrArg _ hm)
  · exact execRejected_modeAfter _ s

theorem Leaves.settle_modeAfter {r : Result} (h : Leaves (ModeAfter ret s) r) :
    Leaves (ModeAfter ret s) (settleResult r) := by
  cases r with
  | next t =>
    refine .next ((h t rfl).of_end ?_ ?_ ?_) <;> (unfold State.settle; split_ifs <;> rfl)
  | fault f => exact .fault f
  | refused r => exact .refused _

/-- A fetch that completes reads the word of the image at pc, and changes the hierarchy alone (R112). -/
theorem State.fetch_spec {t : State} {ir : Word} (h : s.Inv) (hf : s.fetch = .word ir t) :
    ir = ramWord s (ramOffset s s.pc) ∧ t = { s with mem := t.mem } := by
  unfold State.fetch at hf
  split at hf
  · split at hf
    · split at hf
      · cases hf
      · next hr =>
        cases hf
        obtain ⟨hv, ht, -⟩ := State.memRead_spec h.mem_inv h.cfg_wf.blocks_pos hr
        exact ⟨hv.trans (ramValue_word s s.pc), ht⟩
    · cases hf
  · cases hf

/-- The word of the image at pc is MRET. -/
def State.AtMret (s : State) : Prop := decodeWord (ramWord s (ramOffset s s.pc)) = .ok .mret

theorem attempt_modeAfter (h : s.Inv) : Leaves (ModeAfter s.AtMret s) s.attempt := by
  have hc : s.countAttempt.Inv :=
    h.of_parts rfl h.mem_inv h.file_wf h.kb_cap h.con_cap h.remaining_le h.running_open
  unfold State.attempt
  dsimp only
  split
  · exact Leaves.settle_modeAfter (.next (modeAfter_raiseTrap s.countAttempt _ _))
  · exact .fault _
  · next ir t hf =>
    obtain ⟨rfl, ht⟩ := State.fetch_spec hc hf
    exact Leaves.settle_modeAfter fun u hu => (runWord_modeAfter _ t u hu).of_memStart (s := s.countAttempt) ht

/-- The start of a call leaves the mode, but for the timer interrupt; then the batch may run (R404 to R406). -/
theorem dispatchCall_modeAfter (s : State) :
    (∃ t, s.dispatchCall = .ended t ∧ ModeAfter ret s t) ∨ s.dispatchCall = .running s := by
  unfold State.dispatchCall
  split_ifs
  · exact .inl ⟨_, rfl, .of_ef rfl⟩
  · exact .inl ⟨_, rfl, (modeAfter_takeTrap s _ _).of_end rfl rfl rfl⟩
  · exact .inl ⟨_, rfl, .of_ef rfl⟩
  · exact .inr rfl

theorem coreStep_modeAfter (h : s.Inv) : Leaves (ModeAfter s.AtMret s) s.coreStep := by
  unfold State.coreStep
  split_ifs
  · exact attempt_modeAfter h
  · exact .next (.of_ef rfl)
  · rw [State.beginCall_eq]
    generalize hu : (State.openCall _ _).sampleTimer = u
    have hI : u.Inv := by
      rw [← hu]
      refine State.Inv.sampleTimer (State.Inv.openCall ?_ _)
      exact h.same rfl rfl rfl rfl rfl rfl
    have hback {t : State} (ht : ModeAfter u.AtMret u t) : ModeAfter s.AtMret s t := by
      rw [← hu] at ht
      exact ht.of_start rfl rfl rfl rfl id
    rcases dispatchCall_modeAfter (ret := u.AtMret) u with ⟨t, hd, ht⟩ | hd
    · rw [hd]
      exact .next (hback ht)
    · rw [hd]
      exact fun t ht => hback (attempt_modeAfter hI t ht)

/-- Of the other agents' moves, only a reboot changes the mode (R471, R501, R502). -/
theorem envMove_modeAfter (m : Move) (hm : ∀ image dtb cmdline, m ≠ .reboot image dtb cmdline) :
    Leaves (ModeAfter ret s) (s.envMove m) := by
  cases m with
  | core => exact .next (.of_ef rfl)
  | key b => exact .next (.of_ef (by split <;> rfl))
  | drain => exact .next (.of_ef rfl)
  | cacheReset => exact .next (.of_ef (by split <;> rfl))
  | reboot image dtb cmdline => exact absurd rfl (hm image dtb cmdline)

theorem step_modeAfter (h : s.Inv) (hm : ∀ image dtb cmdline rest, s.agenda ≠ .reboot image dtb cmdline :: rest) :
    Leaves (ModeAfter s.AtMret s) (step s) := by
  have hrest (rest : List Move) : State.Inv { s with agenda := rest } := h.same rfl rfl rfl rfl rfl rfl
  unfold step
  split
  · exact coreStep_modeAfter h
  · next rest _ => exact coreStep_modeAfter (hrest rest)
  · next m rest _ ha =>
    exact envMove_modeAfter (s := { s with agenda := rest }) m
      fun image dtb cmdline he => hm image dtb cmdline rest (he ▸ ha)

end

/-- Settles O51: `ModeAfter` is the three ways of R414, for one instruction and for one step. -/
theorem modeChanges : Obligations.ModeChanges :=
  ⟨exec_modeAfter, fun _ t h hm ht => step_modeAfter h hm t ht⟩

end Sys2Proof.Machine

namespace Sys2Proof.Machine

/-! ### The registers of the block device (R450, R451) -/

section
variable {s : State}

/-- The pointer, the length and the offset hold no value to read (R340). -/
theorem csrRead_blkRegister (h : s.cfg.Wf) {n : CsrNum}
    (hn : n ∈ [s.cfg.csrBlkPtr, s.cfg.csrBlkOff, s.cfg.csrBlkLen]) : s.csrRead n = (0, s) := by
  have hd := customCsrs_nodup h
  simp only [Config.customCsrs, List.nodup_cons, List.mem_cons, List.not_mem_nil, not_or, or_false] at hd hn
  have hcustom : n ∈ s.cfg.customCsrs := by
    rcases hn with rfl | rfl | rfl <;> simp [Config.customCsrs]
  obtain ⟨hin, hsize, herr⟩ : n ≠ s.cfg.csrConsoleIn ∧ n ≠ s.cfg.csrBlkSize ∧ n ≠ s.cfg.csrBlkErr := by
    rcases hn with rfl | rfl | rfl <;> tauto
  rw [csrRead_custom h hcustom, if_neg hin, if_neg hsize, if_neg herr]

theorem csrWrite_blkPtr (h : s.cfg.Wf) (v : Word) :
    s.csrWrite s.cfg.csrBlkPtr v = .ok { s with blk := { s.blk with ptr := v } } := by
  have hd := customCsrs_nodup h
  simp only [Config.customCsrs, List.nodup_cons, List.mem_cons, List.not_mem_nil, not_or, or_false] at hd
  rw [csrWrite_custom h (by simp [Config.customCsrs]), if_neg (by tauto), if_pos rfl]

theorem csrWrite_blkLen (h : s.cfg.Wf) (v : Word) :
    s.csrWrite s.cfg.csrBlkLen v = .ok { s with blk := { s.blk with len := v } } := by
  have hd := customCsrs_nodup h
  simp only [Config.customCsrs, List.nodup_cons, List.mem_cons, List.not_mem_nil, not_or, or_false] at hd
  rw [csrWrite_custom h (by simp [Config.customCsrs]), if_neg (by tauto), if_neg (by tauto), if_neg (by tauto),
    if_pos rfl]

theorem csrWrite_blkOff (h : s.cfg.Wf) (v : Word) : s.csrWrite s.cfg.csrBlkOff v = .ok (s.blkSeek v) := by
  have hd := customCsrs_nodup h
  simp only [Config.customCsrs, List.nodup_cons, List.mem_cons, List.not_mem_nil, not_or, or_false] at hd
  rw [csrWrite_custom h (by simp [Config.customCsrs]), if_neg (by tauto), if_neg (by tauto), if_pos rfl]

end

theorem ioNext_eq (io : List Bool) : ioNext io = (decide (io.head? = some true), io.tail) := by
  cases io with
  | nil => rfl
  | cons b rest => cases b <;> rfl

/-- A seek sets the offset and the position and latches the outcome of its operation (R451; log 27). -/
theorem State.blkSeek_eq (s : State) (v : Word) : s.blkSeek v = { s with
    blk := { s.blk with
      off := v
      pos := v.setWidth 64
      err := if s.mem.io.head? = some true then s.cfg.blkErrIo else 0 }
    mem := { s.mem with io := s.mem.io.tail } } := by
  simp only [State.blkSeek, State.fileIo, ioNext_eq, decide_eq_true_eq]

/-- A CSR instruction on a number that reads 0 and whose write is a change of the block device and the hierarchy. -/
theorem completes_csrForms_of_device {s s' : State} {n : CsrNum} {rd rs1 : Reg} {uimm : BitVec 5}
    {q : Instr × (Word → Word)} (hq : q ∈ csrForms s rd rs1 uimm n) (hread : s.csrRead n = (0, s))
    (hwrite : s.csrWrite n (q.2 0) = .ok s') (hr : s'.regs = s.regs) (hp : s'.pc = s.pc) :
    Completes q.1 s s' rd 0 :=
  completes_finish_of ((exec_csrForms hq).trans (csrOp_completes hread hwrite)) rfl hr hp

/-- Settles O45: the three numbers read 0, and each write is its own case of R341. -/
theorem blockRegisters : Obligations.BlockRegisters := by
  intro s rd rs1 uimm h
  refine ⟨fun q hq => ?ptr, fun q hq => ?len, fun q hq => ?off⟩
  case ptr =>
    exact completes_csrForms_of_device hq (csrRead_blkRegister h (by simp)) (csrWrite_blkPtr h _) rfl rfl
  case len =>
    exact completes_csrForms_of_device hq (csrRead_blkRegister h (by simp)) (csrWrite_blkLen h _) rfl rfl
  case off =>
    have hwrite := csrWrite_blkOff h (q.2 0)
    rw [State.blkSeek_eq] at hwrite
    exact completes_csrForms_of_device hq (csrRead_blkRegister h (by simp)) hwrite rfl rfl

/-! ### The refusals of a transfer (R454) -/

section
variable {s t : State} {rd rs1 : Reg} {uimm : BitVec 5} {q : Instr × (Word → Word)}

/-- A CSR instruction on CSR_BLK_GO completes as its transfer does, with 0 in rd. -/
theorem exec_go_next (h : s.cfg.Wf) (hq : q ∈ csrForms s rd rs1 uimm s.cfg.csrBlkGo)
    (ht : s.blkTransfer (q.2 0) = .ok t) : exec q.1 s = .next (t.finish rd 0) :=
  (exec_csrForms hq).trans (csrOp_completes (csrRead_go h) ((csrWrite_go h _).trans ht))

/-- A CSR instruction on CSR_BLK_GO stops where its transfer stops. -/
theorem exec_go_stop {e : Stop} (h : s.cfg.Wf) (hq : q ∈ csrForms s rd rs1 uimm s.cfg.csrBlkGo)
    (ht : s.blkTransfer (q.2 0) = .error e) : exec q.1 s = e.toResult := by
  rw [exec_csrForms hq]
  simp only [State.csrOp, csrRead_go h, csrWrite_go h, ht]

end

section
variable {s : State} {d : Word}

/-- Pointer and length are multiples of 4 (R454). -/
def State.BlkAligned (s : State) : Prop := s.blk.ptr.toNat % 4 = 0 ∧ s.blk.len.toNat % 4 = 0

/-- The bytes of a transfer, if any, are bytes of RAM (R454). -/
def State.BlkInRam (s : State) : Prop :=
  0 < s.blk.len.toNat → IsRam s s.blk.ptr ∧ ramOffset s s.blk.ptr + s.blk.len.toNat ≤ s.cfg.ramSize

/-- A transfer ends inside the device (R454). -/
def State.BlkInDevice (s : State) : Prop := s.blk.pos.toNat + s.blk.len.toNat ≤ s.cfg.blkDevSize

theorem blkMisaligned_iff :
    (s.blk.ptr.toNat % 4 ≠ 0 ∨ s.blk.len.toNat % 4 ≠ 0) ↔ ¬ s.BlkAligned := not_and_or.symm

theorem blkOutsideRam_iff : (0 < s.blk.len.toNat ∧
    ¬ (inRamData s.cfg s.blk.ptr = true ∧ (ofs s.cfg s.blk.ptr).toNat + s.blk.len.toNat ≤ s.cfg.ramSize)) ↔
      ¬ s.BlkInRam := by
  rw [inRamData_iff, State.BlkInRam, Classical.not_imp]
  rfl

theorem blkRefusal_direction (hd : d ≠ 0 ∧ d ≠ 1) : s.blkRefusal d = some .blkDirection := if_pos hd

theorem blkRefusal_align (hd : d = 0 ∨ d = 1) (ha : ¬ s.BlkAligned) : s.blkRefusal d = some .blkAlign := by
  unfold State.blkRefusal
  rw [if_neg (by tauto), if_pos (blkMisaligned_iff.2 ha)]

theorem blkRefusal_ramRange (hd : d = 0 ∨ d = 1) (ha : s.BlkAligned) (hr : ¬ s.BlkInRam) :
    s.blkRefusal d = some .blkRamRange := by
  unfold State.blkRefusal
  rw [if_neg (by tauto), if_neg (blkMisaligned_iff.not_left.2 ha), if_pos (blkOutsideRam_iff.2 hr)]

theorem blkRefusal_devRange (hd : d = 0 ∨ d = 1) (ha : s.BlkAligned) (hr : s.BlkInRam) (hv : ¬ s.BlkInDevice) :
    s.blkRefusal d = some .blkDevRange := by
  unfold State.blkRefusal
  rw [if_neg (by tauto), if_neg (blkMisaligned_iff.not_left.2 ha), if_neg (blkOutsideRam_iff.not_left.2 hr),
    if_pos (Nat.lt_of_not_le hv)]

theorem blkRefusal_none (hd : d = 0 ∨ d = 1) (ha : s.BlkAligned) (hr : s.BlkInRam) (hv : s.BlkInDevice) :
    s.blkRefusal d = none := by
  unfold State.blkRefusal
  rw [if_neg (by tauto), if_neg (blkMisaligned_iff.not_left.2 ha), if_neg (blkOutsideRam_iff.not_left.2 hr),
    if_neg (Nat.not_lt_of_le hv)]

theorem blkTransfer_refused {r : Refusal} (h : s.blkRefusal d = some r) : s.blkTransfer d = .error (.refused r) := by
  simp only [State.blkTransfer, h]

end

/-- Settles O49: each refusal of `State.blkRefusal` stops the transfer, and so the instruction. -/
theorem blockRefusals : Obligations.BlockRefusals := by
  intro s rd rs1 uimm h q hq d aligned inRam inDevice
  have hstop {r : Refusal} (hr : s.blkRefusal d = some r) : exec q.1 s = .refused r :=
    exec_go_stop h hq (blkTransfer_refused hr)
  exact ⟨fun hd => hstop (blkRefusal_direction hd),
    fun ⟨hd, ha⟩ => hstop (blkRefusal_align hd ha),
    fun ⟨hd, ha, hr⟩ => hstop (blkRefusal_ramRange hd ha hr),
    fun ⟨hd, ha, hr, hv⟩ => hstop (blkRefusal_devRange hd ha hr hv)⟩

/-! ### A transfer, whatever operations fail (R454, R455) -/

/-- RAM ends below the top of the address space: the MMIO window lies above it, or RAM does not start at 0 (R8). -/
theorem Config.ramSize_lt {c : Config} (h : c.Wf) : c.ramSize < 2 ^ 32 := by
  obtain ⟨-, hwindow⟩ := h.devices_in_window c.uartData (by simp [Config.deviceAddrs])
  have hwindow : c.uartData.toNat < c.mmioHi.toNat := hwindow
  have hlo := c.mmioLo.isLt
  have happart := h.ram_mmio_apart
  have hwrap := h.ram_no_wrap
  omega

/-- The transfers that R454 does not refuse, but for their direction. -/
structure State.BlkAllowed (s : State) : Prop where
  aligned : s.BlkAligned
  in_ram : s.BlkInRam
  in_device : s.BlkInDevice

section
variable {s t : State} {d : Word} {moved : Nat} {used : List Bool} {failed : Bool}

theorem State.BlkAllowed.offset_aligned (h : s.BlkAllowed) (hwf : s.cfg.Wf) : ramOffset s s.blk.ptr % 4 = 0 :=
  (ramOffset_mod_four hwf _).trans h.aligned.1

theorem State.BlkAllowed.end_lt (h : s.BlkAllowed) (hwf : s.cfg.Wf) :
    ramOffset s s.blk.ptr + s.blk.len.toNat < 2 ^ 32 := by
  rcases Nat.eq_zero_or_pos s.blk.len.toNat with h0 | hpos
  · rw [h0]
    exact (s.blk.ptr - s.cfg.ramBase).isLt
  · exact Nat.lt_of_le_of_lt (h.in_ram hpos).2 (Config.ramSize_lt hwf)

theorem State.BlkAllowed.pos_lt (h : s.BlkAllowed) (hwf : s.cfg.Wf) : s.blk.pos.toNat + s.blk.len.toNat < 2 ^ 64 := by
  have hsize := hwf.dev_size
  have hin : s.blk.pos.toNat + s.blk.len.toNat ≤ s.cfg.blkDevSize := h.in_device
  omega

/-- The bound of the loops covers every byte of the transfer. -/
theorem State.len_le_sectors (hwf : s.cfg.Wf) : s.blk.len.toNat ≤ s.sectors * s.cfg.sectorSize := by
  rw [State.sectors, Nat.add_mul, Nat.one_mul]
  exact (Nat.lt_div_mul_add hwf.sector_pos).le

/-- The loop of a transfer in direction `d` (R454). -/
def State.blkLoop (s : State) (d : Word) : Except Fault (Bool × State) :=
  if d = 0 then s.readLoop s.blk.ptr s.blk.len.toNat s.sectors
  else s.writeLoop s.blk.ptr s.blk.len.toNat s.sectors

/-- The result of a transfer latched (R455). -/
def State.latch (s : State) (failed : Bool) : State := { s with blk.err := if failed then s.cfg.blkErrIo else 0 }

theorem blkTransfer_ok (hr : s.blkRefusal d = none) (h : s.blkLoop d = .ok (failed, t)) :
    s.blkTransfer d = .ok (t.latch failed) := by
  unfold State.blkLoop at h
  simp only [State.blkTransfer, hr, h]
  rfl

theorem blkTransfer_fault {f : Fault} (hr : s.blkRefusal d = none) (h : s.blkLoop d = .error f) :
    s.blkTransfer d = .error (.fault f) := by
  unfold State.blkLoop at h
  simp only [State.blkTransfer, hr, h]

/-- A transfer that was not stopped: it spent the outcomes `used`, and moved every byte, or whole sectors up to a failing
operation. -/
structure TransferEnded (s t : State) (moved : Nat) (used : List Bool) : Prop where
  kept : t = { s with mem := t.mem, blk := t.blk }
  io : s.mem.io = used ++ t.mem.io
  le : moved ≤ s.blk.len.toNat
  failure : true ∈ used ↔ moved < s.blk.len.toNat
  sectors : moved < s.blk.len.toNat → moved % s.cfg.sectorSize = 0

/-- The registers of the block device after `moved` bytes (R454, R455). -/
def State.blkAfter (s : State) (moved : Nat) : BlockDev :=
  { s.blk with
    err := if moved = s.blk.len.toNat then 0 else s.cfg.blkErrIo
    pos := BitVec.ofNat 64 (s.blk.pos.toNat + moved) }

/-- The first `moved` bytes of a transfer to RAM are those of the file; every other byte of RAM is as before. -/
def MovedIn (s t : State) (moved : Nat) : Prop :=
  t.blk = s.blkAfter moved ∧ ∀ x, t.ram x =
    if ramOffset s s.blk.ptr ≤ x ∧ x < ramOffset s s.blk.ptr + moved then
      s.blk.file.get (s.blk.pos.toNat + (x - ramOffset s s.blk.ptr))
    else s.ram x

/-- The first `moved` bytes of a transfer to the file are those of RAM; every other byte of the file is as before, but for
those of the sector after them (log 32). -/
def MovedOut (s t : State) (moved : Nat) : Prop :=
  t.blk = { s.blkAfter moved with
    file := t.blk.file
    torn := s.blk.torn + min s.cfg.sectorSize (s.blk.len.toNat - moved) } ∧
  (∀ x, t.ram x = s.ram x) ∧
  ∀ y, ¬ (s.blk.pos.toNat + moved ≤ y ∧
      y < s.blk.pos.toNat + moved + min s.cfg.sectorSize (s.blk.len.toNat - moved)) →
    t.blk.file.get y = if s.blk.pos.toNat ≤ y ∧ y < s.blk.pos.toNat + moved then
      s.ram (ramOffset s s.blk.ptr + (y - s.blk.pos.toNat)) else s.blk.file.get y

theorem LoopEnded.failed_iff {rem : Nat} (h : LoopEnded s t rem moved used failed) : failed = true ↔ moved < rem := by
  cases failed with
  | true => exact iff_of_true rfl (h.some rfl).1
  | false => exact iff_of_false nofun (by rw [h.all rfl]; exact Nat.lt_irrefl _)

theorem LoopEnded.le {rem : Nat} (h : LoopEnded s t rem moved used failed) : moved ≤ rem := by
  cases failed with
  | true => exact (h.some rfl).1.le
  | false => exact (h.all rfl).le

theorem LoopEnded.latch (h : LoopEnded s t s.blk.len.toNat moved used failed)
    (ht : t = { s with mem := t.mem, blk := t.blk }) : TransferEnded s (t.latch failed) moved used where
  kept := by rw [ht]; rfl
  io := h.io
  le := h.le
  failure := h.failure.symm.trans h.failed_iff
  sectors hlt := (h.some (h.failed_iff.2 hlt)).2

/-- What the latch writes is the error of `State.blkAfter`. -/
theorem LoopEnded.err (h : LoopEnded s t s.blk.len.toNat moved used failed) :
    (if failed then s.cfg.blkErrIo else 0) = if moved = s.blk.len.toNat then 0 else s.cfg.blkErrIo := by
  cases failed with
  | true => rw [if_pos rfl, if_neg (h.some rfl).1.ne]
  | false => rw [if_neg Bool.false_ne_true, if_pos (h.all rfl)]

/-- A transfer that is not refused stops on a storage operation, or ends with `moved` bytes moved. -/
def TransferOutcome (s : State) (d : Word) : Prop :=
  (true ∈ s.mem.io ∧ ∃ op o, s.blkTransfer d = .error (.fault (.storageFault op o))) ∨
    ∃ t moved used, s.blkTransfer d = .ok t ∧ TransferEnded s t moved used ∧
      (d = 0 → MovedIn s t moved) ∧ (d = 1 → MovedOut s t moved)

theorem transferOutcome_in (hI : s.Inv) (hA : s.BlkAllowed) : TransferOutcome s 0 := by
  have hwf := hI.cfg_wf
  have hr : s.blkRefusal 0 = none := blkRefusal_none (.inl rfl) hA.aligned hA.in_ram hA.in_device
  rcases State.readLoop_spec ⟨hwf, hI.mem_inv⟩ (hA.offset_aligned hwf) hA.aligned.2 (hA.end_lt hwf) (hA.pos_lt hwf)
      (State.len_le_sectors hwf) with ⟨hio, op, o, hf⟩ | ⟨failed, t, moved, used, hrun, hE, ht, hram⟩
  · exact .inl ⟨hio, op, o, blkTransfer_fault hr hf⟩
  refine .inr ⟨_, moved, used, blkTransfer_ok hr hrun, hE.latch ?_, fun _ => ⟨?_, hram⟩, nofun⟩
  · rw [ht]
  · rw [State.blkAfter, ← hE.err, State.latch, ht]

theorem transferOutcome_out (hI : s.Inv) (hA : s.BlkAllowed) : TransferOutcome s 1 := by
  have hwf := hI.cfg_wf
  have hr : s.blkRefusal 1 = none := blkRefusal_none (.inr rfl) hA.aligned hA.in_ram hA.in_device
  rcases State.writeLoop_spec ⟨hwf, hI.mem_inv⟩ hI.file_wf (hA.offset_aligned hwf) hA.aligned.2 (hA.end_lt hwf)
      (hA.pos_lt hwf) (State.len_le_sectors hwf) with
    ⟨hio, op, o, hf⟩ | ⟨failed, t, moved, used, hrun, hE, ht, hram, hfile⟩
  · exact .inl ⟨hio, op, o, blkTransfer_fault hr hf⟩
  refine .inr ⟨_, moved, used, blkTransfer_ok hr hrun, hE.latch ?_, nofun, fun _ => ⟨?_, hram, hfile⟩⟩
  · rw [ht]
  · rw [State.blkAfter, ← hE.err, State.latch, ht]

theorem transferOutcome (hI : s.Inv) (hA : s.BlkAllowed) (hd : d = 0 ∨ d = 1) : TransferOutcome s d := by
  rcases hd with rfl | rfl
  · exact transferOutcome_in hI hA
  · exact transferOutcome_out hI hA

end

/-! ### The instruction around a transfer -/

section
variable {s t : State} {rd rs1 : Reg} {uimm : BitVec 5} {q : Instr × (Word → Word)} {moved : Nat} {used : List Bool}

/-- What the end of the instruction adds to a transfer: 0 in rd and pc + 4. -/
theorem TransferEnded.finish (h : TransferEnded s t moved used) (rd : Reg) :
    RegWritten s (t.finish rd 0) rd 0 ∧ (t.finish rd 0).pc = s.pc + 4 ∧
      SystemKept { s with blk := t.blk } (t.finish rd 0) := by
  obtain ⟨hregs, hpc, -, hkept⟩ := finish_kept t rd 0
  have ht := h.kept
  refine ⟨fun r => ?_, hpc.trans (by rw [ht]), ?_⟩
  · rw [hregs r, State.readReg_congr (s := s) (by rw [ht])]
  · rw [ht] at hkept ⊢
    exact ⟨hkept.cfg, hkept.ef, hkept.cycle, hkept.mtime, hkept.mtimecmp, hkept.csr, hkept.kb, hkept.con, hkept.blk,
      hkept.call, hkept.calls, hkept.agenda⟩

theorem State.finish_ram (s : State) (rd : Reg) (v : Word) (x : Nat) : (s.finish rd v).ram x = s.ram x := by
  rw [State.ram, State.ram, State.finish_mem, State.finish_cfg]

/-- Where no operation fails, none stops the transfer, and every byte moves. -/
theorem TransferOutcome.of_noFailure {d : Word} (h : TransferOutcome s d) (hN : NoFailure s.mem) :
    ∃ t used, s.blkTransfer d = .ok t ∧ TransferEnded s t s.blk.len.toNat used ∧
      (d = 0 → MovedIn s t s.blk.len.toNat) ∧ (d = 1 → MovedOut s t s.blk.len.toNat) := by
  rcases h with ⟨hio, -⟩ | ⟨t, moved, used, hrun, hE, hin, hout⟩
  · exact absurd (hN _ hio) (by decide)
  · have hnot : true ∉ used := fun hu => absurd (hN true (hE.io ▸ List.mem_append_left _ hu)) (by decide)
    obtain rfl : moved = s.blk.len.toNat := le_antisymm hE.le (not_lt.1 (mt hE.failure.2 hnot))
    exact ⟨t, used, hrun, hE, hin, hout⟩

theorem State.blkAfter_all (s : State) : s.blkAfter s.blk.len.toNat =
    { s.blk with err := 0, pos := BitVec.ofNat 64 (s.blk.pos.toNat + s.blk.len.toNat) } := by
  rw [State.blkAfter, if_pos rfl]

/-- A read transfer whose first operation fails moves nothing and latches the failure (R454, R455). -/
theorem blkTransfer_firstFails {rest : List Bool} (hA : s.BlkAllowed) (hl : 0 < s.blk.len.toNat)
    (hio : s.mem.io = true :: rest) : s.blkTransfer 0 =
      .ok { s with blk := { s.blk with err := s.cfg.blkErrIo }, mem := { s.mem with io := rest } } := by
  have hfile : s.fileIo = (true, { s with mem := { s.mem with io := rest } }) := by
    simp only [State.fileIo, hio, ioNext]
  have hsector (n : Nat) : s.sectorRead s.blk.ptr n = .ok none := by
    simp only [State.sectorRead, hfile, if_true]
  have hloop : s.blkLoop 0 = .ok (true, { s with mem := { s.mem with io := rest } }) := by
    show s.readLoop _ _ (_ + 1) = _
    simp only [State.readLoop, if_neg hl.ne', hsector, hfile]
  exact blkTransfer_ok (blkRefusal_none (.inl rfl) hA.aligned hA.in_ram hA.in_device) hloop

end

/-- Settles O46: without a failure the transfer moves every byte, as `MovedIn` says. -/
theorem blockTransferIn : Obligations.BlockTransferIn := by
  intro s rd rs1 uimm hI hN p l f hptr hlen hram hdev q hq hd
  have hA : s.BlkAllowed := ⟨⟨hptr, hlen⟩, hram, hdev⟩
  obtain ⟨t, used, hrun, hE, hin, -⟩ := (transferOutcome hI hA (.inl hd)).of_noFailure hN
  obtain ⟨hblk, himg⟩ := hin hd
  obtain ⟨hregs, hpc, hkept⟩ := hE.finish rd
  rw [hblk, State.blkAfter_all] at hkept
  exact ⟨_, exec_go_next hI.cfg_wf hq hrun, hregs, hpc, fun x => (t.finish_ram rd 0 x).trans (himg x), hkept⟩

/-- Settles O47: without a failure the transfer moves every byte, as `MovedOut` says, and tears no sector. -/
theorem blockTransferOut : Obligations.BlockTransferOut := by
  intro s rd rs1 uimm hI hN p l f hptr hlen hram hdev q hq hd
  have hA : s.BlkAllowed := ⟨⟨hptr, hlen⟩, hram, hdev⟩
  obtain ⟨t, used, hrun, hE, -, hout⟩ := (transferOutcome hI hA (.inr hd)).of_noFailure hN
  obtain ⟨hblk, himg, hfile⟩ := hout hd
  obtain ⟨hregs, hpc, hkept⟩ := hE.finish rd
  rw [Nat.sub_self, Nat.min_zero] at hblk hfile
  rw [State.blkAfter_all] at hblk
  refine ⟨_, exec_go_next hI.cfg_wf hq hrun, hregs, hpc, fun x => (t.finish_ram rd 0 x).trans (himg x), ?_, ?_, ?_⟩
  · rwa [State.finish_blk]
  · rwa [State.finish_blk]
  · rw [State.finish_blk]
    exact fun y => hfile y (by omega)

/-- Settles O48: the transfer stops or ends as `TransferOutcome` says, and the instruction with it. -/
theorem blockFailures : Obligations.BlockFailures := by
  intro s rd rs1 uimm hI p l f hptr hlen hram hdev q hq hd
  have hwf := hI.cfg_wf
  have hA : s.BlkAllowed := ⟨⟨hptr, hlen⟩, hram, hdev⟩
  refine ⟨?outcome, fun rest hl hio hd => ?first⟩
  case first =>
    exact completes_csrForms_of_device hq (csrRead_go hwf)
      ((csrWrite_go hwf _).trans ((congrArg _ hd).trans (blkTransfer_firstFails hA hl hio))) rfl rfl
  case outcome =>
    rcases transferOutcome hI hA hd with ⟨hio, op, o, hstop⟩ | ⟨t, moved, used, hrun, hE, hin, hout⟩
    · exact .inl ⟨hio, op, o, exec_go_stop hwf hq hstop⟩
    · obtain ⟨hregs, hpc, hkept⟩ := hE.finish rd
      have himg := t.finish_ram rd 0
      refine .inr ⟨t.finish rd 0, moved, used, exec_go_next hwf hq hrun, hregs, hpc, ?_, hE.le, hE.failure, hE.sectors,
        ?_, ?_, ?_⟩
      · rw [State.finish_mem]
        exact hE.io
      · rwa [State.finish_blk]
      all_goals simp only [State.finish_blk, himg]
      · exact hin
      · exact hout

end Sys2Proof.Machine

namespace Sys2Proof.Machine

/-! ### The hand-off state (`70_reset_and_hazards.md` R504) -/

section
variable (cfg : Config) (backing file : Memory) (io : List Bool) (kb con : List Byte) (calls : List HostCall)
  (agenda : List Move)

/-- The DTB pointer is in x11; the hart number in x10 is 0, as is every other register (R80, R504). -/
theorem State.readReg_initial (r : Reg) :
    (State.initial cfg backing io file kb con calls agenda).readReg r = if r = 11 then cfg.dtbPtr else 0 := by
  unfold State.readReg
  by_cases h0 : r.val = 0
  · rw [dif_pos h0, if_neg (by rintro rfl; exact absurd h0 (by decide))]
  · rw [dif_neg h0]
    have h11 : r = 11 ↔ 10 = r.val - 1 := by
      rw [Fin.ext_iff]
      show r.val = 11 ↔ _
      omega
    simp only [State.initial, Vector.getElem_set, Vector.getElem_replicate, hartId, ite_self, h11]

/-- Over empty caches the RAM image is the backing store (R133, R159). -/
theorem State.ram_initial (x : Nat) :
    (State.initial cfg backing io file kb con calls agenda).ram x = backing.get x := by
  show Mem.byte cfg _ x = _
  unfold Mem.byte
  cases cfg.variant <;> rfl

end

/-- Settles O1: the registers by `State.readReg_initial`, every other field as `State.initial` writes it. -/
theorem handOffRegisters : Obligations.HandOffRegisters := by
  intro cfg backing io file kb con calls agenda
  have hreg := State.readReg_initial cfg backing file io kb con calls agenda
  exact ⟨hreg 10, hreg 11, rfl, rfl, fun r _ h11 => (hreg r).trans (if_neg h11), rfl, rfl, rfl, rfl, rfl, rfl, rfl, rfl,
    rfl, rfl, rfl⟩

/-! ### Boot loading (R503) -/

/-- A window of bytes just written reads as written. -/
theorem Memory.getN_putN {m : Memory} (h : m.wf = true) (a : Nat) {bs : List Byte} {k n : Nat}
    (hk : k + n ≤ bs.length) : (m.putN a bs).getN (a + k) n = (bs.drop k).take n := by
  induction n generalizing k with
  | zero => rw [List.take_zero]; rfl
  | succ n ih =>
    have hlt : k < bs.length := by omega
    rw [List.drop_eq_getElem_cons hlt, List.take_succ_cons, Memory.getN, Nat.add_assoc, ih (by omega),
      Memory.get_putN h, if_pos (by omega), Nat.add_sub_cancel_left, List.getD_eq_getElem _ _ hlt]

theorem length_beBytes (v : Word) : (beBytes v).length = 4 := rfl

/-- Byte `k` of the big-endian order is byte `3 - k` of the word. -/
theorem getD_beBytes (v : Word) {k : Nat} (hk : k < 4) : (beBytes v).getD k 0 = v.extractLsb' (8 * (3 - k)) 8 := by
  have hrev : (beBytes v).getD k 0 = (leBytes 4 v).getD (3 - k) 0 := by
    rw [beBytes, List.getD_reverse _ (by rw [length_leBytes]; exact hk), length_leBytes]
  rw [hrev, getD_leBytes _ _ _ (by omega), BitVec.setWidth_ushiftRight_eq_extractLsb]

section
variable {c : Config} {m : Memory} {image dtb cmdline : List Byte}

/-- The patch changes the field's four bytes, and those only where the placeholder is there. -/
theorem get_patchDtb (h : m.wf = true) (x : Nat) : (patchDtb c m).get x =
    if (dtbOffset c + c.dtbPatchOfs ≤ x ∧ x < dtbOffset c + c.dtbPatchOfs + 4) ∧
        m.getN (dtbOffset c + c.dtbPatchOfs) 4 = c.dtbPlaceholder then
      (BitVec.ofNat 32 (dtbOffset c)).extractLsb' (8 * (3 - (x - (dtbOffset c + c.dtbPatchOfs)))) 8
    else m.get x := by
  unfold patchDtb
  by_cases hp : m.getN (dtbOffset c + c.dtbPatchOfs) 4 = c.dtbPlaceholder
  · simp only [hp, if_true, and_true]
    rw [Memory.get_putN h, length_beBytes]
    exact ite_congr rfl (fun hx => getD_beBytes _ (by omega)) fun _ => rfl
  · simp only [hp, if_false, and_false]

theorem wf_patchDtb (h : m.wf = true) : (patchDtb c m).wf = true := by
  unfold patchDtb
  dsimp only
  split
  · exact Memory.wf_putN h _ _
  · exact h

theorem bootFits_iff : bootFits c image dtb cmdline = true ↔ image.length ≤ dtbOffset c ∧ dtb.length = c.dtbSize ∧
    c.dtbPatchOfs + 4 ≤ c.dtbSize ∧ c.cmdlineOfs + cmdline.length + 1 ≤ c.dtbSize := by
  simp only [bootFits, dtbOffset, Bool.and_eq_true, decide_eq_true_eq, and_assoc]

/-- Where the image of RAM is the store that boot loading leaves, RAM is loaded: the command line is the last write, the
patch the one before it, and the image ends below the DTB. -/
theorem loaded_of_bootStore {s : State} (hfit : bootFits c image dtb cmdline = true) (h : m.wf = true)
    (hram : ∀ x, s.ram x = (bootStore c m image dtb cmdline).get x) : Loaded c image dtb cmdline s := by
  obtain ⟨himage, hdtb, hpatch, -⟩ := bootFits_iff.1 hfit
  have h1 : (m.putN 0 image).wf = true := Memory.wf_putN h _ _
  have h2 : ((m.putN 0 image).putN (dtbOffset c) dtb).wf = true := Memory.wf_putN h1 _ _
  have hlast (x : Nat) : s.ram x = if dtbOffset c + c.cmdlineOfs ≤ x ∧
      x < dtbOffset c + c.cmdlineOfs + (cmdline.length + 1) then
        (cmdline ++ [0]).getD (x - (dtbOffset c + c.cmdlineOfs)) 0
      else (patchDtb c ((m.putN 0 image).putN (dtbOffset c) dtb)).get x := by
    rw [hram, bootStore, Memory.get_putN (wf_patchDtb h2), List.length_append, List.length_singleton]
  refine ⟨fun k hk => ?image_at, fun k hk => ?cmdline_at, fun k hk hout => ?dtb_at⟩
  case image_at =>
    rw [hlast, if_neg (by omega), get_patchDtb h2, if_neg (by omega), Memory.get_putN h1, if_neg (by omega),
      Memory.get_putN h, if_pos (by omega), Nat.sub_zero]
  case cmdline_at =>
    show s.ram (dtbOffset c + c.cmdlineOfs + k) = _
    rw [hlast, if_pos (by omega), Nat.add_sub_cancel_left]
    rcases Nat.lt_succ_iff_lt_or_eq.1 hk with hlt | rfl
    · rw [List.getD_append _ _ _ _ hlt]
    · rw [List.getD_append_right _ _ _ _ le_rfl, Nat.sub_self, List.getD_eq_default _ _ le_rfl]
      rfl
  case dtb_at =>
    have hbyte : ((m.putN 0 image).putN (dtbOffset c) dtb).get (dtbOffset c + k) = dtb.getD k 0 := by
      rw [Memory.get_putN h1, if_pos (by omega), Nat.add_sub_cancel_left]
    show s.ram (dtbOffset c + k) = _
    rw [hlast, if_neg (by omega), get_patchDtb h2, Memory.getN_putN h1 _ (by omega), hbyte]
    simp only [Nat.add_assoc, Nat.add_le_add_iff_left, Nat.add_lt_add_iff_left, Nat.add_sub_add_left, dtbOffset]

end

/-- Settles O60: the boot state's RAM is the store `bootStore` over a memory that lists nothing. -/
theorem bootLoading : Obligations.BootLoading := by
  intro c image dtb cmdline s _ hs
  obtain ⟨hfit, hs⟩ := Option.ite_none_right_eq_some.1 hs
  obtain rfl := Option.some.inj hs
  exact loaded_of_bootStore (m := []) hfit rfl (State.ram_initial c _ [] [] [] [] [] [])

/-! ### A reboot (R501) -/

theorem step_reboot {s : State} {image dtb cmdline : List Byte} {rest : List Move}
    (ha : s.agenda = .reboot image dtb cmdline :: rest) (hr : s.call.remaining = 0) :
    step s = State.reboot { s with agenda := rest } image dtb cmdline := by
  simp only [step, ha, State.envMove, hr, if_true]

/-- Settles O59: the state after a reboot is `State.initial` over the loaded store, with the count of free bytes kept. -/
theorem reboot : Obligations.Reboot := by
  intro s image dtb cmdline rest ha hr hfit
  let store := bootStore s.cfg s.mem.backing image dtb cmdline
  have hreg := State.readReg_initial s.cfg store s.blk.file s.mem.io s.kb s.con s.calls rest
  have hram := State.ram_initial s.cfg store s.blk.file s.mem.io s.kb s.con s.calls rest
  exact ⟨_, (step_reboot ha hr).trans (if_pos hfit), hreg 10, hreg 11, fun r _ h11 => (hreg r).trans (if_neg h11), rfl,
    rfl, rfl, rfl, rfl, rfl, rfl, rfl, rfl, fun hI => loaded_of_bootStore hfit hI.mem_inv.backing_wf hram, rfl, rfl, rfl,
    rfl, rfl⟩

end Sys2Proof.Machine
